-- ==== Sys2Proof/Word.lean ====
section
/-! DEFINITION. The words of the block: bytes of the streams (rule R59), the 64-bit word of the bit-field unit (R28),
the 32-bit codeword (R27), and the datatype of D0's "floating values" (R15). -/

namespace Sys2Proof

/-- One byte of `IN`, of `OUT` or of a serialized codeword (R50, R58). -/
abbrev Byte := BitVec 8

/-- `Word64`, the word every bit-field operation works on; the `u64` and `i64` ports carry its bits (R14, R28). -/
abbrev Word := BitVec 64

/-- A codeword as a number: 32 bits with the layout of R82 (R27). -/
abbrev Codeword := BitVec 32

/-- A value of `F` (R15). Every admitted `NUM` has only finite values, each of them a rational, so a value of `F` is
carried as the rational it denotes; which rationals are values of `F` is `NumFormat.holds`. -/
abbrev FVal := Rat

end Sys2Proof
end

