-- ==== Sys2Proof/Config.lean ====
section
/-! DEFINITION. The implementation parameters of 00_scope.md section 5 (rules R15, R42, R322) and the values the spec
leaves open, as constants without a body. -/

namespace Sys2Proof

/-- The admitted values of the parameter `NUM` (R15): the rationals, IEEE 754 binary32, IEEE 754 binary64. -/
inductive NumFormat where
  | exact
  | b32
  | b64
  deriving DecidableEq, Repr

/-- The parameters a host fixes before reset (R42, R322); no operation writes one. `CHROMA` is not here: it is a pair
of functions, `Config.c2i` and `Config.i2c` below. -/
structure Config where
  /-- `NUM` (R15, decision D3, U1). -/
  num : NumFormat
  /-- `CH_BITS`: bits of a pixel channel and of a denominator (R23, decision D9). -/
  chBits : Nat
  /-- `DECOMP_DENOM`: the denominator of a decompressed image (R163, decision D10). -/
  decompDenom : Nat
  /-- `DIM_BITS`: bits of a dimension in the framer (R33, decision D13). -/
  dimBits : Nat
  /-- `ARG_BITS`: bits of `width`, `lsb` and the grid arguments (R97, decision D26). -/
  argBits : Nat
  /-- `sizeof(ColorPixel)`, the element size a host passes to `GRID.NEWDEF`; the platform's (R161, decision D28, U8). -/
  sizeofColorPixel : Nat
  deriving DecidableEq, Repr

namespace Config

/-- The defaults of 00_scope.md section 5; `sizeofColorPixel` has none there: DESIGN CHOICE 24 (log entry 4). -/
def default : Config :=
  { num := .exact, chBits := 16, decompDenom := 255, dimBits := 32, argBits := 32, sizeofColorPixel := 24 }

/-- `C2I`, D0's `chromaToIndex`: total on `F`, result in 0..15, fixed; nothing else is known of it (R201, decision D11).
It has no body, so a proof holds for every table. -/
opaque c2i : Config → FVal → Fin 16

/-- `I2C`, D0's `indexToChroma`, before it is read as a value of `F` (see `Machine.indexToChroma`): total on 0..15,
fixed; nothing else is known of it (R201, decision D11). -/
opaque i2c : Config → Fin 16 → FVal

/-- How many of the available bytes a truncated read counts as consumed: unspecified (R65, decision D24). The step
applies it to a counter of State, and keeps it at or below the number of bytes that were available. -/
opaque truncatedTake : Nat → Nat

end Config

end Sys2Proof
end

