-- ==== Sys2Proof/Syntax.lean ====
section
/-! DEFINITION. The records carried on the ports (10_state.md section 2), the 28 operations with their typed operands
(30_encoding.md rules R95 to R100), and the commands a host presents. -/

namespace Sys2Proof

/-! ### Records (R23 to R26) -/

/-- A pixel: three unsigned channels (R23). -/
structure Pixel where
  red : Nat
  green : Nat
  blue : Nat
  deriving DecidableEq, Repr

/-- A luma and chroma triple (R24). -/
structure ColorPixel where
  y : FVal
  pb : FVal
  pr : FVal
  deriving DecidableEq, Repr

/-- The six coefficients of one 2×2 transform block (R25). -/
structure BlockCoefficients where
  a : FVal
  b : FVal
  c : FVal
  d : FVal
  pbAvg : FVal
  prAvg : FVal
  deriving DecidableEq, Repr

/-- The six quantized integers of one block, each a full-range 64-bit integer on the ports: `a`, `indexPb`, `indexPr`
read unsigned (`toNat`), `b`, `c`, `d` read as two's complement (`toInt`) (R26). -/
structure QuantizedBlock where
  a : Word
  b : Word
  c : Word
  d : Word
  indexPb : Word
  indexPr : Word
  deriving DecidableEq, Repr

/-- An element of a grid: one typed value (R149), of one of the record types of 10_state.md section 2. -/
inductive Elem where
  | pixel (px : Pixel)
  | color (cp : ColorPixel)
  | coeffs (co : BlockCoefficients)
  | quantized (q : QuantizedBlock)
  | codeword (w : Codeword)
  | word (w : Word)
  deriving DecidableEq, Repr

/-- A grid handle (R96, R140): a name, compared and nothing else. -/
abbrev Handle := Nat

/-! ### Operations -/

/-- The 28 operations of the table of R100, without their operands. -/
inductive Op where
  | bfFitsu | bfFitss | bfGetu | bfGets | bfNewu | bfNews
  | gridNew | gridNewdef | gridAtRd | gridAtWr | gridForeach | gridWidth | gridHeight | gridEsize | gridBsize | gridFree
  | cscFwd | cscInv
  | btFwd | btInv
  | qQuant | qDequant
  | cwEnc | cwDec
  | frHdrw | frPut | frHdrr | frGet
  deriving DecidableEq, Repr

/-- One operation with the operands of its format, in the port order of R96. A `u64` or `i64` operand is its 64 bits;
`arg`, `chan` and `dim` operands are numbers whose bound is checked by `Instr.wf`. -/
inductive Instr where
  /-- `BF.FITSU` (R112) -/
  | bfFitsu (value : Word) (width : Nat)
  /-- `BF.FITSS` (R113) -/
  | bfFitss (value : Word) (width : Nat)
  /-- `BF.GETU` (R114) -/
  | bfGetu (word : Word) (width lsb : Nat)
  /-- `BF.GETS` (R115) -/
  | bfGets (word : Word) (width lsb : Nat)
  /-- `BF.NEWU` (R116) -/
  | bfNewu (word : Word) (width lsb : Nat) (value : Word)
  /-- `BF.NEWS` (R117) -/
  | bfNews (word : Word) (width lsb : Nat) (value : Word)
  /-- `GRID.NEW` (R141) -/
  | gridNew (width height elementSize blockSize : Nat)
  /-- `GRID.NEWDEF` (R142) -/
  | gridNewdef (width height elementSize : Nat)
  /-- `GRID.AT.RD` (R144) -/
  | gridAtRd (g : Handle) (col row : Nat)
  /-- `GRID.AT.WR` (R145) -/
  | gridAtWr (g : Handle) (col row : Nat) (elem : Elem)
  /-- `GRID.FOREACH` (R146) -/
  | gridForeach (g : Handle)
  /-- `GRID.WIDTH` (R147) -/
  | gridWidth (g : Handle)
  /-- `GRID.HEIGHT` (R152) -/
  | gridHeight (g : Handle)
  /-- `GRID.ESIZE` (R153) -/
  | gridEsize (g : Handle)
  /-- `GRID.BSIZE` (R154) -/
  | gridBsize (g : Handle)
  /-- `GRID.FREE` (R148) -/
  | gridFree (g : Handle)
  /-- `CSC.FWD` (R160) -/
  | cscFwd (px : Pixel) (denominator : Nat)
  /-- `CSC.INV` (R162) -/
  | cscInv (cp : ColorPixel) (denominator : Nat)
  /-- `BT.FWD` (R180) -/
  | btFwd (p1 p2 p3 p4 : ColorPixel)
  /-- `BT.INV` (R184) -/
  | btInv (co : BlockCoefficients)
  /-- `Q.QUANT` (R200) -/
  | qQuant (co : BlockCoefficients)
  /-- `Q.DEQUANT` (R205) -/
  | qDequant (q : QuantizedBlock)
  /-- `CW.ENC` (R220) -/
  | cwEnc (q : QuantizedBlock)
  /-- `CW.DEC` (R224) -/
  | cwDec (bytes : List Byte)
  /-- `FR.HDRW` (R230) -/
  | frHdrw (width height : Nat)
  /-- `FR.PUT` (R233) -/
  | frPut (q : QuantizedBlock)
  /-- `FR.HDRR` (R236) -/
  | frHdrr
  /-- `FR.GET` (R239) -/
  | frGet
  deriving DecidableEq, Repr

/-- Which operation an instruction is (R100). -/
def Instr.op : Instr → Op
  | .bfFitsu _ _ => .bfFitsu
  | .bfFitss _ _ => .bfFitss
  | .bfGetu _ _ _ => .bfGetu
  | .bfGets _ _ _ => .bfGets
  | .bfNewu _ _ _ _ => .bfNewu
  | .bfNews _ _ _ _ => .bfNews
  | .gridNew _ _ _ _ => .gridNew
  | .gridNewdef _ _ _ => .gridNewdef
  | .gridAtRd _ _ _ => .gridAtRd
  | .gridAtWr _ _ _ _ => .gridAtWr
  | .gridForeach _ => .gridForeach
  | .gridWidth _ => .gridWidth
  | .gridHeight _ => .gridHeight
  | .gridEsize _ => .gridEsize
  | .gridBsize _ => .gridBsize
  | .gridFree _ => .gridFree
  | .cscFwd _ _ => .cscFwd
  | .cscInv _ _ => .cscInv
  | .btFwd _ _ _ _ => .btFwd
  | .btInv _ => .btInv
  | .qQuant _ => .qQuant
  | .qDequant _ => .qDequant
  | .cwEnc _ => .cwEnc
  | .cwDec _ => .cwDec
  | .frHdrw _ _ => .frHdrw
  | .frPut _ => .frPut
  | .frHdrr => .frHdrr
  | .frGet => .frGet

/-! ### Commands (R95, R96) -/

/-- The operand ports, one field per port name of R96. A `u64` and an `i64` port of the same name share their 64 lines
(`value`); `width` and `height` serve both the `arg` and the `dim` formats. -/
structure Ports where
  value : Word
  word : Word
  width : Nat
  height : Nat
  lsb : Nat
  elementSize : Nat
  blockSize : Nat
  g : Handle
  col : Nat
  row : Nat
  elem : Elem
  px : Pixel
  denominator : Nat
  cp : ColorPixel
  p1 : ColorPixel
  p2 : ColorPixel
  p3 : ColorPixel
  p4 : ColorPixel
  co : BlockCoefficients
  q : QuantizedBlock
  bytes : List Byte
  deriving DecidableEq, Repr

/-- Every port at zero: what a command presents on the ports its format does not use. -/
def Ports.idle : Ports :=
  { value := 0, word := 0, width := 0, height := 0, lsb := 0, elementSize := 0, blockSize := 0, g := 0, col := 0, row := 0,
    elem := .word 0, px := ⟨0, 0, 0⟩, denominator := 0, cp := ⟨0, 0, 0⟩, p1 := ⟨0, 0, 0⟩, p2 := ⟨0, 0, 0⟩, p3 := ⟨0, 0, 0⟩,
    p4 := ⟨0, 0, 0⟩, co := ⟨0, 0, 0, 0, 0, 0⟩, q := ⟨0, 0, 0, 0, 0, 0⟩, bytes := [] }

/-- A command: the 8-bit operation-select code and the operand ports (R95). -/
structure Command where
  op : BitVec 8
  ports : Ports
  deriving DecidableEq, Repr

/-- What the host does to the block, one at a time (R9, R10, R320): it issues a command, or it asserts reset and
supplies the input stream of the next run. -/
inductive HostAction where
  | issue (c : Command)
  | reset (input : List Byte)
  deriving DecidableEq, Repr

end Sys2Proof
end

