-- ==== Sys2Proof/Machine/State.lean ====
section
/-! DEFINITION. Everything the spec gives the machine (10_state.md, 20_memory.md), as plain data; the reasons a step
can stop; and the state after reset (rule R43). -/

namespace Sys2Proof.Machine

/-- The places of the framer in the stream grammar, the four values of `FR_MODE` (R32). -/
inductive FrMode where
  | idle
  | tx
  | rx
  | done
  deriving DecidableEq, Repr

/-- The five fatal error kinds of D0 (R281). Raising one is no stop of this model: `raise` takes it, a next state. -/
inductive ErrorKind where
  | invalidArgument
  | rangeError
  | overflowError
  | truncatedStreamError
  | formatError
  deriving DecidableEq, Repr

/-- One grid: its descriptor and its written slots (R36, R37). `slots` lists slot index and element, indexes strictly
rising; an unlisted slot holds no value. -/
structure Grid where
  width : Nat
  height : Nat
  elementSize : Nat
  blockSize : Nat
  slots : List (Nat × Elem)
  deriving DecidableEq, Repr

/-- Buffer memory: the live grids, handles strictly rising; an unlisted handle is not live (R36, R53, R140). -/
abbrev Memory := List (Handle × Grid)

/-- What the result ports deliver, one constructor per result format of R96; an operation without result ports delivers
none. `u64` and `i64` results are their 64 bits. -/
inductive Result where
  /-- `BFV` -/
  | fits (b : Bool)
  /-- `BFG` -/
  | value (v : Word)
  /-- `BFS` -/
  | word (w : Word)
  /-- `GNEW`, `GDEF`, `GWR` -/
  | grid (g : Handle)
  /-- `GRD` -/
  | elem (e : Elem)
  /-- `GSEQ` -/
  | seq (l : List (Nat × Nat))
  /-- `GQ` -/
  | n (n : Nat)
  /-- `PXF` -/
  | color (cp : ColorPixel)
  /-- `PXI` -/
  | pixel (px : Pixel)
  /-- `BLF`, `QI` -/
  | coeffs (co : BlockCoefficients)
  /-- `BLI` -/
  | block (p1 p2 p3 p4 : ColorPixel)
  /-- `QF`, `CD`, `FG` -/
  | quantized (q : QuantizedBlock)
  /-- `CE` -/
  | codeword (w : Word) (bytes : List Byte)
  /-- `FHR` -/
  | dims (width height : Nat)
  deriving DecidableEq, Repr

/-- The answer to one operation: the code in `FAULT`, presented with every response, and the result, when one is
delivered (R283, R303). -/
structure Response where
  fault : BitVec 3
  result : Option Result
  deriving DecidableEq, Repr

/-- Reasons a step stops as a fault of the MODEL: none. The block's five faults are described by the spec as a change
of state (`FAULT` set, the block halted, later operations answered with the code: R280, R283), so they are next states. -/
inductive Fault where
  deriving DecidableEq, Repr

/-- Reasons a step has no successor. Except for `notModelled`, each is a condition the spec itself lists as refused
(93_implementation_defined.md section 2, R12, R294: "a model must give it no successor state"), so each is safe: no
claim about a next state can be proved of it. -/
inductive Refusal where
  /-- An instruction without a meaning in this model; raised by an arm of `exec` only. Safe. -/
  | notModelled (mnemonic : String)
  /-- The `OP` code is in no row of the table; raised by the fetch of a command (R101). Safe. -/
  | reservedOp (op : BitVec 8)
  /-- An operand is outside its port's type, so the command cannot be presented; raised by the fetch (R102). Safe. -/
  | notPresentable
  /-- The handle names no live grid; raised by every `GRID` operation that takes a handle (R140, R148). Safe. -/
  | deadHandle (g : Handle)
  /-- `GRID.AT.RD` of a slot nothing has written (R37, R144); a host program's read of a missing cell. Safe. -/
  | unwrittenSlot
  /-- `CSC.FWD` with a zero denominator or a channel above the denominator (R164). Safe. -/
  | pixelOutsideRange
  /-- `CSC.INV` with a zero denominator (R162). Safe. -/
  | zeroDenominator
  /-- An intermediate or a result would be an infinity under `B32` or `B64` (R15, decision D29). Safe. -/
  | nonFinite
  /-- `Q.DEQUANT` with an index outside the domain of `I2C` (R205). Safe. -/
  | indexOutsideDomain
  /-- An odd dimension: `FR.HDRW` (R231), `FR.HDRR` (R88), `BT.FWD.GRID` (R183). Safe. -/
  | oddDimension
  /-- An `FR` operation in a mode that R242 does not list for it (R228). Safe. -/
  | wrongFramerMode (mode : FrMode)
  /-- `FR.HDRR`: a numeral with a leading zero (R88, decision D13). Safe. -/
  | leadingZero
  /-- `FR.HDRR`: a numeral of `2^DIM_BITS` or more (R88, decision D13). Safe. -/
  | numeralTooWide
  deriving DecidableEq, Repr

/-- The machine. -/
structure State where
  /-- The parameters, fixed before reset; no step writes them (R42, R43 last row; log entry 2). -/
  cfg : Config
  /-- `FAULT`, 3 bits: the code of the first fault since reset, or 0 (R29). -/
  fault : BitVec 3
  /-- `FR_MODE`, 2 bits (R32). -/
  frMode : FrMode
  /-- `FR_W`, `DIM_BITS` bits (R33). -/
  frW : Nat
  /-- `FR_H`, `DIM_BITS` bits (R33). -/
  frH : Nat
  /-- `FR_REM`, `2*DIM_BITS - 2` bits (R34). -/
  frRem : Nat
  /-- The bytes of `IN`, fixed before the run (R30). -/
  input : List Byte
  /-- `IN.pos` (R30, R46). -/
  inPos : Nat
  /-- `OUT` (R31). -/
  out : List Byte
  /-- Buffer memory: the live grids (R36, R37, R50). -/
  grids : Memory
  /-- The model's own: the next handle a `GRID.NEW` returns, so that every handle is fresh (R141; log entry 5). -/
  nextHandle : Handle
  /-- The result ports and the fault code presented with them, of the last step (R20, R43, R283). -/
  response : Option Response
  /-- The host's actions not yet performed, next one first (R10, R21, R320; log entry 3). -/
  host : List HostAction
  /-- The model's own: how often a value the spec leaves unspecified was drawn (R65; log entry 6). -/
  freeCount : Nat
  deriving DecidableEq, Repr

/-- The state after reset for a configuration and an input stream the host chooses (R43, R320, R321). -/
def State.resetWith (cfg : Config) (input : List Byte) : State :=
  { cfg := cfg, fault := 0#3, frMode := .idle, frW := 0, frH := 0, frRem := 0, input := input, inPos := 0, out := [],
    grids := [], nextHandle := 0, response := none, host := [], freeCount := 0 }

/-- The state after reset: the spec's default parameters, an empty `IN` and no action of the host pending
(R43; log entries 2, 3, 5, 6, 7). -/
def State.reset : State := State.resetWith Config.default []

end Sys2Proof.Machine
end

