-- ==== Sys2Proof/Machine/Flags.lean ====
section
/-! DEFINITION. Status. The block has no flags and no condition codes (rule R22); the status that persists is `FAULT`
(R29), and the framer keeps a mode (R32). Here are their encodings and the tests made on them. -/

namespace Sys2Proof.Machine

/-- The numeric code of an error kind (R29, R281, decision D5). -/
def ErrorKind.code : ErrorKind → BitVec 3
  | .invalidArgument => 1#3
  | .rangeError => 2#3
  | .overflowError => 3#3
  | .truncatedStreamError => 4#3
  | .formatError => 5#3

/-- The value of the 2-bit register `FR_MODE` (R32). -/
def FrMode.code : FrMode → BitVec 2
  | .idle => 0#2
  | .tx => 1#2
  | .rx => 2#2
  | .done => 3#2

/-- The halt: `FAULT` is not 0 (R283). -/
def State.halted (s : State) : Bool := s.fault != 0#3

/-- The mode after the header or a codeword: `running` while codewords are left, else `DONE` (R242). -/
def modeAfter (running : FrMode) (rem : Nat) : FrMode := if 0 < rem then running else .done

end Sys2Proof.Machine
end

