-- ==== Sys2Proof/Machine/Operands.lean ====
section
/-! DEFINITION. Integer and real-valued notation of 00_scope.md (rules R13 to R16): two's complement, shifts, the
arithmetic of `F` under each `NUM`, clamping and rounding; and what an operand port can carry (R96, R102). -/

namespace Sys2Proof.Machine

/-! ### Integers (R14, R111) -/

/-- `tc(v, w)`: the `w`-bit two's-complement pattern of `v` (R14). -/
def tc (v : Int) (w : Nat) : Nat := (v % (2 ^ w : Nat)).toNat

/-- `sext_64(v, w)`: the `w`-bit pattern `v` read as two's complement, for `1 <= w <= 64` (R14). -/
def sext (v w : Nat) : Int := if 2 ^ (w - 1) ≤ v then (v : Int) - (2 ^ w : Nat) else v

/-- `shl64`: logical shift left keeping 64 bits; a shift by 64 gives 0 (R14, R111). -/
def shl64 (x : Word) (n : Nat) : Word := if n = 64 then 0 else x <<< n

/-- `shr64`: logical shift right; a shift by 64 gives 0 (R14, R111). -/
def shr64 (x : Word) (n : Nat) : Word := if n = 64 then 0 else x >>> n

/-- `mask(width) = 2^width - 1`, for `width <= 64` (R111). -/
def mask (width : Nat) : Word := BitVec.ofNat 64 (2 ^ width - 1)

/-- `ceil(a / b)` for a positive `b` (R36, R54). -/
def ceilDiv (a b : Nat) : Nat := (a + (b - 1)) / b

/-- Digit by digit in base 2: the largest `s` that agrees with the start `s` above its `k` low bits and has
`s * s <= n`. -/
def isqrtBits : Nat → Nat → Nat → Nat
  | 0, _, s => s
  | k + 1, n, s => if (s + 2 ^ k) * (s + 2 ^ k) ≤ n then isqrtBits k n (s + 2 ^ k) else isqrtBits k n s

/-- `isqrt(n)`: the largest `s` with `s * s <= n` (R142). -/
def isqrt (n : Nat) : Nat := isqrtBits (n.log2 / 2 + 1) n 0

/-! ### Values of `F` (R15) -/

/-- `a / b` rounded to the nearest integer, ties to even (R15; IEEE 754's rule, U5). -/
def halfEven (a b : Nat) : Nat :=
  let f := a / b
  let r := a % b
  if 2 * r < b then f else if b < 2 * r then f + 1 else f + f % 2

/-- The exponent of the leading bit of the positive fraction `n / d`: the `e` with `2^e <= n/d < 2^(e+1)`. -/
def leadingExp (n d : Nat) : Int :=
  let e : Int := (n.log2 : Int) - (d.log2 : Int)
  if (if 0 ≤ e then d * 2 ^ e.toNat ≤ n else d ≤ n * 2 ^ (-e).toNat) then e else e - 1

/-- `m * 2^q` as a rational. -/
def scale2 (m : Nat) (q : Int) : FVal := if 0 ≤ q then ((m * 2 ^ q.toNat : Nat) : FVal) else (m : FVal) / ((2 ^ (-q).toNat : Nat) : FVal)

/-- The positive fraction `n / d` rounded to a multiple of `2^q`, ties to even. -/
def roundQuantum (n d : Nat) (q : Int) : Nat :=
  if 0 ≤ q then halfEven n (d * 2 ^ q.toNat) else halfEven (n * 2 ^ (-q).toNat) d

/-- A rational rounded to the nearest value of the binary format with `p` bits of precision and exponents `emin` to
`emax`, ties to even, subnormals included; none where the rounded value would be an infinity (R15, U5, decision D29). -/
def roundBinary (p emin emax : Int) (x : FVal) : Option FVal :=
  if x.num = 0 then some 0
  else
    let n := x.num.natAbs
    let q := max (leadingExp n x.den - (p - 1)) (emin - (p - 1))
    let mag := scale2 (roundQuantum n x.den q) q
    if scale2 1 (emax + 1) ≤ mag then none else some (if x.num < 0 then -mag else mag)

/-- The rounding of `NUM`, one per operator (R15): none on `EXACT`; to nearest, ties to even, on `B32` and `B64`. The
answer none says that the value would not be finite. -/
def roundF : NumFormat → FVal → Option FVal
  | .exact, x => some x
  | .b32, x => roundBinary 24 (-126) 127 x
  | .b64, x => roundBinary 53 (-1022) 1023 x

/-- Is the rational a value of `F` (R15)? -/
def isF (num : NumFormat) (x : FVal) : Bool := roundF num x == some x

/-- `lit(d)`: a decimal literal as a value of `F` (R15). -/
def lit (num : NumFormat) (x : FVal) : Option FVal := roundF num x

/-- `I2F(n)`: an integer as a value of `F` (R15). -/
def i2f (num : NumFormat) (n : Int) : Option FVal := roundF num (n : FVal)

/-- The operators of `F`: the exact result, rounded once (R15). -/
def fadd (num : NumFormat) (x y : FVal) : Option FVal := roundF num (x + y)

@[inherit_doc fadd] def fsub (num : NumFormat) (x y : FVal) : Option FVal := roundF num (x - y)

@[inherit_doc fadd] def fmul (num : NumFormat) (x y : FVal) : Option FVal := roundF num (x * y)

@[inherit_doc fadd] def fdiv (num : NumFormat) (x y : FVal) : Option FVal := roundF num (x / y)

/-- `clamp(x, lo, hi)` (R16). -/
def clamp (x lo hi : FVal) : FVal := if x < lo then lo else if hi < x then hi else x

/-- `round_haz`: the nearest integer, a tie going away from zero, computed exactly on the value (R16, decision D4). -/
def roundHaz (x : FVal) : Int := if 0 ≤ x then (x + 1 / 2).floor else -(-x + 1 / 2).floor

/-- `I2C(i)` as a value of `F`: `Config.i2c` is any function, so this is any function from 0..15 to `F` (R201; log
entry 8). -/
def indexToChroma (cfg : Config) (i : Fin 16) : FVal := (roundF cfg.num (cfg.i2c i)).getD 0

/-! ### What a port can carry (R96, R102) -/

/-- An `arg` port carries `ARG_BITS` bits (R96). -/
def presentsArg (cfg : Config) (n : Nat) : Bool := decide (n < 2 ^ cfg.argBits)

/-- A `chan` port carries `CH_BITS` bits (R96). -/
def presentsChan (cfg : Config) (n : Nat) : Bool := decide (n < 2 ^ cfg.chBits)

/-- A `dim` port carries `DIM_BITS` bits (R96). -/
def presentsDim (cfg : Config) (n : Nat) : Bool := decide (n < 2 ^ cfg.dimBits)

/-- A `Pixel` port carries three channels (R23). -/
def presentsPixel (cfg : Config) (px : Pixel) : Bool :=
  presentsChan cfg px.red && presentsChan cfg px.green && presentsChan cfg px.blue

/-- A `ColorPixel` port carries three values of `F` (R24). -/
def presentsColor (cfg : Config) (cp : ColorPixel) : Bool := isF cfg.num cp.y && isF cfg.num cp.pb && isF cfg.num cp.pr

/-- A `BlockCoefficients` port carries six values of `F` (R25). -/
def presentsCoeffs (cfg : Config) (co : BlockCoefficients) : Bool :=
  isF cfg.num co.a && isF cfg.num co.b && isF cfg.num co.c && isF cfg.num co.d && isF cfg.num co.pbAvg && isF cfg.num co.prAvg

/-- An `elem` port carries one record of one of the types of 10_state.md section 2 (R149). -/
def presentsElem (cfg : Config) : Elem → Bool
  | .pixel px => presentsPixel cfg px
  | .color cp => presentsColor cfg cp
  | .coeffs co => presentsCoeffs cfg co
  | .quantized _ => true
  | .codeword _ => true
  | .word _ => true

end Sys2Proof.Machine
end

