-- ==== Sys2Proof/Machine/Ops.lean ====
section
/-! DEFINITION. The named operations of the machine over its storage and registers: sparse storage in canonical form,
the streams, the ports, raising a fault, the halt, and reset. -/

namespace Sys2Proof.Machine

/-- What a step answers. -/
abbrev StepResult := Host.Outcome State Fault Refusal

/-! ### Sparse storage: pairs of key and value, keys strictly rising, an unlisted key holding nothing -/

namespace Store

/-- The canonical form: keys strictly rising. -/
def rising {α : Type} : List (Nat × α) → Bool
  | [] => true
  | e :: l => l.all (fun x => decide (e.1 < x.1)) && rising l

/-- The value at a key, if one is listed. -/
def find {α : Type} (k : Nat) : List (Nat × α) → Option α
  | [] => none
  | e :: l => if e.1 = k then some e.2 else find k l

/-- The storage with a value put at a key, in its place. -/
def insert {α : Type} (k : Nat) (v : α) : List (Nat × α) → List (Nat × α)
  | [] => [(k, v)]
  | e :: l => if k < e.1 then (k, v) :: e :: l else if e.1 = k then (k, v) :: l else e :: insert k v l

/-- The storage without a key. -/
def erase {α : Type} (k : Nat) (m : List (Nat × α)) : List (Nat × α) := m.filter fun e => e.1 != k

end Store

/-! ### Writing one part of the state -/

/-- Writes `FAULT`. -/
def State.setFault (s : State) (v : BitVec 3) : State := { s with fault := v }

/-- Drives the result ports. -/
def State.setResponse (s : State) (r : Option Response) : State := { s with response := r }

/-- Writes the four framer registers (R32 to R34). -/
def State.setFramer (s : State) (mode : FrMode) (w h rem : Nat) : State :=
  { s with frMode := mode, frW := w, frH := h, frRem := rem }

/-- Moves the read position of `IN`. -/
def State.setInPos (s : State) (p : Nat) : State := { s with inPos := p }

/-- Writes `OUT`. -/
def State.setOut (s : State) (bs : List Byte) : State := { s with out := bs }

/-- Writes buffer memory. -/
def State.setGrids (s : State) (m : Memory) : State := { s with grids := m }

/-- Writes the next handle. -/
def State.setNextHandle (s : State) (g : Handle) : State := { s with nextHandle := g }

/-- Writes the host's pending actions. -/
def State.setHost (s : State) (l : List HostAction) : State := { s with host := l }

/-- Writes the counter of free values. -/
def State.setFreeCount (s : State) (n : Nat) : State := { s with freeCount := n }

/-! ### Answers -/

/-- Completes an operation and delivers its result, with the code in `FAULT` (R10, R283). -/
def deliver (r : Result) (s : State) : StepResult := .next (s.setResponse (some ⟨s.fault, some r⟩))

/-- Completes an operation whose format has no result port. -/
def complete (s : State) : StepResult := .next (s.setResponse (some ⟨s.fault, none⟩))

/-- `raise E`, taking a fault: `FAULT` gets the code if it was 0, no result is delivered, nothing else changes; the
block is then halted (R280). There is no handler, saved context or return (R280, R303). -/
def raise (e : ErrorKind) (s : State) : StepResult :=
  let code := if s.fault = 0#3 then e.code else s.fault
  .next ((s.setFault code).setResponse (some ⟨code, none⟩))

/-- The answer of a halted block: the code in `FAULT` and no result, no state changed (R283). -/
def answerHalted (s : State) : State := s.setResponse (some ⟨s.fault, none⟩)

/-- Issuing an operation: the halt comes before anything is evaluated (R283, R290 item 1). -/
def issue (s : State) (run : State → StepResult) : StepResult := if s.halted then .next (answerHalted s) else run s

/-- Completes an operation that computed its result or one of the five errors. -/
def finish (r : Except ErrorKind Result) (s : State) : StepResult :=
  match r with
  | .ok v => deliver v s
  | .error e => raise e s

/-- Completes an operation on values of `F`: where a value would not be finite the operation is refused (R15, D29). -/
def finishF (r : Option Result) (s : State) : StepResult :=
  match r with
  | some v => deliver v s
  | none => .refused .nonFinite

/-- An operation given a handle is refused unless the handle is live (R140). -/
def withLive (g : Handle) (s : State) (run : Grid → StepResult) : StepResult :=
  match Store.find g s.grids with
  | some d => run d
  | none => .refused (.deadHandle g)

/-! ### Streams (R17, R30, R31) -/

/-- The bytes of `IN` not yet taken. -/
def remaining (s : State) : List Byte := s.input.drop s.inPos

/-- `StreamGet(k)`: up to `k` bytes of `IN` from the read position, and the state with the position after them. -/
def streamGet (k : Nat) (s : State) : List Byte × State :=
  let bs := (remaining s).take k
  (bs, s.setInPos (s.inPos + bs.length))

/-- `StreamPut(bs)`: appends to `OUT`. -/
def streamPut (bs : List Byte) (s : State) : State := s.setOut (s.out ++ bs)

/-- `raise TruncatedStreamError` by an operation that was reading `IN`: `IN.pos` is then unspecified, "the bytes that
were available may or may not count as consumed" (R65), so a free value says how many of them do. -/
def raiseTruncated (s : State) : StepResult :=
  raise .truncatedStreamError
    ((s.setInPos (s.inPos + Config.truncatedTake s.freeCount % ((remaining s).length + 1))).setFreeCount (s.freeCount + 1))

/-! ### Reset (R43, R320, R321) -/

/-- The host asserts reset and supplies the input of the next run: every piece of state takes its value of R43, the
configuration stays. The host's later actions and the counter of free values are no state of the block. -/
def assertReset (s : State) (input : List Byte) : State :=
  ((State.resetWith s.cfg input).setHost s.host).setFreeCount s.freeCount

end Sys2Proof.Machine
end

