-- ==== Sys2Proof/Machine/BitField.lean ====
section
/-! DEFINITION. The BitField unit (40_bitfield.md). -/

namespace Sys2Proof.Machine

namespace BitField

/-- The parameter check (R110), made before anything else (R118): the sum does not wrap. -/
def checked {α : Type} (width lsb : Nat) (r : Except ErrorKind α) : Except ErrorKind α :=
  if 64 < width ∨ 64 < lsb ∨ 64 < width + lsb then .error .rangeError else r

/-- Does a `u64` fit in `width` bits (R112)? -/
def fitsUnsigned (value : Word) (width : Nat) : Bool := width == 64 || decide (value.toNat ≤ 2 ^ width - 1)

/-- Does an `i64` fit in `width` bits of two's complement (R113)? -/
def fitsSigned (value : Word) (width : Nat) : Bool :=
  if width = 0 then value.toInt == 0
  else if width = 64 then true
  else decide (-(2 ^ (width - 1) : Int) ≤ value.toInt) && decide (value.toInt ≤ 2 ^ (width - 1) - 1)

/-- The field of `width` bits at `lsb`, as an unsigned number (R114). -/
def fieldOf (word : Word) (width lsb : Nat) : Nat := (shr64 word lsb).toNat % 2 ^ width

/-- `getUnsigned` (R114). -/
def getUnsigned (word : Word) (width lsb : Nat) : Except ErrorKind Word :=
  checked width lsb (.ok (BitVec.ofNat 64 (fieldOf word width lsb)))

/-- `getSigned` (R115). -/
def getSigned (word : Word) (width lsb : Nat) : Except ErrorKind Word :=
  checked width lsb (.ok (if width = 0 then 0 else BitVec.ofInt 64 (sext (fieldOf word width lsb) width)))

/-- The word with a field replaced by a value that fits it (R116). -/
def insertField (word : Word) (width lsb : Nat) (value : Word) : Word :=
  if width = 0 then word
  else if width = 64 then value
  else (word &&& ~~~(shl64 (mask width) lsb)) ||| shl64 value lsb

/-- `setUnsigned` (R116). -/
def setUnsigned (word : Word) (width lsb : Nat) (value : Word) : Except ErrorKind Word :=
  checked width lsb (if fitsUnsigned value width then .ok (insertField word width lsb value) else .error .overflowError)

/-- `setSigned`: the value is reduced to its `width`-bit pattern and given to the unsigned setter (R117). -/
def setSigned (word : Word) (width lsb : Nat) (value : Word) : Except ErrorKind Word :=
  checked width lsb
    (if fitsSigned value width then setUnsigned word width lsb (BitVec.ofNat 64 (tc value.toInt width))
    else .error .overflowError)

end BitField

/-- `BF.FITSU` (R112, R119). -/
def execBfFitsu (value : Word) (width : Nat) (s : State) : StepResult :=
  issue s fun s => finish (BitField.checked width 0 (.ok (.fits (BitField.fitsUnsigned value width)))) s

/-- `BF.FITSS` (R113, R119). -/
def execBfFitss (value : Word) (width : Nat) (s : State) : StepResult :=
  issue s fun s => finish (BitField.checked width 0 (.ok (.fits (BitField.fitsSigned value width)))) s

/-- `BF.GETU` (R114). -/
def execBfGetu (word : Word) (width lsb : Nat) (s : State) : StepResult :=
  issue s fun s => finish ((BitField.getUnsigned word width lsb).map .value) s

/-- `BF.GETS` (R115). -/
def execBfGets (word : Word) (width lsb : Nat) (s : State) : StepResult :=
  issue s fun s => finish ((BitField.getSigned word width lsb).map .value) s

/-- `BF.NEWU` (R116). -/
def execBfNewu (word : Word) (width lsb : Nat) (value : Word) (s : State) : StepResult :=
  issue s fun s => finish ((BitField.setUnsigned word width lsb value).map .word) s

/-- `BF.NEWS` (R117). -/
def execBfNews (word : Word) (width lsb : Nat) (value : Word) (s : State) : StepResult :=
  issue s fun s => finish ((BitField.setSigned word width lsb value).map .word) s

end Sys2Proof.Machine
end

