-- ==== Sys2Proof/Machine/BlockTransform.lean ====
section
/-! DEFINITION. The BlockTransform unit (43_blocktransform.md). Pixels 1 to 4 are top-left, top-right, bottom-left,
bottom-right (rule R181). -/

namespace Sys2Proof.Machine

namespace BlockTransform

/-- `(((t1 + t2) + t3) + t4) / 4` (R180). -/
def mean4 (num : NumFormat) (t1 t2 t3 t4 : FVal) : Option FVal := do
  fdiv num (← fadd num (← fadd num (← fadd num t1 t2) t3) t4) 4

/-- The forward transform (R180), every sum in the printed order. -/
def forward (num : NumFormat) (p1 p2 p3 p4 : ColorPixel) : Option BlockCoefficients := do
  let a ← mean4 num p1.y p2.y p3.y p4.y
  let b ← fdiv num (← fsub num (← fsub num (← fadd num p4.y p3.y) p2.y) p1.y) 4
  let c ← fdiv num (← fsub num (← fadd num (← fsub num p4.y p3.y) p2.y) p1.y) 4
  let d ← fdiv num (← fadd num (← fsub num (← fsub num p4.y p3.y) p2.y) p1.y) 4
  let pbAvg ← mean4 num p1.pb p2.pb p3.pb p4.pb
  let prAvg ← mean4 num p1.pr p2.pr p3.pr p4.pr
  return ⟨a, b, c, d, pbAvg, prAvg⟩

/-- The four lumas of the inverse transform, in pixel order (R184). -/
def lumas (num : NumFormat) (co : BlockCoefficients) : Option (FVal × FVal × FVal × FVal) := do
  let y1 ← fadd num (← fsub num (← fsub num co.a co.b) co.c) co.d
  let y2 ← fsub num (← fadd num (← fsub num co.a co.b) co.c) co.d
  let y3 ← fsub num (← fsub num (← fadd num co.a co.b) co.c) co.d
  let y4 ← fadd num (← fadd num (← fadd num co.a co.b) co.c) co.d
  return (y1, y2, y3, y4)

/-- The inverse transform: the chroma average goes to all four pixels, and nothing is clamped (R184, R186). -/
def inverse (num : NumFormat) (co : BlockCoefficients) : Option (ColorPixel × ColorPixel × ColorPixel × ColorPixel) := do
  let (y1, y2, y3, y4) ← lumas num co
  return (⟨y1, co.pbAvg, co.prAvg⟩, ⟨y2, co.pbAvg, co.prAvg⟩, ⟨y3, co.pbAvg, co.prAvg⟩, ⟨y4, co.pbAvg, co.prAvg⟩)

end BlockTransform

/-- `BT.FWD` (R180). -/
def execBtFwd (p1 p2 p3 p4 : ColorPixel) (s : State) : StepResult :=
  issue s fun s => finishF ((BlockTransform.forward s.cfg.num p1 p2 p3 p4).map .coeffs) s

/-- `BT.INV` (R184). -/
def execBtInv (co : BlockCoefficients) (s : State) : StepResult :=
  issue s fun s => finishF ((BlockTransform.inverse s.cfg.num co).map fun p => .block p.1 p.2.1 p.2.2.1 p.2.2.2) s

end Sys2Proof.Machine
end

