-- ==== Sys2Proof/Machine/Codec.lean ====
section
/-! DEFINITION. The CodewordCodec unit (45_codeword_framer.md section 1; the layout is 30_encoding.md rule R82). -/

namespace Sys2Proof.Machine

namespace Codec

open BitField

/-- The codeword of a quantized block: six insertions in the order of the layout, each with its overflow check
(R220, R221, R222). -/
def pack (q : QuantizedBlock) : Except ErrorKind Word := do
  let w ← setUnsigned 0 9 23 q.a
  let w ← setSigned w 5 18 q.b
  let w ← setSigned w 5 13 q.c
  let w ← setSigned w 5 8 q.d
  let w ← setUnsigned w 4 4 q.indexPb
  setUnsigned w 4 0 q.indexPr

/-- The four bytes of a codeword, most significant first (R58, R84). -/
def toBytes (w : Word) : List Byte :=
  [w.extractLsb' 24 8, w.extractLsb' 16 8, w.extractLsb' 8 8, w.extractLsb' 0 8]

/-- `encode`: the codeword and its bytes (R220). -/
def encode (q : QuantizedBlock) : Except ErrorKind (Word × List Byte) := (pack q).map fun w => (w, toBytes w)

/-- The 32-bit word of four bytes, most significant first (R58, R224). -/
def ofBytes (b0 b1 b2 b3 : Byte) : Word :=
  BitVec.ofNat 64 (b0.toNat * 2 ^ 24 + b1.toNat * 2 ^ 16 + b2.toNat * 2 ^ 8 + b3.toNat)

/-- The six fields of a codeword, by the getters at the same widths and offsets (R224). -/
def unpack (w : Word) : Except ErrorKind QuantizedBlock := do
  let a ← getUnsigned w 9 23
  let b ← getSigned w 5 18
  let c ← getSigned w 5 13
  let d ← getSigned w 5 8
  let indexPb ← getUnsigned w 4 4
  let indexPr ← getUnsigned w 4 0
  return { a := a, b := b, c := c, d := d, indexPb := indexPb, indexPr := indexPr }

/-- `decode`: fewer than four bytes are a truncated stream, and no data is guessed (R224, R225). -/
def decode : List Byte → Except ErrorKind QuantizedBlock
  | b0 :: b1 :: b2 :: b3 :: _ => unpack (ofBytes b0 b1 b2 b3)
  | _ => .error .truncatedStreamError

end Codec

/-- `CW.ENC` (R220). -/
def execCwEnc (q : QuantizedBlock) (s : State) : StepResult :=
  issue s fun s => finish ((Codec.encode q).map fun r => .codeword r.1 r.2) s

/-- `CW.DEC` (R224). -/
def execCwDec (bytes : List Byte) (s : State) : StepResult :=
  issue s fun s => finish ((Codec.decode bytes).map .quantized) s

end Sys2Proof.Machine
end

