-- ==== Sys2Proof/Machine/ColorSpace.lean ====
section
/-! DEFINITION. The ColorSpaceTransform unit (42_colorspace.md). D0's literals stand as D0 prints them. -/

namespace Sys2Proof.Machine

namespace ColorSpace

/-- Every channel within the denominator, and the denominator not zero (R164). -/
def pixelInRange (px : Pixel) (denominator : Nat) : Bool :=
  decide (denominator ≠ 0) && decide (px.red ≤ denominator) && decide (px.green ≤ denominator) &&
    decide (px.blue ≤ denominator)

/-- One linear form of three terms in the printed order, `(k1 * x1 + k2 * x2) + k3 * x3`. -/
def sum3 (num : NumFormat) (k1 x1 k2 x2 k3 x3 : FVal) : Option FVal := do
  let t1 ← fmul num (← lit num k1) x1
  let t2 ← fmul num (← lit num k2) x2
  let t3 ← fmul num (← lit num k3) x3
  fadd num (← fadd num t1 t2) t3

/-- One linear form of three terms in the printed order, `(k1 * x1 - k2 * x2) - k3 * x3`. -/
def diff3 (num : NumFormat) (k1 x1 k2 x2 k3 x3 : FVal) : Option FVal := do
  let t1 ← fmul num (← lit num k1) x1
  let t2 ← fmul num (← lit num k2) x2
  let t3 ← fmul num (← lit num k3) x3
  fsub num (← fsub num t1 t2) t3

/-- The forward transform (R160), one rounding per operator. -/
def forward (num : NumFormat) (px : Pixel) (denominator : Nat) : Option ColorPixel := do
  let den ← i2f num denominator
  let r ← fdiv num (← i2f num px.red) den
  let g ← fdiv num (← i2f num px.green) den
  let b ← fdiv num (← i2f num px.blue) den
  let y ← sum3 num 0.299 r 0.587 g 0.114 b
  let pb ← diff3 num 0.5 b 0.168736 r 0.331264 g
  let pr ← diff3 num 0.5 r 0.418688 g 0.081312 b
  return ⟨y, pb, pr⟩

/-- A channel of the inverse: clamped, then scaled, then rounded (R162). -/
def channel (num : NumFormat) (x den : FVal) : Option Nat := do
  return (roundHaz (← fmul num (clamp x 0 1) den)).toNat

/-- The inverse transform (R162), one rounding per operator. -/
def inverse (num : NumFormat) (cp : ColorPixel) (denominator : Nat) : Option Pixel := do
  let r ← fadd num cp.y (← fmul num (← lit num 1.402) cp.pr)
  let g1 ← fsub num cp.y (← fmul num (← lit num 0.344136) cp.pb)
  let g ← fsub num g1 (← fmul num (← lit num 0.714136) cp.pr)
  let b ← fadd num cp.y (← fmul num (← lit num 1.772) cp.pb)
  let den ← i2f num denominator
  return ⟨← channel num r den, ← channel num g den, ← channel num b den⟩

end ColorSpace

/-- `CSC.FWD` (R160, R164). -/
def execCscFwd (px : Pixel) (denominator : Nat) (s : State) : StepResult :=
  issue s fun s =>
    if ColorSpace.pixelInRange px denominator then finishF ((ColorSpace.forward s.cfg.num px denominator).map .color) s
    else .refused .pixelOutsideRange

/-- `CSC.INV` (R162). -/
def execCscInv (cp : ColorPixel) (denominator : Nat) (s : State) : StepResult :=
  issue s fun s =>
    if denominator = 0 then .refused .zeroDenominator
    else finishF ((ColorSpace.inverse s.cfg.num cp denominator).map .pixel) s

end Sys2Proof.Machine
end

