-- ==== Sys2Proof/Machine/Framer.lean ====
section
/-! DEFINITION. The stream framer (45_codeword_framer.md section 2) and the text of the header (30_encoding.md rules
R86 to R88). -/

namespace Sys2Proof.Machine

namespace Framer

/-! ### Writing the header -/

/-- `LINE1`: the 33 bytes of "COMP40 Compressed image format 2" and a newline (R86). -/
def line1 : List Byte :=
  [0x43#8, 0x4F#8, 0x4D#8, 0x50#8, 0x34#8, 0x30#8, 0x20#8] ++
  [0x43#8, 0x6F#8, 0x6D#8, 0x70#8, 0x72#8, 0x65#8, 0x73#8, 0x73#8, 0x65#8, 0x64#8, 0x20#8] ++
  [0x69#8, 0x6D#8, 0x61#8, 0x67#8, 0x65#8, 0x20#8] ++
  [0x66#8, 0x6F#8, 0x72#8, 0x6D#8, 0x61#8, 0x74#8, 0x20#8, 0x32#8, 0x0A#8]

/-- The space between the numerals (R86). -/
def space : Byte := 0x20#8

/-- The newline that ends the header (R86). -/
def newline : Byte := 0x0A#8

/-- The ASCII byte of a decimal digit (R87). -/
def digit (d : Nat) : Byte := BitVec.ofNat 8 (0x30 + d)

/-- The decimal digits of a number put before a list of bytes; the first argument bounds how many. -/
def decInto : Nat → Nat → List Byte → List Byte
  | 0, n, tail => digit (n % 10) :: tail
  | k + 1, n, tail => if n < 10 then digit n :: tail else decInto k (n / 10) (digit (n % 10) :: tail)

/-- `dec(n)`: the shortest decimal numeral of `n` (R87). A number has no more decimal than binary digits. -/
def dec (n : Nat) : List Byte := decInto n.log2 n []

/-- The header for the given dimensions (R86, R230). -/
def header (width height : Nat) : List Byte := line1 ++ dec width ++ [space] ++ dec height ++ [newline]

/-! ### Reading the header (R88) -/

/-- What scanning part of the header comes to: a value and the bytes after it, or the first event that departs from
the grammar. -/
inductive Scan (α : Type) where
  | ok (a : α) (rest : List Byte)
  | truncated
  | format
  | refused (r : Refusal)
  deriving DecidableEq, Repr

/-- Goes on with what follows, where nothing departed from the grammar. -/
def Scan.andThen {α β : Type} (x : Scan α) (f : α → List Byte → Scan β) : Scan β :=
  match x with
  | .ok a rest => f a rest
  | .truncated => .truncated
  | .format => .format
  | .refused r => .refused r

/-- Scans a fixed text. -/
def scanText : List Byte → List Byte → Scan Unit
  | [], rest => .ok () rest
  | _ :: _, [] => .truncated
  | t :: ts, b :: bs => if b = t then scanText ts bs else .format

/-- The value of a byte that is a decimal digit. -/
def digitValue (b : Byte) : Option Nat := if 0x30 ≤ b.toNat ∧ b.toNat ≤ 0x39 then some (b.toNat - 0x30) else none

/-- The ending byte of a numeral has been taken and found right: now its value is tested (R88). -/
def closeNumeral (bound n : Nat) (rest : List Byte) : Scan Nat := if n < bound then .ok n rest else .refused .numeralTooWide

/-- Scans the digits after a numeral's first, not zero, and the byte that ends it. -/
def scanDigits (ending : Byte) (bound : Nat) : Nat → List Byte → Scan Nat
  | _, [] => .truncated
  | n, b :: bs =>
    match digitValue b with
    | some d => scanDigits ending bound (n * 10 + d) bs
    | none => if b = ending then closeNumeral bound n bs else .format

/-- Scans what follows a leading zero: another digit is a leading zero (R88, decision D13). -/
def scanZero (ending : Byte) (bound : Nat) : List Byte → Scan Nat
  | [] => .truncated
  | b :: bs =>
    match digitValue b with
    | some _ => .refused .leadingZero
    | none => if b = ending then closeNumeral bound 0 bs else .format

/-- Scans a numeral and the byte that ends it. -/
def scanNumeral (ending : Byte) (bound : Nat) : List Byte → Scan Nat
  | [] => .truncated
  | b :: bs =>
    match digitValue b with
    | some 0 => scanZero ending bound bs
    | some d => scanDigits ending bound d bs
    | none => .format

/-- The reader of the header: exactly the writer's language; an odd dimension is refused once both numerals are read
(R88). -/
def scanHeader (bound : Nat) (input : List Byte) : Scan (Nat × Nat) :=
  (scanText line1 input).andThen fun _ rest =>
    (scanNumeral space bound rest).andThen fun w rest =>
      (scanNumeral newline bound rest).andThen fun h rest =>
        if w % 2 = 1 ∨ h % 2 = 1 then .refused .oddDimension else .ok (w, h) rest

/-! ### The registers -/

/-- The number of codewords of a body (R34, R89). -/
def blockCount (width height : Nat) : Nat := width / 2 * (height / 2)

/-- The registers after the header (R242). -/
def startBody (running : FrMode) (width height : Nat) (s : State) : State :=
  s.setFramer (modeAfter running (blockCount width height)) width height (blockCount width height)

/-- The registers after one codeword (R242). -/
def countCodeword (running : FrMode) (s : State) : State :=
  s.setFramer (modeAfter running (s.frRem - 1)) s.frW s.frH (s.frRem - 1)

/-- An operation of the framer is refused unless it is issued in its mode (R228, R242). -/
def inMode (mode : FrMode) (s : State) (run : StepResult) : StepResult :=
  if s.frMode = mode then run else .refused (.wrongFramerMode s.frMode)

end Framer

open Framer

/-- `FR.HDRW` (R230, R231). -/
def execFrHdrw (width height : Nat) (s : State) : StepResult :=
  issue s fun s => inMode .idle s <|
    if width % 2 = 1 ∨ height % 2 = 1 then .refused .oddDimension
    else complete (startBody .tx width height (streamPut (header width height) s))

/-- `FR.PUT` (R233): on an overflow nothing is appended. -/
def execFrPut (q : QuantizedBlock) (s : State) : StepResult :=
  issue s fun s => inMode .tx s <|
    match Codec.encode q with
    | .ok r => complete (countCodeword .tx (streamPut r.2 s))
    | .error e => raise e s

/-- `FR.HDRR` (R236). -/
def execFrHdrr (s : State) : StepResult :=
  issue s fun s => inMode .idle s <|
    match scanHeader (2 ^ s.cfg.dimBits) (remaining s) with
    | .ok d rest => deliver (.dims d.1 d.2) (startBody .rx d.1 d.2 (s.setInPos (s.input.length - rest.length)))
    | .truncated => raiseTruncated s
    | .format => raise .formatError s
    | .refused r => .refused r

/-- `FR.GET` (R239). -/
def execFrGet (s : State) : StepResult :=
  issue s fun s => inMode .rx s <|
    match Codec.decode (streamGet 4 s).1 with
    | .ok q => deliver (.quantized q) (countCodeword .rx (streamGet 4 s).2)
    | .error _ => raiseTruncated s

end Sys2Proof.Machine
end

