-- ==== Sys2Proof/Machine/Grid.lean ====
section
/-! DEFINITION. The BlockedGrid unit (41_blockedgrid.md) and the blocked layout (20_memory.md rules R54 to R56). -/

namespace Sys2Proof.Machine

namespace Grid

/-- Storage blocks across (R54). -/
def blocksWide (g : Grid) : Nat := ceilDiv g.width g.blockSize

/-- Storage blocks down (R54). -/
def blocksHigh (g : Grid) : Nat := ceilDiv g.height g.blockSize

/-- The number of slots, unused ones of edge blocks included (R36). -/
def nslots (g : Grid) : Nat := g.blocksWide * g.blocksHigh * g.blockSize * g.blockSize

/-- Is the position in bounds (R52, R144)? -/
def inBounds (g : Grid) (col row : Nat) : Bool := decide (col < g.width) && decide (row < g.height)

/-- The linear slot index of a position (R55, R56, decision D17). -/
def slotIndex (g : Grid) (col row : Nat) : Nat :=
  ((row / g.blockSize) * g.blocksWide + col / g.blockSize) * g.blockSize * g.blockSize +
    (row % g.blockSize) * g.blockSize + col % g.blockSize

/-- `MemRead`: the element in the slot of a position, none where nothing has written it (R37, R56). -/
def memRead (g : Grid) (col row : Nat) : Option Elem := Store.find (g.slotIndex col row) g.slots

/-- `MemWrite`: the grid with the slot of a position written (R56). -/
def memWrite (g : Grid) (col row : Nat) (e : Elem) : Grid := { g with slots := Store.insert (g.slotIndex col row) e g.slots }

/-- The valid positions of one storage block, in increasing slot number (R146, decision D17). -/
def blockPositions (g : Grid) (bc br : Nat) : List (Nat × Nat) :=
  (List.range g.blockSize).flatMap fun r =>
    ((List.range g.blockSize).map fun c => (bc * g.blockSize + c, br * g.blockSize + r)).filter fun p => g.inBounds p.1 p.2

/-- The block-major order: storage blocks in row-major order, each whole before the next (R146). -/
def traversal (g : Grid) : List (Nat × Nat) :=
  (List.range g.blocksHigh).flatMap fun br => (List.range g.blocksWide).flatMap fun bc => g.blockPositions bc br

/-- A grid is in canonical form: the written slots strictly rising and inside the store, the two sizes positive. -/
def wf (g : Grid) : Bool :=
  Store.rising g.slots && g.slots.all (fun x => decide (x.1 < g.nslots)) && decide (0 < g.blockSize) &&
    decide (0 < g.elementSize)

end Grid

/-- The default blocking factor: the largest with which one storage block takes at most 65536 bytes, at least 1
(R142). -/
def defaultBlocking (elementSize : Nat) : Nat := max 1 (isqrt (65536 / elementSize))

namespace Memory

/-- Buffer memory is in canonical form: handles strictly rising, each grid in canonical form. -/
def wf (m : Memory) : Bool := Store.rising m && m.all fun e => e.2.wf

end Memory

/-- A fresh live grid with the descriptor and every slot unwritten; its handle is delivered (R141). -/
def newGrid (width height elementSize blockSize : Nat) (s : State) : StepResult :=
  deliver (.grid s.nextHandle)
    ((s.setGrids (Store.insert s.nextHandle ⟨width, height, elementSize, blockSize, []⟩ s.grids)).setNextHandle
      (s.nextHandle + 1))

/-- A query of the descriptor of a live grid (R147, R152 to R154). -/
def queryGrid (g : Handle) (field : Grid → Nat) (s : State) : StepResult :=
  withLive g s fun d => deliver (.n (field d)) s

/-- `GRID.NEW` (R141). -/
def execGridNew (width height elementSize blockSize : Nat) (s : State) : StepResult :=
  issue s fun s =>
    if elementSize = 0 ∨ blockSize = 0 then raise .invalidArgument s else newGrid width height elementSize blockSize s

/-- `GRID.NEWDEF` (R142). -/
def execGridNewdef (width height elementSize : Nat) (s : State) : StepResult :=
  issue s fun s =>
    if elementSize = 0 then raise .invalidArgument s
    else newGrid width height elementSize (defaultBlocking elementSize) s

/-- `GRID.AT.RD` (R144): liveness, then bounds, then the unwritten slot (R290 items 2 and 6). -/
def execGridAtRd (g : Handle) (col row : Nat) (s : State) : StepResult :=
  issue s fun s => withLive g s fun d =>
    if d.inBounds col row then
      match d.memRead col row with
      | some e => deliver (.elem e) s
      | none => .refused .unwrittenSlot
    else raise .rangeError s

/-- `GRID.AT.WR` (R145). -/
def execGridAtWr (g : Handle) (col row : Nat) (elem : Elem) (s : State) : StepResult :=
  issue s fun s => withLive g s fun d =>
    if d.inBounds col row then deliver (.grid g) (s.setGrids (Store.insert g (d.memWrite col row elem) s.grids))
    else raise .rangeError s

/-- `GRID.FOREACH` (R146): the visitor is the host's, the order is delivered. -/
def execGridForeach (g : Handle) (s : State) : StepResult :=
  issue s fun s => withLive g s fun d => deliver (.seq d.traversal) s

/-- `GRID.WIDTH` (R147). -/
def execGridWidth (g : Handle) (s : State) : StepResult := issue s (queryGrid g Grid.width)

/-- `GRID.HEIGHT` (R152). -/
def execGridHeight (g : Handle) (s : State) : StepResult := issue s (queryGrid g Grid.height)

/-- `GRID.ESIZE` (R153). -/
def execGridEsize (g : Handle) (s : State) : StepResult := issue s (queryGrid g Grid.elementSize)

/-- `GRID.BSIZE` (R154). -/
def execGridBsize (g : Handle) (s : State) : StepResult := issue s (queryGrid g Grid.blockSize)

/-- `GRID.FREE` (R148). -/
def execGridFree (g : Handle) (s : State) : StepResult :=
  issue s fun s => withLive g s fun _ => complete (s.setGrids (Store.erase g s.grids))

end Sys2Proof.Machine
end

