-- ==== Sys2Proof/Machine/Quantizer.lean ====
section
/-! DEFINITION. The Quantizer unit (44_quantizer.md). -/

namespace Sys2Proof.Machine

namespace Quantizer

/-- `A_SCALE` (R202). -/
def aScale : Int := 511

/-- `BCD_SCALE` (R202). -/
def bcdScale : Int := 50

/-- `BCD_CLAMP`, the literal 0.3 (R202). -/
def bcdClamp (num : NumFormat) : Option FVal := lit num 0.3

/-- `round_haz(clamp(a, 0, 1) * I2F(511))` (R200). -/
def quantA (num : NumFormat) (a : FVal) : Option Int := do
  return roundHaz (← fmul num (clamp a 0 1) (← i2f num aScale))

/-- `round_haz(clamp(x, -lit(0.3), lit(0.3)) * I2F(50))`, for `b`, `c` and `d` (R200). -/
def quantBcd (num : NumFormat) (x : FVal) : Option Int := do
  let bound ← bcdClamp num
  return roundHaz (← fmul num (clamp x (-bound) bound) (← i2f num bcdScale))

/-- The quantizer (R200), for a chroma function `c2i`. -/
def quantize (num : NumFormat) (c2i : FVal → Fin 16) (co : BlockCoefficients) : Option QuantizedBlock := do
  let a ← quantA num co.a
  let b ← quantBcd num co.b
  let c ← quantBcd num co.c
  let d ← quantBcd num co.d
  return { a := BitVec.ofInt 64 a, b := BitVec.ofInt 64 b, c := BitVec.ofInt 64 c, d := BitVec.ofInt 64 d,
           indexPb := BitVec.ofNat 64 (c2i co.pbAvg), indexPr := BitVec.ofNat 64 (c2i co.prAvg) }

/-- `clamp(I2F(a') / I2F(511), 0, 1)` (R205). -/
def dequantA (num : NumFormat) (a : Word) : Option FVal := do
  return clamp (← fdiv num (← i2f num a.toNat) (← i2f num aScale)) 0 1

/-- `I2F(x) / I2F(50)`, for `b`, `c` and `d`, not clamped (R205, decision D16). -/
def dequantBcd (num : NumFormat) (x : Word) : Option FVal := do
  fdiv num (← i2f num x.toInt) (← i2f num bcdScale)

/-- The dequantizer (R205), for a chroma function `i2c` and the two indices, already known to be in its domain. -/
def dequantize (num : NumFormat) (i2c : Fin 16 → FVal) (q : QuantizedBlock) (pb pr : Fin 16) : Option BlockCoefficients := do
  let a ← dequantA num q.a
  let b ← dequantBcd num q.b
  let c ← dequantBcd num q.c
  let d ← dequantBcd num q.d
  return ⟨a, b, c, d, i2c pb, i2c pr⟩

end Quantizer

/-- `Q.QUANT` (R200). -/
def execQQuant (co : BlockCoefficients) (s : State) : StepResult :=
  issue s fun s => finishF ((Quantizer.quantize s.cfg.num s.cfg.c2i co).map .quantized) s

/-- `Q.DEQUANT` (R205): an index above 15 is outside the domain of `I2C`, hence refused. -/
def execQDequant (q : QuantizedBlock) (s : State) : StepResult :=
  issue s fun s =>
    if hb : q.indexPb.toNat < 16 then
      if hr : q.indexPr.toNat < 16 then
        finishF ((Quantizer.dequantize s.cfg.num (indexToChroma s.cfg) q ⟨_, hb⟩ ⟨_, hr⟩).map .coeffs) s
      else .refused .indexOutsideDomain
    else .refused .indexOutsideDomain

end Sys2Proof.Machine
end

