-- ==== Sys2Proof/Machine/Dispatch.lean ====
section
/-! DEFINITION. exec: one arm per operation of the table of rule R100, each a call of its meaning. -/

namespace Sys2Proof.Machine

def exec (i : Instr) (s : State) : Host.Outcome State Fault Refusal :=
  match i with
  | .bfFitsu value width => Sys2Proof.Machine.execBfFitsu value width s
  | .bfFitss value width => Sys2Proof.Machine.execBfFitss value width s
  | .bfGetu word width lsb => Sys2Proof.Machine.execBfGetu word width lsb s
  | .bfGets word width lsb => Sys2Proof.Machine.execBfGets word width lsb s
  | .bfNewu word width lsb value => Sys2Proof.Machine.execBfNewu word width lsb value s
  | .bfNews word width lsb value => Sys2Proof.Machine.execBfNews word width lsb value s
  | .gridNew width height elementSize blockSize => Sys2Proof.Machine.execGridNew width height elementSize blockSize s
  | .gridNewdef width height elementSize => Sys2Proof.Machine.execGridNewdef width height elementSize s
  | .gridAtRd g col row => Sys2Proof.Machine.execGridAtRd g col row s
  | .gridAtWr g col row elem => Sys2Proof.Machine.execGridAtWr g col row elem s
  | .gridForeach g => Sys2Proof.Machine.execGridForeach g s
  | .gridWidth g => Sys2Proof.Machine.execGridWidth g s
  | .gridHeight g => Sys2Proof.Machine.execGridHeight g s
  | .gridEsize g => Sys2Proof.Machine.execGridEsize g s
  | .gridBsize g => Sys2Proof.Machine.execGridBsize g s
  | .gridFree g => Sys2Proof.Machine.execGridFree g s
  | .cscFwd px denominator => Sys2Proof.Machine.execCscFwd px denominator s
  | .cscInv cp denominator => Sys2Proof.Machine.execCscInv cp denominator s
  | .btFwd p1 p2 p3 p4 => Sys2Proof.Machine.execBtFwd p1 p2 p3 p4 s
  | .btInv co => Sys2Proof.Machine.execBtInv co s
  | .qQuant co => Sys2Proof.Machine.execQQuant co s
  | .qDequant q => Sys2Proof.Machine.execQDequant q s
  | .cwEnc q => Sys2Proof.Machine.execCwEnc q s
  | .cwDec bytes => Sys2Proof.Machine.execCwDec bytes s
  | .frHdrw width height => Sys2Proof.Machine.execFrHdrw width height s
  | .frPut q => Sys2Proof.Machine.execFrPut q s
  | .frHdrr => Sys2Proof.Machine.execFrHdrr s
  | .frGet => Sys2Proof.Machine.execFrGet s

end Sys2Proof.Machine
end

