-- ==== Sys2Proof/WellFormed.lean ====
section
/-! DEFINITION. Which instructions can be presented: every operand is a value of its port's type (rules R96, R97,
R102). -/

namespace Sys2Proof

open Machine

/-- Every operand is in its port's type (R96): "an operand outside its port's type … cannot be presented" (R102). The
64-bit ports and the handle port carry every value. -/
def Instr.wf (cfg : Config) : Instr → Bool
  | .bfFitsu _ width => presentsArg cfg width
  | .bfFitss _ width => presentsArg cfg width
  | .bfGetu _ width lsb => presentsArg cfg width && presentsArg cfg lsb
  | .bfGets _ width lsb => presentsArg cfg width && presentsArg cfg lsb
  | .bfNewu _ width lsb _ => presentsArg cfg width && presentsArg cfg lsb
  | .bfNews _ width lsb _ => presentsArg cfg width && presentsArg cfg lsb
  | .gridNew width height elementSize blockSize =>
    presentsArg cfg width && presentsArg cfg height && presentsArg cfg elementSize && presentsArg cfg blockSize
  | .gridNewdef width height elementSize => presentsArg cfg width && presentsArg cfg height && presentsArg cfg elementSize
  | .gridAtRd _ col row => presentsArg cfg col && presentsArg cfg row
  | .gridAtWr _ col row elem => presentsArg cfg col && presentsArg cfg row && presentsElem cfg elem
  | .gridForeach _ => true
  | .gridWidth _ => true
  | .gridHeight _ => true
  | .gridEsize _ => true
  | .gridBsize _ => true
  | .gridFree _ => true
  | .cscFwd px denominator => presentsPixel cfg px && presentsChan cfg denominator
  | .cscInv cp denominator => presentsColor cfg cp && presentsChan cfg denominator
  | .btFwd p1 p2 p3 p4 => presentsColor cfg p1 && presentsColor cfg p2 && presentsColor cfg p3 && presentsColor cfg p4
  | .btInv co => presentsCoeffs cfg co
  | .qQuant co => presentsCoeffs cfg co
  | .qDequant _ => true
  | .cwEnc _ => true
  | .cwDec bytes => decide (bytes.length ≤ 4)
  | .frHdrw width height => presentsDim cfg width && presentsDim cfg height
  | .frPut _ => true
  | .frHdrr => true
  | .frGet => true

end Sys2Proof
end

