-- ==== Sys2Proof/Decode.lean ====
section
/-! DEFINITION. The encoding of operations (30_encoding.md Part B): the operation-select codes, the decoder from a
command to an instruction, and the encoder back. -/

namespace Sys2Proof

/-- Why a command has no instruction: its `OP` is reserved (R101). -/
inductive DecodeError where
  | reservedOp (op : BitVec 8)
  deriving DecidableEq, Repr

/-- One row of the table of R100: the value of `OP` and the operation it selects. Every row's mask is 0xFF. -/
structure OpRow where
  code : BitVec 8
  op : Op
  deriving DecidableEq, Repr

/-- The rows of BitField (R100). -/
def bitFieldRows : List OpRow :=
  [⟨0x00#8, .bfFitsu⟩, ⟨0x01#8, .bfFitss⟩, ⟨0x02#8, .bfGetu⟩, ⟨0x03#8, .bfGets⟩, ⟨0x04#8, .bfNewu⟩,
    ⟨0x05#8, .bfNews⟩]

/-- The rows of BlockedGrid (R100). -/
def gridRows : List OpRow :=
  [⟨0x10#8, .gridNew⟩, ⟨0x11#8, .gridNewdef⟩, ⟨0x12#8, .gridAtRd⟩, ⟨0x13#8, .gridAtWr⟩, ⟨0x14#8, .gridForeach⟩,
    ⟨0x15#8, .gridWidth⟩, ⟨0x16#8, .gridHeight⟩, ⟨0x17#8, .gridEsize⟩, ⟨0x18#8, .gridBsize⟩, ⟨0x19#8, .gridFree⟩]

/-- The rows of ColorSpaceTransform, BlockTransform and Quantizer (R100). -/
def transformRows : List OpRow :=
  [⟨0x20#8, .cscFwd⟩, ⟨0x21#8, .cscInv⟩, ⟨0x30#8, .btFwd⟩, ⟨0x31#8, .btInv⟩, ⟨0x40#8, .qQuant⟩,
    ⟨0x41#8, .qDequant⟩]

/-- The rows of CodewordCodec and framer (R100). -/
def codewordRows : List OpRow :=
  [⟨0x50#8, .cwEnc⟩, ⟨0x51#8, .cwDec⟩, ⟨0x60#8, .frHdrw⟩, ⟨0x61#8, .frPut⟩, ⟨0x62#8, .frHdrr⟩,
    ⟨0x63#8, .frGet⟩]

/-- The table of R100. -/
def opcodeTable : List OpRow := bitFieldRows ++ gridRows ++ transformRows ++ codewordRows

/-- The operation a code selects; none for the 228 reserved codes (R100, R101). -/
def opOfCode (code : BitVec 8) : Option Op := (opcodeTable.find? fun row => row.code == code).map OpRow.op

/-- The operands of an operation, each from the port its format names (R96). No operand is assembled, scaled or
shifted (R97). -/
def readPorts (p : Ports) : Op → Instr
  | .bfFitsu => .bfFitsu p.value p.width
  | .bfFitss => .bfFitss p.value p.width
  | .bfGetu => .bfGetu p.word p.width p.lsb
  | .bfGets => .bfGets p.word p.width p.lsb
  | .bfNewu => .bfNewu p.word p.width p.lsb p.value
  | .bfNews => .bfNews p.word p.width p.lsb p.value
  | .gridNew => .gridNew p.width p.height p.elementSize p.blockSize
  | .gridNewdef => .gridNewdef p.width p.height p.elementSize
  | .gridAtRd => .gridAtRd p.g p.col p.row
  | .gridAtWr => .gridAtWr p.g p.col p.row p.elem
  | .gridForeach => .gridForeach p.g
  | .gridWidth => .gridWidth p.g
  | .gridHeight => .gridHeight p.g
  | .gridEsize => .gridEsize p.g
  | .gridBsize => .gridBsize p.g
  | .gridFree => .gridFree p.g
  | .cscFwd => .cscFwd p.px p.denominator
  | .cscInv => .cscInv p.cp p.denominator
  | .btFwd => .btFwd p.p1 p.p2 p.p3 p.p4
  | .btInv => .btInv p.co
  | .qQuant => .qQuant p.co
  | .qDequant => .qDequant p.q
  | .cwEnc => .cwEnc p.q
  | .cwDec => .cwDec p.bytes
  | .frHdrw => .frHdrw p.width p.height
  | .frPut => .frPut p.q
  | .frHdrr => .frHdrr
  | .frGet => .frGet

/-- The decoder: total on commands, rejecting a reserved code by name (R101). -/
def decode (c : Command) : Except DecodeError Instr :=
  match opOfCode c.op with
  | some op => .ok (readPorts c.ports op)
  | none => .error (.reservedOp c.op)

/-! ### The encoder -/

/-- The code of an operation: unit in bits [7:4], function in bits [3:0] (R95, R100). -/
def codeOfOp : Op → BitVec 8
  | .bfFitsu => 0x00#8
  | .bfFitss => 0x01#8
  | .bfGetu => 0x02#8
  | .bfGets => 0x03#8
  | .bfNewu => 0x04#8
  | .bfNews => 0x05#8
  | .gridNew => 0x10#8
  | .gridNewdef => 0x11#8
  | .gridAtRd => 0x12#8
  | .gridAtWr => 0x13#8
  | .gridForeach => 0x14#8
  | .gridWidth => 0x15#8
  | .gridHeight => 0x16#8
  | .gridEsize => 0x17#8
  | .gridBsize => 0x18#8
  | .gridFree => 0x19#8
  | .cscFwd => 0x20#8
  | .cscInv => 0x21#8
  | .btFwd => 0x30#8
  | .btInv => 0x31#8
  | .qQuant => 0x40#8
  | .qDequant => 0x41#8
  | .cwEnc => 0x50#8
  | .cwDec => 0x51#8
  | .frHdrw => 0x60#8
  | .frPut => 0x61#8
  | .frHdrr => 0x62#8
  | .frGet => 0x63#8

/-- The operands of an instruction on the ports of its format, every other port idle (R96). -/
def writePorts : Instr → Ports
  | .bfFitsu value width => { Ports.idle with value := value, width := width }
  | .bfFitss value width => { Ports.idle with value := value, width := width }
  | .bfGetu word width lsb => { Ports.idle with word := word, width := width, lsb := lsb }
  | .bfGets word width lsb => { Ports.idle with word := word, width := width, lsb := lsb }
  | .bfNewu word width lsb value => { Ports.idle with word := word, width := width, lsb := lsb, value := value }
  | .bfNews word width lsb value => { Ports.idle with word := word, width := width, lsb := lsb, value := value }
  | .gridNew width height elementSize blockSize =>
    { Ports.idle with width := width, height := height, elementSize := elementSize, blockSize := blockSize }
  | .gridNewdef width height elementSize => { Ports.idle with width := width, height := height, elementSize := elementSize }
  | .gridAtRd g col row => { Ports.idle with g := g, col := col, row := row }
  | .gridAtWr g col row elem => { Ports.idle with g := g, col := col, row := row, elem := elem }
  | .gridForeach g => { Ports.idle with g := g }
  | .gridWidth g => { Ports.idle with g := g }
  | .gridHeight g => { Ports.idle with g := g }
  | .gridEsize g => { Ports.idle with g := g }
  | .gridBsize g => { Ports.idle with g := g }
  | .gridFree g => { Ports.idle with g := g }
  | .cscFwd px denominator => { Ports.idle with px := px, denominator := denominator }
  | .cscInv cp denominator => { Ports.idle with cp := cp, denominator := denominator }
  | .btFwd p1 p2 p3 p4 => { Ports.idle with p1 := p1, p2 := p2, p3 := p3, p4 := p4 }
  | .btInv co => { Ports.idle with co := co }
  | .qQuant co => { Ports.idle with co := co }
  | .qDequant q => { Ports.idle with q := q }
  | .cwEnc q => { Ports.idle with q := q }
  | .cwDec bytes => { Ports.idle with bytes := bytes }
  | .frHdrw width height => { Ports.idle with width := width, height := height }
  | .frPut q => { Ports.idle with q := q }
  | .frHdrr => Ports.idle
  | .frGet => Ports.idle

/-- The encoder: the command that presents an instruction (R95). -/
def encode (i : Instr) : Command := { op := codeOfOp i.op, ports := writePorts i }

/-! ### The host's table words -/

/-- The command a word of the opcode table stands for: its one byte is the `OP`, and the operand ports, which the table
gives no bits, are idle. A word with bits above the byte stands for no command, since there is one command length and no
prefix (R95, R103). -/
def tableCommand (nbits w : Nat) : Option Command :=
  if w % 2 ^ nbits < 256 then some { op := BitVec.ofNat 8 (w % 2 ^ nbits), ports := Ports.idle } else none

/-- The instruction the decoder reads from a word of the opcode table. -/
def decodeTableWord (nbits w : Nat) : Option Instr :=
  match tableCommand nbits w with
  | some c => (decode c).toOption
  | none => none

end Sys2Proof
end

