-- ==== Sys2Proof/Machine/Fetch.lean ====
section
/-! DEFINITION. Taking the host's next action. The block fetches no instruction (rules R21, R51): the host presents one
command at a time (R10, R95), or asserts reset (R320). -/

namespace Sys2Proof.Machine

/-- What the host's next action comes to, before an instruction runs. -/
inductive Fetched where
  /-- The step is over. -/
  | over (s : State)
  /-- The action has no successor. -/
  | stop (r : Refusal)
  /-- An instruction is to be run. -/
  | run (i : Instr) (s : State)
  deriving DecidableEq, Repr

/-- A command is presented: its code must be in the table (R101) and its operands must be in their ports' types (R102);
else it is refused, by a halted block too, whose answer is for operations that are issued (R283; log entry 11). -/
def present (c : Command) (s : State) : Fetched :=
  match decode c with
  | .ok i => if i.wf s.cfg then .run i s else .stop .notPresentable
  | .error (.reservedOp op) => .stop (.reservedOp op)

/-- The host's next action is taken off its list. With none the block waits for the host's next command (R302), and its
result ports hold no value (R43). -/
def fetch (s : State) : Fetched :=
  match s.host with
  | [] => .over (s.setResponse none)
  | .reset input :: rest => .over (assertReset (s.setHost rest) input)
  | .issue c :: rest => present c ((s.setHost rest).setResponse none)

/-- Puts a command before the host's other actions. -/
def pushCommand (s : State) (c : Command) : State := s.setHost (.issue c :: s.host)

end Sys2Proof.Machine
end

