-- ==== Sys2Proof/Machine/Step.lean ====
section
/-! DEFINITION. One step of the block: one action of the host (rules R10, R12). -/

namespace Sys2Proof.Machine

/-- One step: the host's next action is taken; a command that is an instruction is executed. -/
def step (s : State) : Host.Outcome State Fault Refusal :=
  match fetch s with
  | .over t => .next t
  | .stop r => .refused r
  | .run i t => exec i t

/-- The state in which the host's next action is the command of a word of the opcode table. -/
def State.withFetchWord (s : State) (nbits w : Nat) : State :=
  match tableCommand nbits w with
  | some c => pushCommand s c
  | none => s

end Sys2Proof.Machine
end

