-- ==== Sys2Proof/Machine/Pipeline.lean ====
section
/-! DEFINITION. The pseudo-operations (30_encoding.md rule R105, 46_pipeline.md): the sequences of operations a host
issues for the grid forms of the units, for `COMPRESS` and for `DECOMPRESS`. Each is a program of the host over `exec`. -/

namespace Sys2Proof.Machine

/-! ### A run of the host (R272) -/

/-- What a host's program has come to: a value and the state, a fault of the block (the run is aborted), or a refused
step (the spec says nothing of such a run). -/
inductive HostRun (α : Type) where
  | done (a : α) (s : State)
  | faulted (s : State)
  | refused (r : Refusal)

namespace HostRun

/-- Goes on with the value and the state, unless the run is over. -/
def andThen {α β : Type} (m : HostRun α) (k : α → State → HostRun β) : HostRun β :=
  match m with
  | .done a s => k a s
  | .faulted s => .faulted s
  | .refused r => .refused r

/-- Runs a program for each item of a list, in order, and collects the values. -/
def forEach {α β : Type} (f : α → State → HostRun β) : List α → State → HostRun (List β)
  | [], s => .done [] s
  | a :: l, s => (f a s).andThen fun b s => (forEach f l s).andThen fun bs s => .done (b :: bs) s

end HostRun

/-- The host issues one operation and takes its result from the result ports. An operation with an operand outside its
port's type cannot be presented (R102). -/
def call (i : Instr) (s : State) : HostRun (Option Result) :=
  if i.wf s.cfg then
    match exec i s with
    | .next t => if t.halted then .faulted t else .done (t.response.bind Response.result) t
    | .refused r => .refused r
  else .refused .notPresentable

/-- As `call`, for the value of one kind of result; a result of another kind cannot be presented where it is used. -/
def callFor {α : Type} (i : Instr) (kind : Result → Option α) (s : State) : HostRun α :=
  (call i s).andThen fun r s =>
    match r.bind kind with
    | some a => .done a s
    | none => .refused .notPresentable

/-! ### Containers of the host -/

/-- A plain grid: row-major, element `(col, row)` at `row * width + col` (R52, R57). -/
structure PlainGrid (α : Type) where
  width : Nat
  height : Nat
  cells : List α
  deriving DecidableEq, Repr

/-- The element of a plain grid at a position. -/
def PlainGrid.at? {α : Type} (g : PlainGrid α) (col row : Nat) : Option α := g.cells[row * g.width + col]?

/-- An image: its pixels as a plain grid, and its denominator (R23, R260). -/
structure Image where
  pixels : PlainGrid Pixel
  denominator : Nat
  deriving DecidableEq, Repr

/-- The positions of a plain grid in row-major order (R52, R89). -/
def rowMajor (width height : Nat) : List (Nat × Nat) :=
  (List.range height).flatMap fun row => (List.range width).map fun col => (col, row)

/-- Reads a cell of the host's own container; a cell that holds nothing is refused as an unwritten slot (R37). -/
def cell {α : Type} (g : PlainGrid α) (col row : Nat) (s : State) : HostRun α :=
  match g.at? col row with
  | some a => .done a s
  | none => .refused .unwrittenSlot

/-! ### The results the programs take -/

/-- The handle a `grid` port delivers. -/
def Result.grid? : Result → Option Handle
  | .grid g => some g
  | _ => none

/-- The positions a `seq` port delivers. -/
def Result.seq? : Result → Option (List (Nat × Nat))
  | .seq l => some l
  | _ => none

/-- The number an `n` port delivers. -/
def Result.n? : Result → Option Nat
  | .n k => some k
  | _ => none

/-- The color pixel a `cp` port or an `elem` port delivers. -/
def Result.color? : Result → Option ColorPixel
  | .color cp => some cp
  | .elem (.color cp) => some cp
  | _ => none

/-- The pixel a `px` port delivers. -/
def Result.pixel? : Result → Option Pixel
  | .pixel px => some px
  | _ => none

/-- The coefficients a `co` port delivers. -/
def Result.coeffs? : Result → Option BlockCoefficients
  | .coeffs co => some co
  | _ => none

/-- The four pixels `BT.INV` delivers. -/
def Result.block? : Result → Option (ColorPixel × ColorPixel × ColorPixel × ColorPixel)
  | .block p1 p2 p3 p4 => some (p1, p2, p3, p4)
  | _ => none

/-- The quantized block a `q` port delivers. -/
def Result.quantized? : Result → Option QuantizedBlock
  | .quantized q => some q
  | _ => none

/-- The dimensions `FR.HDRR` delivers. -/
def Result.dims? : Result → Option (Nat × Nat)
  | .dims w h => some (w, h)
  | _ => none

namespace Pipeline

open HostRun

/-! ### Grid forms of the units -/

/-- `CSC.FWD.GRID` (R161), in D0's own order of visits. -/
def cscFwdGrid (img : Image) (s : State) : HostRun Handle :=
  (callFor (.gridNewdef img.pixels.width img.pixels.height s.cfg.sizeofColorPixel) Result.grid? s).andThen fun cg s =>
    (callFor (.gridForeach cg) Result.seq? s).andThen fun order s =>
      (forEach (fun (p : Nat × Nat) s =>
        (cell img.pixels p.1 p.2 s).andThen fun px s =>
          (callFor (.cscFwd px img.denominator) Result.color? s).andThen fun cp s =>
            call (.gridAtWr cg p.1 p.2 (.color cp)) s) order s).andThen fun _ s => .done cg s

/-- `CSC.INV.GRID` (R163). -/
def cscInvGrid (cg : Handle) (denominator : Nat) (s : State) : HostRun Image :=
  (callFor (.gridWidth cg) Result.n? s).andThen fun w s =>
    (callFor (.gridHeight cg) Result.n? s).andThen fun h s =>
      (forEach (fun (p : Nat × Nat) s =>
        (callFor (.gridAtRd cg p.1 p.2) Result.color? s).andThen fun cp s =>
          callFor (.cscInv cp denominator) Result.pixel? s) (rowMajor w h) s).andThen fun pixels s =>
        .done ⟨⟨w, h, pixels⟩, denominator⟩ s

/-- `BT.FWD` of the transform block `(bc, br)` of a color grid (R181, R182). -/
def btFwdBlock (cg : Handle) (bc br : Nat) (s : State) : HostRun BlockCoefficients :=
  (callFor (.gridAtRd cg (2 * bc) (2 * br)) Result.color? s).andThen fun p1 s =>
    (callFor (.gridAtRd cg (2 * bc + 1) (2 * br)) Result.color? s).andThen fun p2 s =>
      (callFor (.gridAtRd cg (2 * bc) (2 * br + 1)) Result.color? s).andThen fun p3 s =>
        (callFor (.gridAtRd cg (2 * bc + 1) (2 * br + 1)) Result.color? s).andThen fun p4 s =>
          callFor (.btFwd p1 p2 p3 p4) Result.coeffs? s

/-- `BT.FWD.GRID` (R182); an odd dimension is refused, never trimmed (R183). -/
def btFwdGrid (cg : Handle) (s : State) : HostRun (PlainGrid BlockCoefficients) :=
  (callFor (.gridWidth cg) Result.n? s).andThen fun w s =>
    (callFor (.gridHeight cg) Result.n? s).andThen fun h s =>
      if w % 2 = 1 ∨ h % 2 = 1 then .refused .oddDimension
      else
        (forEach (fun (p : Nat × Nat) s => btFwdBlock cg p.1 p.2 s) (rowMajor (w / 2) (h / 2)) s).andThen fun cells s =>
          .done ⟨w / 2, h / 2, cells⟩ s

/-- `BT.INV` of one block, its four pixels written to a color grid (R185). -/
def btInvBlock (cg : Handle) (co : BlockCoefficients) (bc br : Nat) (s : State) : HostRun (Option Result) :=
  (callFor (.btInv co) Result.block? s).andThen fun p s =>
    (call (.gridAtWr cg (2 * bc) (2 * br) (.color p.1)) s).andThen fun _ s =>
      (call (.gridAtWr cg (2 * bc + 1) (2 * br) (.color p.2.1)) s).andThen fun _ s =>
        (call (.gridAtWr cg (2 * bc) (2 * br + 1) (.color p.2.2.1)) s).andThen fun _ s =>
          call (.gridAtWr cg (2 * bc + 1) (2 * br + 1) (.color p.2.2.2)) s

/-- `BT.INV.GRID` (R185): a color grid of twice the dimensions, with the default blocking. -/
def btInvGrid (kg : PlainGrid BlockCoefficients) (s : State) : HostRun Handle :=
  (callFor (.gridNewdef (2 * kg.width) (2 * kg.height) s.cfg.sizeofColorPixel) Result.grid? s).andThen fun cg s =>
    (forEach (fun (p : Nat × Nat) s => (cell kg p.1 p.2 s).andThen fun co s => btInvBlock cg co p.1 p.2 s)
      (rowMajor kg.width kg.height) s).andThen fun _ s => .done cg s

/-- `Q.QUANT.GRID` (R208). -/
def quantGrid (kg : PlainGrid BlockCoefficients) (s : State) : HostRun (PlainGrid QuantizedBlock) :=
  (forEach (fun co s => callFor (.qQuant co) Result.quantized? s) kg.cells s).andThen fun cells s =>
    .done ⟨kg.width, kg.height, cells⟩ s

/-- `Q.DEQUANT.GRID` (R208). -/
def dequantGrid (qg : PlainGrid QuantizedBlock) (s : State) : HostRun (PlainGrid BlockCoefficients) :=
  (forEach (fun q s => callFor (.qDequant q) Result.coeffs? s) qg.cells s).andThen fun cells s =>
    .done ⟨qg.width, qg.height, cells⟩ s

/-! ### The two entry points (R260) -/

/-- `COMPRESS` (R261): each stage consumes one container and gives the next, and the color grid is released as soon as
the coefficients exist (R270). -/
def compress (img : Image) (s : State) : HostRun Unit :=
  (cscFwdGrid img s).andThen fun cg s =>
    (btFwdGrid cg s).andThen fun kg s =>
      (call (.gridFree cg) s).andThen fun _ s =>
        (quantGrid kg s).andThen fun qg s =>
          (call (.frHdrw img.pixels.width img.pixels.height) s).andThen fun _ s =>
            (forEach (fun q s => call (.frPut q) s) qg.cells s).andThen fun _ s => .done () s

/-- The quantized block of the transform block `(bc, br)` of an image (R181, R262). -/
def quantizedBlock (img : Image) (bc br : Nat) (s : State) : HostRun QuantizedBlock :=
  let color (col row : Nat) (s : State) : HostRun ColorPixel :=
    (cell img.pixels col row s).andThen fun px s => callFor (.cscFwd px img.denominator) Result.color? s
  (color (2 * bc) (2 * br) s).andThen fun p1 s =>
    (color (2 * bc + 1) (2 * br) s).andThen fun p2 s =>
      (color (2 * bc) (2 * br + 1) s).andThen fun p3 s =>
        (color (2 * bc + 1) (2 * br + 1) s).andThen fun p4 s =>
          (callFor (.btFwd p1 p2 p3 p4) Result.coeffs? s).andThen fun co s =>
            callFor (.qQuant co) Result.quantized? s

/-- `COMPRESS` in the fused form, block by block in row-major block order (R89, R262). -/
def compressFused (img : Image) (s : State) : HostRun Unit :=
  (call (.frHdrw img.pixels.width img.pixels.height) s).andThen fun _ s =>
    (forEach (fun (p : Nat × Nat) s =>
      (quantizedBlock img p.1 p.2 s).andThen fun q s => call (.frPut q) s)
      (rowMajor (img.pixels.width / 2) (img.pixels.height / 2)) s).andThen fun _ s => .done () s

/-- `DECOMPRESS` (R263): the image gets the denominator `DECOMP_DENOM` (R337). -/
def decompress (s : State) : HostRun Image :=
  (callFor .frHdrr Result.dims? s).andThen fun d s =>
    (forEach (fun (_ : Nat × Nat) s => callFor .frGet Result.quantized? s) (rowMajor (d.1 / 2) (d.2 / 2)) s).andThen
      fun cells s =>
        (dequantGrid ⟨d.1 / 2, d.2 / 2, cells⟩ s).andThen fun kg s =>
          (btInvGrid kg s).andThen fun cg s =>
            (cscInvGrid cg s.cfg.decompDenom s).andThen fun img s =>
              (call (.gridFree cg) s).andThen fun _ s => .done img s

end Pipeline

end Sys2Proof.Machine
end

