-- ==== Sys2Proof/Safety.lean ====
section
/-! DEFINITION. What counts as a good state and a good run, in the terms the statements use: committed output (rule
R35), the end of a run (R272), the properties of a chroma table (R201), and the invariants of the machine. -/

namespace Sys2Proof.Machine

/-! ### Answers, in the terms the statements use -/

/-- The state with a result delivered by an operation that completed. -/
def State.delivering (s : State) (r : Result) : State := s.setResponse (some ⟨0#3, some r⟩)

/-- The state with an operation without result ports completed. -/
def State.completing (s : State) : State := s.setResponse (some ⟨0#3, none⟩)

/-- The state with a fault taken: the code in `FAULT`, no result, nothing else changed (R280). -/
def State.faulting (s : State) (e : ErrorKind) : State := (s.setFault e.code).setResponse (some ⟨e.code, none⟩)

/-- Executes a list of operations in order, as the host issues them (R10); it stops at the first refusal. -/
def execAll : List Instr → State → StepResult
  | [], s => .next s
  | i :: l, s =>
    match exec i s with
    | .next t => execAll l t
    | .refused r => .refused r

/-- Is an operation one of the framer's, the only ones that read or write the streams and the framer registers
(45_codeword_framer.md)? -/
def usesFramer : Instr → Bool
  | .frHdrw _ _ => true
  | .frPut _ => true
  | .frHdrr => true
  | .frGet => true
  | _ => false

/-- Does an operation write buffer memory (41_blockedgrid.md)? -/
def writesGrids : Instr → Bool
  | .gridNew _ _ _ _ => true
  | .gridNewdef _ _ _ => true
  | .gridAtWr _ _ _ _ => true
  | .gridFree _ => true
  | _ => false

/-! ### When an operation faults and when it is refused -/

/-- The `i64` reading of a value fits in `width` bits (R113). -/
def FitsSigned (value : Word) (width : Nat) : Prop :=
  if width = 0 then value.toInt = 0 else -(2 ^ (width - 1) : Int) ≤ value.toInt ∧ value.toInt ≤ 2 ^ (width - 1) - 1

/-- The position is outside the live grid `g` (R144, R145). -/
def OutOfBounds (s : State) (g : Handle) (col row : Nat) : Prop :=
  ∃ d, Store.find g s.grids = some d ∧ (d.width ≤ col ∨ d.height ≤ row)

/-! ### Output -/

/-- A committed state: only in it are the bytes of `OUT` the block's output (R35, D15). -/
def Committed (s : State) : Prop := s.frMode = .done ∧ s.fault = 0#3

/-- The block's output: none in a state that is not committed (R35). -/
def output (s : State) : Option (List Byte) :=
  if s.frMode = .done ∧ s.fault = 0#3 then some s.out else none

/-- The three ends of a host's run (R272). -/
inductive RunEnd where
  | committed
  | faulted
  | refused
  | open
  deriving DecidableEq, Repr

/-- Which end a host's run has come to; `open` when the image is not framed whole (R272). -/
def HostRun.ending {α : Type} : HostRun α → RunEnd
  | .done _ s => if s.frMode = .done ∧ s.fault = 0#3 then .committed else .open
  | .faulted _ => .faulted
  | .refused _ => .refused

/-! ### The chroma table -/

/-- The table is monotonic, in one direction or the other; the spec does not say which (R201). -/
def MonotonicChroma (cfg : Config) : Prop :=
  ((∀ i j : Fin 16, i ≤ j → indexToChroma cfg i ≤ indexToChroma cfg j) ∨
    (∀ i j : Fin 16, i ≤ j → indexToChroma cfg j ≤ indexToChroma cfg i)) ∧
  ((∀ x y : FVal, x ≤ y → cfg.c2i x ≤ cfg.c2i y) ∨ (∀ x y : FVal, x ≤ y → cfg.c2i y ≤ cfg.c2i x))

/-! ### Fields within ranges -/

/-- Every field is within the range of its encoding (R80): what a codeword can hold, -16 included. -/
def FitsCodeword (q : QuantizedBlock) : Prop :=
  q.a.toNat ≤ 511 ∧ (-16 ≤ q.b.toInt ∧ q.b.toInt ≤ 15) ∧ (-16 ≤ q.c.toInt ∧ q.c.toInt ≤ 15) ∧
    (-16 ≤ q.d.toInt ∧ q.d.toInt ≤ 15) ∧ q.indexPb.toNat ≤ 15 ∧ q.indexPr.toNat ≤ 15

/-- Every field is within its declared range (R26, R80). -/
def InDeclaredRange (q : QuantizedBlock) : Prop :=
  q.a.toNat ≤ 511 ∧ (-15 ≤ q.b.toInt ∧ q.b.toInt ≤ 15) ∧ (-15 ≤ q.c.toInt ∧ q.c.toInt ≤ 15) ∧
    (-15 ≤ q.d.toInt ∧ q.d.toInt ≤ 15) ∧ q.indexPb.toNat ≤ 15 ∧ q.indexPr.toNat ≤ 15

/-- The causes of the five faults: the rows of the table of R281, with the checks that come before a fault (R290). -/
def FaultCause (i : Instr) (s : State) (e : ErrorKind) : Prop :=
  match i with
  | .bfFitsu _ width => e = .rangeError ∧ 64 < width
  | .bfFitss _ width => e = .rangeError ∧ 64 < width
  | .bfGetu _ width lsb => e = .rangeError ∧ 64 < width + lsb
  | .bfGets _ width lsb => e = .rangeError ∧ 64 < width + lsb
  | .bfNewu _ width lsb value =>
    (e = .rangeError ∧ 64 < width + lsb) ∨ (e = .overflowError ∧ width + lsb ≤ 64 ∧ 2 ^ width ≤ value.toNat)
  | .bfNews _ width lsb value =>
    (e = .rangeError ∧ 64 < width + lsb) ∨ (e = .overflowError ∧ width + lsb ≤ 64 ∧ ¬ FitsSigned value width)
  | .gridNew _ _ elementSize blockSize => e = .invalidArgument ∧ (elementSize = 0 ∨ blockSize = 0)
  | .gridNewdef _ _ elementSize => e = .invalidArgument ∧ elementSize = 0
  | .gridAtRd g col row => e = .rangeError ∧ OutOfBounds s g col row
  | .gridAtWr g col row _ => e = .rangeError ∧ OutOfBounds s g col row
  | .cwEnc q => e = .overflowError ∧ ¬ FitsCodeword q
  | .cwDec bytes => e = .truncatedStreamError ∧ bytes.length < 4
  | .frPut q => e = .overflowError ∧ s.frMode = .tx ∧ ¬ FitsCodeword q
  | .frHdrr =>
    s.frMode = .idle ∧
      ((e = .truncatedStreamError ∧ Framer.scanHeader (2 ^ s.cfg.dimBits) (remaining s) = .truncated) ∨
        (e = .formatError ∧ Framer.scanHeader (2 ^ s.cfg.dimBits) (remaining s) = .format))
  | .frGet => e = .truncatedStreamError ∧ s.frMode = .rx ∧ (remaining s).length < 4
  | .gridForeach _ => False
  | .gridWidth _ => False
  | .gridHeight _ => False
  | .gridEsize _ => False
  | .gridBsize _ => False
  | .gridFree _ => False
  | .cscFwd _ _ => False
  | .cscInv _ _ => False
  | .btFwd _ _ _ _ => False
  | .btInv _ => False
  | .qQuant _ => False
  | .qDequant _ => False
  | .frHdrw _ _ => False

/-- The conditions under which an operation is refused: the rows of 93_implementation_defined.md section 2. -/
def RefusalCause (i : Instr) (s : State) : Prop :=
  match i with
  | .gridAtRd g col row =>
    Store.find g s.grids = none ∨
      ∃ d, Store.find g s.grids = some d ∧ col < d.width ∧ row < d.height ∧ d.memRead col row = none
  | .gridAtWr g _ _ _ => Store.find g s.grids = none
  | .gridForeach g => Store.find g s.grids = none
  | .gridWidth g => Store.find g s.grids = none
  | .gridHeight g => Store.find g s.grids = none
  | .gridEsize g => Store.find g s.grids = none
  | .gridBsize g => Store.find g s.grids = none
  | .gridFree g => Store.find g s.grids = none
  | .cscFwd px denominator =>
    denominator = 0 ∨ denominator < px.red ∨ denominator < px.green ∨ denominator < px.blue ∨
      ColorSpace.forward s.cfg.num px denominator = none
  | .cscInv cp denominator => denominator = 0 ∨ ColorSpace.inverse s.cfg.num cp denominator = none
  | .btFwd p1 p2 p3 p4 => BlockTransform.forward s.cfg.num p1 p2 p3 p4 = none
  | .btInv co => BlockTransform.inverse s.cfg.num co = none
  | .qDequant q => 15 < q.indexPb.toNat ∨ 15 < q.indexPr.toNat
  | .frHdrw width height => s.frMode ≠ .idle ∨ width % 2 = 1 ∨ height % 2 = 1
  | .frPut _ => s.frMode ≠ .tx
  | .frHdrr => s.frMode ≠ .idle ∨ ∃ r, Framer.scanHeader (2 ^ s.cfg.dimBits) (remaining s) = .refused r
  | .frGet => s.frMode ≠ .rx
  | .bfFitsu _ _ => False
  | .bfFitss _ _ => False
  | .bfGetu _ _ _ => False
  | .bfGets _ _ _ => False
  | .bfNewu _ _ _ _ => False
  | .bfNews _ _ _ _ => False
  | .gridNew _ _ _ _ => False
  | .gridNewdef _ _ _ => False
  | .qQuant _ => False
  | .cwEnc _ => False
  | .cwDec _ => False

/-! ### Images -/

/-- An image a host may compress (R322 item 4): even dimensions, one pixel per position, a denominator of at least 1,
every channel at most the denominator. -/
def Image.valid (img : Image) : Prop :=
  img.pixels.width % 2 = 0 ∧ img.pixels.height % 2 = 0 ∧ img.pixels.cells.length = img.pixels.width * img.pixels.height ∧
    0 < img.denominator ∧
    ∀ px ∈ img.pixels.cells, px.red ≤ img.denominator ∧ px.green ≤ img.denominator ∧ px.blue ≤ img.denominator

/-- The quantized block of the transform block `(bc, br)` of an image, as a function: the composition of the units
(R262). -/
def blockOf (num : NumFormat) (c2i : FVal → Fin 16) (img : Image) (bc br : Nat) : Option QuantizedBlock := do
  let p1 ← ColorSpace.forward num (← img.pixels.at? (2 * bc) (2 * br)) img.denominator
  let p2 ← ColorSpace.forward num (← img.pixels.at? (2 * bc + 1) (2 * br)) img.denominator
  let p3 ← ColorSpace.forward num (← img.pixels.at? (2 * bc) (2 * br + 1)) img.denominator
  let p4 ← ColorSpace.forward num (← img.pixels.at? (2 * bc + 1) (2 * br + 1)) img.denominator
  Quantizer.quantize num c2i (← BlockTransform.forward num p1 p2 p3 p4)

/-- The four pixels of the transform block of a codeword's four bytes, as a function: the composition of the units on the
way back (R263, R264). -/
def pixelsOf (cfg : Config) (bytes : List Byte) : Option (Pixel × Pixel × Pixel × Pixel) := do
  let q ← (Codec.decode bytes).toOption
  let co ← Quantizer.dequantize cfg.num (indexToChroma cfg) q (Fin.ofNat 16 q.indexPb.toNat) (Fin.ofNat 16 q.indexPr.toNat)
  let p ← BlockTransform.inverse cfg.num co
  let px1 ← ColorSpace.inverse cfg.num p.1 cfg.decompDenom
  let px2 ← ColorSpace.inverse cfg.num p.2.1 cfg.decompDenom
  let px3 ← ColorSpace.inverse cfg.num p.2.2.1 cfg.decompDenom
  let px4 ← ColorSpace.inverse cfg.num p.2.2.2 cfg.decompDenom
  return (px1, px2, px3, px4)

/-! ### Invariants -/

/-- `FAULT` holds a code that is produced: 6 and 7 never are (R29). -/
def FaultInv (s : State) : Prop := s.fault.toNat ≤ 5

/-- Buffer memory is in canonical form, and every live handle was returned before (R140, R141). -/
def GridsInv (s : State) : Prop := Memory.wf s.grids = true ∧ ∀ e ∈ s.grids, e.1 < s.nextHandle

/-- The framer's registers are within their widths and agree with the mode (R32 to R34, R242). -/
def FramerInv (s : State) : Prop :=
  s.frW < 2 ^ s.cfg.dimBits ∧ s.frH < 2 ^ s.cfg.dimBits ∧ s.frRem < 2 ^ (2 * s.cfg.dimBits - 2) ∧
    s.frW % 2 = 0 ∧ s.frH % 2 = 0 ∧ s.frRem ≤ Framer.blockCount s.frW s.frH ∧
    (s.frMode = .idle → s.frW = 0 ∧ s.frH = 0 ∧ s.frRem = 0) ∧
    (s.frMode = .tx ∨ s.frMode = .rx → 0 < s.frRem) ∧
    (s.frMode = .done → s.frRem = 0)

/-- How far the codewords of the body have come. -/
def framed (s : State) : Nat := Framer.blockCount s.frW s.frH - s.frRem

/-- `OUT` is empty, or it is the header of the framed image followed by four bytes for each codeword written
(R89, R90). -/
def OutInv (s : State) : Prop :=
  (s.frMode = .idle ∨ s.frMode = .rx → s.out = []) ∧
    (s.frMode = .tx → ∃ body, s.out = Framer.header s.frW s.frH ++ body ∧ body.length = 4 * framed s) ∧
    (s.frMode = .done → s.out = [] ∨
      ∃ body, s.out = Framer.header s.frW s.frH ++ body ∧ body.length = 4 * Framer.blockCount s.frW s.frH)

/-- `IN.pos` stays inside `IN`; it is 0 before a header is read; and while a compressed stream is being read without a fault, `IN` begins with the header
of the framed image and `IN.pos` stands after it and four bytes for each codeword read (R30, R61). -/
def InInv (s : State) : Prop :=
  s.inPos ≤ s.input.length ∧
    (s.frMode = .idle → s.fault = 0#3 → s.inPos = 0) ∧
    (s.frMode = .rx → s.fault = 0#3 →
      Framer.header s.frW s.frH <+: s.input ∧ s.inPos = (Framer.header s.frW s.frH).length + 4 * framed s)

/-- The code presented with the last response is the one in `FAULT`, and no result was delivered with a fault
(R280, R283). -/
def ResponseInv (s : State) : Prop :=
  ∀ r, s.response = some r → r.fault = s.fault ∧ (s.fault ≠ 0#3 → r.result = none)

/-- The invariants of the machine together. -/
structure MachineInv (s : State) : Prop where
  fault : FaultInv s
  grids : GridsInv s
  framer : FramerInv s
  out : OutInv s
  input : InInv s
  response : ResponseInv s

end Sys2Proof.Machine
end

