-- ==== Sys2Proof/Certificates/Slice0/Obligations.lean ====
section
/-! DEFINITION. The statements for the provers. Each docstring names the rule or the section it comes from. -/

open Sys2Proof Sys2Proof.Machine

/-! ### Reset, the halt, and the shape of a step -/

/-- R43, R320, R321 (and R29 to R34 for the registers): the state after reset, for every configuration and input stream the
host may supply; a step that takes an assertion of reset, in any state, leaves every piece of state so and keeps the
parameters. `State.reset` is the one with the default parameters and no input (log entries 2 and 7). -/
def Obligations.ResetPutsEveryPieceOfStateAtItsValue : Prop :=
  (∀ (cfg : Config) (input : List Byte),
    let s := State.resetWith cfg input
    s.fault = 0#3 ∧ s.frMode = .idle ∧ s.frMode.code = 0#2 ∧ s.frW = 0 ∧ s.frH = 0 ∧ s.frRem = 0 ∧ s.inPos = 0 ∧
      s.input = input ∧ s.out = [] ∧ (∀ g, Store.find g s.grids = none) ∧ s.response = none ∧ s.cfg = cfg) ∧
  (∀ (s : State) (input : List Byte) (rest : List HostAction), s.host = .reset input :: rest →
    ∃ t, step s = .next t ∧ t.cfg = s.cfg ∧ t.host = rest ∧ t.fault = 0#3 ∧ t.frMode = .idle ∧ t.frW = 0 ∧ t.frH = 0 ∧
      t.frRem = 0 ∧ t.input = input ∧ t.inPos = 0 ∧ t.out = [] ∧ (∀ g, Store.find g t.grids = none) ∧ t.response = none) ∧
  State.reset = State.resetWith Config.default []

/-- R283: a halted block answers every operation with its code and changes nothing else; it is never committed; only reset
clears `FAULT`, and the first code stays. (What an action of the host is, log entries 3 and 21.) -/
def Obligations.HaltedBlockOnlyAnswersItsCode : Prop :=
  ∀ s : State, s.fault ≠ 0#3 →
    (∀ i : Instr, exec i s = .next (s.setResponse (some ⟨s.fault, none⟩))) ∧
    (∀ c rest i, s.host = .issue c :: rest → decode c = .ok i → i.wf s.cfg = true →
      step s = .next ((s.setHost rest).setResponse (some ⟨s.fault, none⟩))) ∧
    ¬ Committed s ∧
    (∀ t, step s = .next t → t.fault = s.fault ∨ ∃ input rest, s.host = .reset input :: rest)

/-- R10, R95, R283: the step of a command that decodes to a presentable instruction is the execution of that
instruction, in the state without the command and with the result ports empty (the queue of the host's actions is the
model's choice, log entry 3). -/
def Obligations.StepExecutesTheDecodedInstruction : Prop :=
  ∀ (s : State) (c : Command) (rest : List HostAction) (i : Instr), s.host = .issue c :: rest → decode c = .ok i →
    i.wf s.cfg = true → step s = exec i ((s.setHost rest).setResponse none)

/-- R101: a command with a reserved code is refused, in every state, and 228 of the 256 codes are reserved. -/
def Obligations.ReservedCodesAreRefused : Prop :=
  (∀ (s : State) (c : Command) (rest : List HostAction), s.host = .issue c :: rest →
    opOfCode c.op = none → step s = .refused (.reservedOp c.op)) ∧
  ((List.range 256).filter fun n => (opOfCode (BitVec.ofNat 8 n)).isNone).length = 228

/-- R280: the whole effect of a fault. A running block that goes to a state with a code in `FAULT` delivers no result
and changes nothing else, except, for the two operations that read `IN`, what they read (R65): the position stays between
its old value and the end of `IN`. (The counter of free values is the model's own, log entry 6.) -/
def Obligations.FaultsArePrecise : Prop :=
  ∀ (i : Instr) (s t : State), s.fault = 0#3 → exec i s = .next t → t.fault ≠ 0#3 →
    (∃ e : ErrorKind, t.fault = e.code) ∧
    t = (((s.setFault t.fault).setResponse (some ⟨t.fault, none⟩)).setInPos t.inPos).setFreeCount t.freeCount ∧
    (i ≠ .frHdrr → i ≠ .frGet → t.inPos = s.inPos) ∧
    s.inPos ≤ t.inPos ∧ (s.inPos ≤ s.input.length → t.inPos ≤ s.input.length)

/-- R281: the five faults are raised by the operations, and for the causes, of the table, and by nothing else; the codes
are 1 to 5 in its order. -/
def Obligations.FaultsAreRaisedExactlyForTheirCauses : Prop :=
  (∀ (i : Instr) (s : State) (e : ErrorKind), s.fault = 0#3 →
    ((∃ t, exec i s = .next t ∧ t.fault = e.code) ↔ FaultCause i s e)) ∧
  ErrorKind.invalidArgument.code = 1#3 ∧ ErrorKind.rangeError.code = 2#3 ∧ ErrorKind.overflowError.code = 3#3 ∧
    ErrorKind.truncatedStreamError.code = 4#3 ∧ ErrorKind.formatError.code = 5#3

/-- 93_implementation_defined.md section 2, R12, R294: a running block refuses an operation exactly under the listed
conditions; under no other does an operation stop. -/
def Obligations.OperationsAreRefusedExactlyWhereListed : Prop :=
  ∀ (i : Instr) (s : State), s.fault = 0#3 → ((∃ r, exec i s = .refused r) ↔ RefusalCause i s)

/-! ### Encoding -/

/-- R95, R96, R100: decoding an encoded instruction gives it back, with every operand. -/
def Obligations.DecodingAnEncodedInstructionGivesItBack : Prop := ∀ i : Instr, decode (encode i) = .ok i

/-- R100: a few words of the table written out bit by bit, unit then function, with the operands their formats name. -/
def Obligations.TableWordsDecodeToTheirOperations : Prop :=
  ∀ p : Ports,
    decode ⟨0b00000000#8, p⟩ = .ok (.bfFitsu p.value p.width) ∧
    decode ⟨0b00000101#8, p⟩ = .ok (.bfNews p.word p.width p.lsb p.value) ∧
    decode ⟨0b00010000#8, p⟩ = .ok (.gridNew p.width p.height p.elementSize p.blockSize) ∧
    decode ⟨0b00011001#8, p⟩ = .ok (.gridFree p.g) ∧
    decode ⟨0b00100001#8, p⟩ = .ok (.cscInv p.cp p.denominator) ∧
    decode ⟨0b00110000#8, p⟩ = .ok (.btFwd p.p1 p.p2 p.p3 p.p4) ∧
    decode ⟨0b01000001#8, p⟩ = .ok (.qDequant p.q) ∧
    decode ⟨0b01010000#8, p⟩ = .ok (.cwEnc p.q) ∧
    decode ⟨0b01100010#8, p⟩ = .ok .frHdrr

/-! ### BitField -/

/-- R112, R113, R119: the two predicates, over every value and every width. -/
def Obligations.FitsPredicatesTestTheRange : Prop :=
  ∀ (s : State) (value : Word) (width : Nat), s.fault = 0#3 →
    (width ≤ 64 → ∃ u v : Bool,
      exec (.bfFitsu value width) s = .next (s.delivering (.fits u)) ∧ (u = true ↔ value.toNat ≤ 2 ^ width - 1) ∧
      exec (.bfFitss value width) s = .next (s.delivering (.fits v)) ∧
      (v = true ↔ (width = 0 ∧ value.toInt = 0) ∨
        (0 < width ∧ -(2 ^ (width - 1) : Int) ≤ value.toInt ∧ value.toInt ≤ 2 ^ (width - 1) - 1))) ∧
    (64 < width → exec (.bfFitsu value width) s = .next (s.faulting .rangeError) ∧
      exec (.bfFitss value width) s = .next (s.faulting .rangeError))

/-- R114, R115: the field, zero-extended or sign-extended, and the range check before it. -/
def Obligations.ExtractionDeliversTheField : Prop :=
  ∀ (s : State) (word : Word) (width lsb : Nat), s.fault = 0#3 →
    (width + lsb ≤ 64 → ∃ u v : Word,
      exec (.bfGetu word width lsb) s = .next (s.delivering (.value u)) ∧ u.toNat = word.toNat / 2 ^ lsb % 2 ^ width ∧
      exec (.bfGets word width lsb) s = .next (s.delivering (.value v)) ∧
      v.toInt =
        (if width = 0 then 0
         else if 2 ^ (width - 1) ≤ word.toNat / 2 ^ lsb % 2 ^ width
           then ((word.toNat / 2 ^ lsb % 2 ^ width : Nat) : Int) - (2 ^ width : Nat)
           else ((word.toNat / 2 ^ lsb % 2 ^ width : Nat) : Int))) ∧
    (64 < width + lsb → exec (.bfGetu word width lsb) s = .next (s.faulting .rangeError) ∧
      exec (.bfGets word width lsb) s = .next (s.faulting .rangeError))

/-- R116, R117, R118: insertion, bit by bit; a value that does not fit overflows; the range check comes first. -/
def Obligations.InsertionReplacesTheField : Prop :=
  ∀ (s : State) (word : Word) (width lsb : Nat) (value : Word), s.fault = 0#3 →
    (width + lsb ≤ 64 →
      (value.toNat < 2 ^ width → ∃ r : Word, exec (.bfNewu word width lsb value) s = .next (s.delivering (.word r)) ∧
        ∀ i, i < 64 → r.getLsbD i = if lsb ≤ i ∧ i < lsb + width then value.getLsbD (i - lsb) else word.getLsbD i) ∧
      (2 ^ width ≤ value.toNat → exec (.bfNewu word width lsb value) s = .next (s.faulting .overflowError)) ∧
      (FitsSigned value width → ∃ r : Word, exec (.bfNews word width lsb value) s = .next (s.delivering (.word r)) ∧
        ∀ i, i < 64 → r.getLsbD i = if lsb ≤ i ∧ i < lsb + width then value.getLsbD (i - lsb) else word.getLsbD i) ∧
      (¬ FitsSigned value width → exec (.bfNews word width lsb value) s = .next (s.faulting .overflowError))) ∧
    (64 < width + lsb → exec (.bfNewu word width lsb value) s = .next (s.faulting .rangeError) ∧
      exec (.bfNews word width lsb value) s = .next (s.faulting .rangeError))

/-- R124: extracting a field just inserted at the same width and offset gives the inserted value, unsigned and
signed. -/
def Obligations.ExtractionAfterInsertionGivesTheValue : Prop :=
  ∀ (s t : State) (word r : Word) (width lsb : Nat) (value : Word), s.fault = 0#3 →
    (exec (.bfNewu word width lsb value) s = .next (s.delivering (.word r)) → t.fault = 0#3 →
      exec (.bfGetu r width lsb) t = .next (t.delivering (.value value))) ∧
    (exec (.bfNews word width lsb value) s = .next (s.delivering (.word r)) → t.fault = 0#3 →
      exec (.bfGets r width lsb) t = .next (t.delivering (.value value)))

/-- R125: insertion changes no bit outside the field. -/
def Obligations.InsertionLeavesOtherBitsAlone : Prop :=
  ∀ (s : State) (word r : Word) (width lsb : Nat) (value : Word), s.fault = 0#3 →
    exec (.bfNewu word width lsb value) s = .next (s.delivering (.word r)) ∨
      exec (.bfNews word width lsb value) s = .next (s.delivering (.word r)) →
    ∀ i, i < 64 → (i < lsb ∨ lsb + width ≤ i) → r.getLsbD i = word.getLsbD i

/-- R126: the boundary values of both setters. -/
def Obligations.OverflowBoundaryOfTheSetters : Prop :=
  ∀ (s : State) (word : Word) (width lsb : Nat), s.fault = 0#3 → width + lsb ≤ 64 →
    (width < 64 → exec (.bfNewu word width lsb (BitVec.ofNat 64 (2 ^ width))) s = .next (s.faulting .overflowError)) ∧
    (∃ r, exec (.bfNewu word width lsb (BitVec.ofNat 64 (2 ^ width - 1))) s = .next (s.delivering (.word r))) ∧
    (1 ≤ width → width ≤ 63 →
      (∃ r, exec (.bfNews word width lsb (BitVec.ofInt 64 (-(2 ^ (width - 1))))) s = .next (s.delivering (.word r))) ∧
      (∃ r, exec (.bfNews word width lsb (BitVec.ofInt 64 (2 ^ (width - 1) - 1))) s = .next (s.delivering (.word r))) ∧
      exec (.bfNews word width lsb (BitVec.ofInt 64 (-(2 ^ (width - 1)) - 1))) s = .next (s.faulting .overflowError) ∧
      exec (.bfNews word width lsb (BitVec.ofInt 64 (2 ^ (width - 1)))) s = .next (s.faulting .overflowError))

/-- R127: two insertions into fields that do not overlap give the same word in either order, and each field reads back
unchanged after the other is written. Said of the setters, unsigned or signed. -/
def Obligations.DisjointInsertionsCommute : Prop :=
  ∀ (set1 set2 : Word → Nat → Nat → Word → Except ErrorKind Word),
    (set1 = BitField.setUnsigned ∨ set1 = BitField.setSigned) → (set2 = BitField.setUnsigned ∨ set2 = BitField.setSigned) →
    ∀ (word a b : Word) (w1 l1 w2 l2 : Nat) (v1 v2 : Word), (l1 + w1 ≤ l2 ∨ l2 + w2 ≤ l1) →
      set1 word w1 l1 v1 = .ok a → set2 word w2 l2 v2 = .ok b →
      ∃ c, set2 a w2 l2 v2 = .ok c ∧ set1 b w1 l1 v1 = .ok c ∧
        BitField.getUnsigned c w1 l1 = BitField.getUnsigned a w1 l1 ∧
        BitField.getUnsigned c w2 l2 = BitField.getUnsigned b w2 l2

/-! ### BlockedGrid -/

/-- R141: a grid is created with the descriptor, every slot unwritten, under a handle that was not live; nothing else
changes; a zero size is an `InvalidArgument`. -/
def Obligations.GridNewCreatesAFreshUnwrittenGrid : Prop :=
  ∀ (s : State) (w h es bs : Nat), s.fault = 0#3 →
    (es = 0 ∨ bs = 0 → exec (.gridNew w h es bs) s = .next (s.faulting .invalidArgument)) ∧
    (0 < es → 0 < bs → ∃ g t, exec (.gridNew w h es bs) s = .next t ∧ t.response = some ⟨0#3, some (.grid g)⟩ ∧
      Store.find g t.grids = some ⟨w, h, es, bs, []⟩ ∧ (GridsInv s → Store.find g s.grids = none) ∧
      (∀ g', g' ≠ g → Store.find g' t.grids = Store.find g' s.grids) ∧
      t = ((s.setGrids t.grids).setNextHandle t.nextHandle).setResponse t.response ∧
      (Grid.mk w h es bs []).nslots = ⌈(w : ℚ) / bs⌉₊ * ⌈(h : ℚ) / bs⌉₊ * bs * bs)

/-- R142: the default blocking factor is the largest with which one storage block takes at most 65536 bytes, and at
least 1; otherwise the operation is `GRID.NEW`. -/
def Obligations.DefaultBlockingIsTheLargestThatFits : Prop :=
  ∀ (s : State) (w h es : Nat), s.fault = 0#3 →
    (es = 0 → exec (.gridNewdef w h es) s = .next (s.faulting .invalidArgument)) ∧
    (0 < es → ∃ B t, exec (.gridNewdef w h es) s = exec (.gridNew w h es B) s ∧ exec (.gridNewdef w h es) s = .next t ∧
      t.fault = 0#3 ∧ 0 < B ∧ (B * B * es ≤ 65536 ∨ B = 1) ∧ ∀ B', B < B' → 65536 < B' * B' * es)

/-- R144: reading a position: a dead handle, a position out of bounds, an unwritten slot, a written one. -/
def Obligations.GridReadDeliversTheWrittenElement : Prop :=
  ∀ (s : State) (g : Handle) (col row : Nat), s.fault = 0#3 →
    (Store.find g s.grids = none → exec (.gridAtRd g col row) s = .refused (.deadHandle g)) ∧
    (∀ d, Store.find g s.grids = some d →
      (d.width ≤ col ∨ d.height ≤ row → exec (.gridAtRd g col row) s = .next (s.faulting .rangeError)) ∧
      (col < d.width → row < d.height →
        (∀ e, d.memRead col row = some e → exec (.gridAtRd g col row) s = .next (s.delivering (.elem e))) ∧
        (d.memRead col row = none → exec (.gridAtRd g col row) s = .refused .unwrittenSlot)))

/-- R145 (with R68: a read gives the latest write): writing a position makes it read as the element; every other position
of every grid, and every descriptor, stays; nothing else changes. -/
def Obligations.GridWriteChangesOnePosition : Prop :=
  ∀ (s : State) (g : Handle) (col row : Nat) (e : Elem), s.fault = 0#3 → GridsInv s →
    (Store.find g s.grids = none → exec (.gridAtWr g col row e) s = .refused (.deadHandle g)) ∧
    (∀ d, Store.find g s.grids = some d →
      (d.width ≤ col ∨ d.height ≤ row → exec (.gridAtWr g col row e) s = .next (s.faulting .rangeError)) ∧
      (col < d.width → row < d.height → ∃ t d', exec (.gridAtWr g col row e) s = .next t ∧
        t = (s.setGrids t.grids).setResponse (some ⟨0#3, some (.grid g)⟩) ∧
        Store.find g t.grids = some d' ∧
        (d'.width = d.width ∧ d'.height = d.height ∧ d'.elementSize = d.elementSize ∧ d'.blockSize = d.blockSize) ∧
        d'.memRead col row = some e ∧
        (∀ c r, c < d.width → r < d.height → (c, r) ≠ (col, row) → d'.memRead c r = d.memRead c r) ∧
        (∀ g', g' ≠ g → Store.find g' t.grids = Store.find g' s.grids)))

/-- R151: the slot index is inside the store and injective on valid positions. -/
def Obligations.SlotIndexIsInjectiveAndInsideTheStore : Prop :=
  ∀ d : Grid, 0 < d.blockSize →
    (∀ col row, col < d.width → row < d.height → d.slotIndex col row < d.nslots) ∧
    (∀ c r c' r', c < d.width → r < d.height → c' < d.width → r' < d.height →
      d.slotIndex c r = d.slotIndex c' r' → c = c' ∧ r = r')

/-- R150: the traversal visits every valid position exactly once, and no other, and the visits within one storage block
are consecutive. -/
def Obligations.TraversalVisitsEveryPositionOnce : Prop :=
  ∀ (s : State) (g : Handle) (d : Grid), s.fault = 0#3 → Store.find g s.grids = some d → 0 < d.blockSize →
    ∃ l, exec (.gridForeach g) s = .next (s.delivering (.seq l)) ∧
      (∀ col row, l.count (col, row) = if col < d.width ∧ row < d.height then 1 else 0) ∧
      (∀ (i j k : Nat) (p q r : Nat × Nat), i < j → j < k → l[i]? = some p → l[j]? = some q → l[k]? = some r →
        (p.1 / d.blockSize = r.1 / d.blockSize ∧ p.2 / d.blockSize = r.2 / d.blockSize) →
        q.1 / d.blockSize = p.1 / d.blockSize ∧ q.2 / d.blockSize = p.2 / d.blockSize)

/-- R146: the positions come in the order of their slots (storage blocks row-major, then the slots of a block). The
order of the slots inside a block is the spec's own reading, decision D17. -/
def Obligations.TraversalGoesInSlotOrder : Prop :=
  ∀ (s : State) (g : Handle) (d : Grid), s.fault = 0#3 → Store.find g s.grids = some d → 0 < d.blockSize →
    ∃ l, exec (.gridForeach g) s = .next (s.delivering (.seq l)) ∧
      l.Pairwise (fun p q => d.slotIndex p.1 p.2 < d.slotIndex q.1 q.2)

/-- R147, R152, R153, R154: the queries deliver the descriptor of a live grid; with a dead handle they are refused. -/
def Obligations.QueriesDeliverTheDescriptor : Prop :=
  ∀ (s : State) (g : Handle), s.fault = 0#3 →
    (∀ d, Store.find g s.grids = some d →
      exec (.gridWidth g) s = .next (s.delivering (.n d.width)) ∧
      exec (.gridHeight g) s = .next (s.delivering (.n d.height)) ∧
      exec (.gridEsize g) s = .next (s.delivering (.n d.elementSize)) ∧
      exec (.gridBsize g) s = .next (s.delivering (.n d.blockSize))) ∧
    (Store.find g s.grids = none →
      exec (.gridWidth g) s = .refused (.deadHandle g) ∧ exec (.gridHeight g) s = .refused (.deadHandle g) ∧
      exec (.gridEsize g) s = .refused (.deadHandle g) ∧ exec (.gridBsize g) s = .refused (.deadHandle g))

/-- R148: a released grid is not live, and right after the release every operation on it is refused, a second release
included; the other grids and the rest of the state stay. -/
def Obligations.FreeEndsTheLifeOfAGrid : Prop :=
  ∀ (s : State) (g : Handle), s.fault = 0#3 →
    (Store.find g s.grids = none → exec (.gridFree g) s = .refused (.deadHandle g)) ∧
    (∀ d, Store.find g s.grids = some d → ∃ t, exec (.gridFree g) s = .next t ∧
      t = (s.setGrids t.grids).setResponse (some ⟨0#3, none⟩) ∧ Store.find g t.grids = none ∧
      (∀ g', g' ≠ g → Store.find g' t.grids = Store.find g' s.grids) ∧
      (∀ col row e, exec (.gridAtRd g col row) t = .refused (.deadHandle g) ∧
        exec (.gridAtWr g col row e) t = .refused (.deadHandle g)) ∧
      exec (.gridForeach g) t = .refused (.deadHandle g) ∧ exec (.gridFree g) t = .refused (.deadHandle g) ∧
      exec (.gridWidth g) t = .refused (.deadHandle g) ∧ exec (.gridHeight g) t = .refused (.deadHandle g) ∧
      exec (.gridEsize g) t = .refused (.deadHandle g) ∧ exec (.gridBsize g) t = .refused (.deadHandle g))

/-! ### ColorSpaceTransform, BlockTransform, Quantizer -/

/-- R160, R164: the forward color transform. A pixel out of range is refused; in every `NUM` the operation delivers what
the rounded formulas give, where that is finite; under `EXACT` those are the formulas of R160, with D0's literals. -/
def Obligations.ColorForwardDeliversTheTriple : Prop :=
  ∀ (s : State) (px : Pixel) (den : Nat), s.fault = 0#3 →
    (den = 0 ∨ den < px.red ∨ den < px.green ∨ den < px.blue →
      exec (.cscFwd px den) s = .refused .pixelOutsideRange) ∧
    (0 < den → px.red ≤ den → px.green ≤ den → px.blue ≤ den →
      (∀ cp, ColorSpace.forward s.cfg.num px den = some cp → exec (.cscFwd px den) s = .next (s.delivering (.color cp))) ∧
      (s.cfg.num = .exact →
        let r : ℚ := px.red / den
        let g : ℚ := px.green / den
        let b : ℚ := px.blue / den
        exec (.cscFwd px den) s = .next (s.delivering (.color
          ⟨299 / 1000 * r + 587 / 1000 * g + 114 / 1000 * b,
            1 / 2 * b - 168736 / 1000000 * r - 331264 / 1000000 * g,
            1 / 2 * r - 418688 / 1000000 * g - 81312 / 1000000 * b⟩))))

/-- R162: the inverse color transform. A zero denominator is refused; in every `NUM` the operation delivers what the
rounded formulas give, where that is finite; under `EXACT` each channel is clamped, scaled and rounded to the nearest
integer, a half going up, and lies in `[0, denominator]`. -/
def Obligations.ColorInverseDeliversThePixel : Prop :=
  ∀ (s : State) (cp : ColorPixel) (den : Nat), s.fault = 0#3 →
    (den = 0 → exec (.cscInv cp den) s = .refused .zeroDenominator) ∧
    (0 < den →
      (∀ px, ColorSpace.inverse s.cfg.num cp den = some px → exec (.cscInv cp den) s = .next (s.delivering (.pixel px))) ∧
      (s.cfg.num = .exact →
        let ch (x : ℚ) : Nat := ⌊max 0 (min 1 x) * den + 1 / 2⌋₊
        let px : Pixel := ⟨ch (cp.y + 1402 / 1000 * cp.pr),
          ch (cp.y - 344136 / 1000000 * cp.pb - 714136 / 1000000 * cp.pr), ch (cp.y + 1772 / 1000 * cp.pb)⟩
        exec (.cscInv cp den) s = .next (s.delivering (.pixel px)) ∧ px.red ≤ den ∧ px.green ≤ den ∧ px.blue ≤ den))

/-- R165, R186: under `EXACT`, the ranges of the forward color transform, and that their ends are reached; lumas in
`[0, 1]` and chromas in `[-1/2, 1/2]` give block coefficients in the stated ranges, and the inverse is not bounded. -/
def Obligations.TransformsStayInTheirRanges : Prop :=
  (∀ (px : Pixel) (den : Nat), 0 < den → px.red ≤ den → px.green ≤ den → px.blue ≤ den →
    (∃ cp, ColorSpace.forward .exact px den = some cp ∧ 0 ≤ cp.y ∧ cp.y ≤ 1 ∧ -1 / 2 ≤ cp.pb ∧ cp.pb ≤ 1 / 2 ∧
      -1 / 2 ≤ cp.pr ∧ cp.pr ≤ 1 / 2) ∧
    (∃ white blue yellow red cyan,
      ColorSpace.forward .exact ⟨den, den, den⟩ den = some white ∧ white.y = 1 ∧
      ColorSpace.forward .exact ⟨0, 0, den⟩ den = some blue ∧ blue.pb = 1 / 2 ∧
      ColorSpace.forward .exact ⟨den, den, 0⟩ den = some yellow ∧ yellow.pb = -1 / 2 ∧
      ColorSpace.forward .exact ⟨den, 0, 0⟩ den = some red ∧ red.pr = 1 / 2 ∧
      ColorSpace.forward .exact ⟨0, den, den⟩ den = some cyan ∧ cyan.pr = -1 / 2)) ∧
  (∀ p1 p2 p3 p4 : ColorPixel,
    (∀ p ∈ [p1, p2, p3, p4], 0 ≤ p.y ∧ p.y ≤ 1) →
    ∃ k, BlockTransform.forward .exact p1 p2 p3 p4 = some k ∧ 0 ≤ k.a ∧ k.a ≤ 1 ∧
      (∀ x ∈ [k.b, k.c, k.d], -1 / 2 ≤ x ∧ x ≤ 1 / 2) ∧
      ((∀ p ∈ [p1, p2, p3, p4], -1 / 2 ≤ p.pb ∧ p.pb ≤ 1 / 2 ∧ -1 / 2 ≤ p.pr ∧ p.pr ≤ 1 / 2) →
        ∀ x ∈ [k.pbAvg, k.prAvg], -1 / 2 ≤ x ∧ x ≤ 1 / 2)) ∧
  (∀ bound : ℚ, ∃ co q1 q2 q3 q4, BlockTransform.inverse .exact co = some (q1, q2, q3, q4) ∧ bound < q4.y)

/-- R167 (and R166 for these denominators): under `EXACT` the color round trip gives back the pixel itself, for every
denominator up to 434027. -/
def Obligations.ColorRoundTripIsExact : Prop :=
  ∀ (s : State) (px : Pixel) (den : Nat), s.fault = 0#3 → s.cfg.num = .exact → 0 < den → den ≤ 434027 →
    px.red ≤ den → px.green ≤ den → px.blue ≤ den →
    ∃ cp, exec (.cscFwd px den) s = .next (s.delivering (.color cp)) ∧
      exec (.cscInv cp den) s = .next (s.delivering (.pixel px))

/-- R180, R184: the block transform and its inverse. In every `NUM` they deliver what the rounded formulas give, where
that is finite; under `EXACT` those are the formulas of the rules. -/
def Obligations.BlockTransformDeliversItsFormulas : Prop :=
  ∀ (s : State) (p1 p2 p3 p4 : ColorPixel) (co : BlockCoefficients), s.fault = 0#3 →
    (∀ r, BlockTransform.forward s.cfg.num p1 p2 p3 p4 = some r →
      exec (.btFwd p1 p2 p3 p4) s = .next (s.delivering (.coeffs r))) ∧
    (∀ r, BlockTransform.inverse s.cfg.num co = some r →
      exec (.btInv co) s = .next (s.delivering (.block r.1 r.2.1 r.2.2.1 r.2.2.2))) ∧
    (s.cfg.num = .exact →
      exec (.btFwd p1 p2 p3 p4) s = .next (s.delivering (.coeffs
        ⟨(p1.y + p2.y + p3.y + p4.y) / 4, (p4.y + p3.y - p2.y - p1.y) / 4, (p4.y - p3.y + p2.y - p1.y) / 4,
          (p4.y - p3.y - p2.y + p1.y) / 4, (p1.pb + p2.pb + p3.pb + p4.pb) / 4, (p1.pr + p2.pr + p3.pr + p4.pr) / 4⟩)) ∧
      exec (.btInv co) s = .next (s.delivering (.block
        ⟨co.a - co.b - co.c + co.d, co.pbAvg, co.prAvg⟩ ⟨co.a - co.b + co.c - co.d, co.pbAvg, co.prAvg⟩
        ⟨co.a + co.b - co.c - co.d, co.pbAvg, co.prAvg⟩ ⟨co.a + co.b + co.c + co.d, co.pbAvg, co.prAvg⟩)))

/-- R187: under `EXACT` the luma part of the block transform is inverted exactly, in both directions; the four chromas
come back as their average, which is the input only when the four are equal. -/
def Obligations.BlockTransformIsInvertibleOnLuma : Prop :=
  ∀ (p1 p2 p3 p4 : ColorPixel) (co : BlockCoefficients),
    (∃ k q1 q2 q3 q4, BlockTransform.forward .exact p1 p2 p3 p4 = some k ∧
      BlockTransform.inverse .exact k = some (q1, q2, q3, q4) ∧
      q1.y = p1.y ∧ q2.y = p2.y ∧ q3.y = p3.y ∧ q4.y = p4.y ∧
      (∀ q ∈ [q1, q2, q3, q4], q.pb = (p1.pb + p2.pb + p3.pb + p4.pb) / 4 ∧ q.pr = (p1.pr + p2.pr + p3.pr + p4.pr) / 4) ∧
      ((q1, q2, q3, q4) = (p1, p2, p3, p4) ↔
        (p1.pb = p2.pb ∧ p2.pb = p3.pb ∧ p3.pb = p4.pb) ∧ (p1.pr = p2.pr ∧ p2.pr = p3.pr ∧ p3.pr = p4.pr))) ∧
    (∃ q1 q2 q3 q4 k, BlockTransform.inverse .exact co = some (q1, q2, q3, q4) ∧
      BlockTransform.forward .exact q1 q2 q3 q4 = some k ∧ k = co)

/-- R180, its corner case (90_conflicts.md C17): in every `NUM`, four equal pixels have exactly no detail. -/
def Obligations.EqualPixelsHaveNoDetail : Prop :=
  ∀ (s t : State) (p : ColorPixel) (co : BlockCoefficients), s.fault = 0#3 → (Instr.btFwd p p p p).wf s.cfg = true →
    exec (.btFwd p p p p) s = .next t → t.response = some ⟨0#3, some (.coeffs co)⟩ → co.b = 0 ∧ co.c = 0 ∧ co.d = 0

/-- 92_eei_decisions.md D29, R15: in every `NUM` the transforms complete on operands of moderate size; only a value that
would not be finite stops them. -/
def Obligations.TransformsCompleteOnModerateOperands : Prop :=
  ∀ (s : State), s.fault = 0#3 →
    (∀ (px : Pixel) (den : Nat), 0 < den → den < 2 ^ 64 → px.red ≤ den → px.green ≤ den → px.blue ≤ den →
      ∃ cp, exec (.cscFwd px den) s = .next (s.delivering (.color cp))) ∧
    (∀ (cp : ColorPixel) (den : Nat), 0 < den → den < 2 ^ 64 → (∀ x ∈ [cp.y, cp.pb, cp.pr], |x| ≤ 2 ^ 100) →
      ∃ px, exec (.cscInv cp den) s = .next (s.delivering (.pixel px))) ∧
    (∀ p1 p2 p3 p4 : ColorPixel, (∀ p ∈ [p1, p2, p3, p4], |p.y| ≤ 2 ^ 100 ∧ |p.pb| ≤ 2 ^ 100 ∧ |p.pr| ≤ 2 ^ 100) →
      ∃ co, exec (.btFwd p1 p2 p3 p4) s = .next (s.delivering (.coeffs co))) ∧
    (∀ co : BlockCoefficients, (∀ x ∈ [co.a, co.b, co.c, co.d], |x| ≤ 2 ^ 100) →
      ∃ q1 q2 q3 q4, exec (.btInv co) s = .next (s.delivering (.block q1 q2 q3 q4)))

/-- R203: for every operand and every `NUM` the quantizer completes, and every field of its result is in its declared
range; so it never gives -16 (R222). -/
def Obligations.QuantizerOutputIsInTheDeclaredRange : Prop :=
  ∀ (s : State) (co : BlockCoefficients), s.fault = 0#3 →
    ∃ q, exec (.qQuant co) s = .next (s.delivering (.quantized q)) ∧ InDeclaredRange q

/-- R200: the quantizer's formulas under `EXACT`: clamp, scale, round to nearest with ties away from zero; the chroma
indices are what the table gives. -/
def Obligations.QuantizerRoundsTheClampedCoefficient : Prop :=
  ∀ (s : State) (co : BlockCoefficients), s.fault = 0#3 → s.cfg.num = .exact →
    let near (n : Int) (x : ℚ) : Prop := (0 ≤ x → n = ⌊x + 1 / 2⌋) ∧ (x < 0 → n = ⌈x - 1 / 2⌉)
    ∃ q, exec (.qQuant co) s = .next (s.delivering (.quantized q)) ∧
      near q.a.toInt (max 0 (min 1 co.a) * 511) ∧
      near q.b.toInt (max (-3 / 10) (min (3 / 10) co.b) * 50) ∧
      near q.c.toInt (max (-3 / 10) (min (3 / 10) co.c) * 50) ∧
      near q.d.toInt (max (-3 / 10) (min (3 / 10) co.d) * 50) ∧
      q.indexPb.toNat = (s.cfg.c2i co.pbAvg).val ∧ q.indexPr.toNat = (s.cfg.c2i co.prAvg).val

/-- R205: the dequantizer completes in every `NUM` unless an index is outside the domain of the table, and takes the
chromas from the table; under `EXACT` its luma coefficients are the formulas, `a` clamped and the others not. -/
def Obligations.DequantizerDeliversItsFormulas : Prop :=
  ∀ (s : State) (q : QuantizedBlock), s.fault = 0#3 →
    (15 < q.indexPb.toNat ∨ 15 < q.indexPr.toNat → exec (.qDequant q) s = .refused .indexOutsideDomain) ∧
    (q.indexPb.toNat ≤ 15 → q.indexPr.toNat ≤ 15 →
      ∃ co, exec (.qDequant q) s = .next (s.delivering (.coeffs co)) ∧
        co.pbAvg = indexToChroma s.cfg (Fin.ofNat 16 q.indexPb.toNat) ∧
        co.prAvg = indexToChroma s.cfg (Fin.ofNat 16 q.indexPr.toNat) ∧
        (s.cfg.num = .exact → co.a = max 0 (min 1 ((q.a.toNat : ℚ) / 511)) ∧ co.b = (q.b.toInt : ℚ) / 50 ∧
          co.c = (q.c.toInt : ℚ) / 50 ∧ co.d = (q.d.toInt : ℚ) / 50))

/-- R207: the quantization error under `EXACT`, and that quantizing a dequantized block gives its luma fields back. -/
def Obligations.QuantizationErrorIsBounded : Prop :=
  (∀ (c2i : FVal → Fin 16) (co : BlockCoefficients), ∃ q, Quantizer.quantize .exact c2i co = some q ∧
    (0 ≤ co.a → co.a ≤ 1 → |co.a - (q.a.toInt : ℚ) / 511| ≤ 1 / 1022) ∧
    (∀ p ∈ [(co.b, q.b), (co.c, q.c), (co.d, q.d)],
      (|p.1| ≤ 3 / 10 → |p.1 - (p.2.toInt : ℚ) / 50| ≤ 1 / 100) ∧
      (3 / 10 < |p.1| → |p.1 - (p.2.toInt : ℚ) / 50| = |p.1| - 3 / 10))) ∧
  (∀ (c2i : FVal → Fin 16) (i2c : Fin 16 → FVal) (q : QuantizedBlock) (i j : Fin 16), q.a.toNat ≤ 511 →
    (∀ x ∈ [q.b, q.c, q.d], -16 ≤ x.toInt ∧ x.toInt ≤ 15) →
    ∃ co q', Quantizer.dequantize .exact i2c q i j = some co ∧ Quantizer.quantize .exact c2i co = some q' ∧
      q'.a = q.a ∧ ∀ p ∈ [(q.b, q'.b), (q.c, q'.c), (q.d, q'.d)], p.2.toInt = max (-15) p.1.toInt)

/-! ### CodewordCodec -/

/-- R82, R83, R84, R220, R221, R222: on fields within the ranges of their encodings, -16 included, the codeword is the
stated sum and its bytes go most significant first; and `OverflowError` is raised exactly when a field does not fit its bit
width, so nothing is masked. -/
def Obligations.EncodingFollowsTheLayoutOrOverflows : Prop :=
  ∀ (s : State) (q : QuantizedBlock), s.fault = 0#3 →
    (FitsCodeword q →
      ∃ (w : Word) (b0 b1 b2 b3 : Byte), exec (.cwEnc q) s = .next (s.delivering (.codeword w [b0, b1, b2, b3])) ∧
        (w.toNat : Int) = q.a.toNat * 2 ^ 23 + q.b.toInt % 32 * 2 ^ 18 + q.c.toInt % 32 * 2 ^ 13 + q.d.toInt % 32 * 2 ^ 8 +
          q.indexPb.toNat * 2 ^ 4 + q.indexPr.toNat ∧
        w.toNat = b0.toNat * 2 ^ 24 + b1.toNat * 2 ^ 16 + b2.toNat * 2 ^ 8 + b3.toNat) ∧
    (exec (.cwEnc q) s = .next (s.faulting .overflowError) ↔
      (511 < q.a.toNat ∨ (q.b.toInt < -16 ∨ 15 < q.b.toInt) ∨ (q.c.toInt < -16 ∨ 15 < q.c.toInt) ∨
        (q.d.toInt < -16 ∨ 15 < q.d.toInt) ∨ 15 < q.indexPb.toNat ∨ 15 < q.indexPr.toNat))

/-- R85, R224, R225: every four bytes decode, to fields within the ranges of their encodings; fewer raise
`TruncatedStreamError` and give no block. (That `IN.pos` stays, the bytes being on a port, is log entry 12.) -/
def Obligations.DecodingIsTotalOnFourBytes : Prop :=
  ∀ (s : State), s.fault = 0#3 →
    (∀ b0 b1 b2 b3 : Byte, ∃ q, exec (.cwDec [b0, b1, b2, b3]) s = .next (s.delivering (.quantized q)) ∧ FitsCodeword q) ∧
    (∀ bs : List Byte, bs.length < 4 → exec (.cwDec bs) s = .next (s.faulting .truncatedStreamError))

/-- R226: the codec is a bijection between the lists of four bytes and the blocks whose fields are within the ranges of
their encodings. -/
def Obligations.CodecRoundTripsBothWays : Prop :=
  ∀ (s t : State), s.fault = 0#3 → t.fault = 0#3 →
    (∀ q, FitsCodeword q → ∃ w bytes, exec (.cwEnc q) s = .next (s.delivering (.codeword w bytes)) ∧
      exec (.cwDec bytes) t = .next (t.delivering (.quantized q))) ∧
    (∀ bytes : List Byte, bytes.length = 4 → ∃ q w, exec (.cwDec bytes) s = .next (s.delivering (.quantized q)) ∧
      FitsCodeword q ∧ exec (.cwEnc q) t = .next (t.delivering (.codeword w bytes)))

/-! ### The framer -/

/-- R86, R87: the 33 bytes of the header's first line and how the header is made of it; the numeral of a number has only
digits, no leading zero unless it is the digit 0 alone, and reads in base ten as the number. (That the characters are these
bytes is log entry 23.) -/
def Obligations.HeaderTextIsItsLineAndShortestNumerals : Prop :=
  Framer.line1 =
    [0x43#8, 0x4F#8, 0x4D#8, 0x50#8, 0x34#8, 0x30#8, 0x20#8, 0x43#8, 0x6F#8, 0x6D#8, 0x70#8,
      0x72#8, 0x65#8, 0x73#8, 0x73#8, 0x65#8, 0x64#8, 0x20#8, 0x69#8, 0x6D#8, 0x61#8, 0x67#8,
      0x65#8, 0x20#8, 0x66#8, 0x6F#8, 0x72#8, 0x6D#8, 0x61#8, 0x74#8, 0x20#8, 0x32#8, 0x0A#8] ∧
  (∀ w h : Nat, Framer.header w h = Framer.line1 ++ Framer.dec w ++ [0x20#8] ++ Framer.dec h ++ [0x0A#8]) ∧
  ∀ n : Nat, Framer.dec n ≠ [] ∧ (∀ b ∈ Framer.dec n, 0x30 ≤ b.toNat ∧ b.toNat ≤ 0x39) ∧
    ((Framer.dec n).head? = some 0x30#8 → n = 0 ∧ Framer.dec n = [0x30#8]) ∧
    (Framer.dec n).foldl (fun acc b => acc * 10 + (b.toNat - 0x30)) 0 = n

/-- R230, R231, R242: writing the header, in `IDLE` with even dimensions; in any other mode, or with an odd dimension, it
is refused. Nothing but `OUT` and the framer registers changes. (The bytes of `Framer.line1` and `Framer.dec` are said in
`HeaderTextIsItsLineAndShortestNumerals`.) -/
def Obligations.HeaderWriteStartsTheBody : Prop :=
  ∀ (s : State) (w h : Nat), s.fault = 0#3 →
    (s.frMode = .idle → w % 2 = 0 → h % 2 = 0 →
      exec (.frHdrw w h) s = .next
        (((s.setOut (s.out ++ Framer.line1 ++ Framer.dec w ++ [0x20#8] ++ Framer.dec h ++ [0x0A#8])).setFramer
          (if w / 2 * (h / 2) = 0 then .done else .tx) w h (w / 2 * (h / 2))).completing)) ∧
    (s.frMode ≠ .idle ∨ w % 2 = 1 ∨ h % 2 = 1 → ∃ r, exec (.frHdrw w h) s = .refused r)

/-- R233, R242: a codeword that fits is appended and counted; one that does not raises `OverflowError` and nothing below
happens; in any mode but `TX` the operation is refused. -/
def Obligations.PutAppendsOneCodeword : Prop :=
  ∀ (s : State) (q : QuantizedBlock), s.fault = 0#3 →
    (s.frMode = .tx →
      (FitsCodeword q → ∃ w bytes, exec (.cwEnc q) s = .next (s.delivering (.codeword w bytes)) ∧ bytes.length = 4 ∧
        exec (.frPut q) s = .next
          (((s.setOut (s.out ++ bytes)).setFramer (if s.frRem - 1 = 0 then .done else .tx) s.frW s.frH
            (s.frRem - 1)).completing)) ∧
      (¬ FitsCodeword q → exec (.frPut q) s = .next (s.faulting .overflowError))) ∧
    (s.frMode ≠ .tx → ∃ r, exec (.frPut q) s = .refused r)

/-- R236, R88: in `IDLE`, a header that the writer would write is read: the dimensions are delivered, the registers are
set, and `IN.pos` stands just after it. -/
def Obligations.HeaderReadAcceptsWhatTheWriterWrites : Prop :=
  ∀ (s : State) (w h : Nat) (rest : List Byte), s.fault = 0#3 → s.frMode = .idle → w % 2 = 0 → h % 2 = 0 →
    w < 2 ^ s.cfg.dimBits → h < 2 ^ s.cfg.dimBits → s.inPos ≤ s.input.length →
    s.input.drop s.inPos = Framer.header w h ++ rest →
      exec .frHdrr s = .next
        (((s.setInPos (s.inPos + (Framer.header w h).length)).setFramer (if w / 2 * (h / 2) = 0 then .done else .rx) w h
          (w / 2 * (h / 2))).delivering (.dims w h))

/-- R88: the reader accepts no other text: whenever it delivers dimensions they are even and below `2^DIM_BITS`, and
`IN` stood at exactly the header that the writer writes for them. -/
def Obligations.HeaderReadAcceptsNothingElse : Prop :=
  ∀ (s t : State) (w h : Nat), s.fault = 0#3 → exec .frHdrr s = .next t →
    t.response = some ⟨0#3, some (.dims w h)⟩ →
      w % 2 = 0 ∧ h % 2 = 0 ∧ w < 2 ^ s.cfg.dimBits ∧ h < 2 ^ s.cfg.dimBits ∧
        Framer.header w h <+: s.input.drop s.inPos

/-- R88, R287, R288 (and R290 item 5): the texts that are no header and fault, by the first event that departs from the
grammar. A stream that ends inside a header raises `TruncatedStreamError`, wherever it ends, whether or not the dimensions are
even, and however large a numeral whose ending byte was not reached. A byte that the grammar does not allow where it stands raises `FormatError`: in the first line; where the first
digit of a numeral must stand; or after a numeral, where it is neither a digit nor the byte that must follow. That `IN.pos`
stays where it was after a `FormatError` is the model's reading of R280, log entry 12. -/
def Obligations.HeaderReadFaultsByTheFirstDeparture : Prop :=
  ∀ (s : State), s.fault = 0#3 → s.frMode = .idle →
    (∀ w h k : Nat, w < 2 ^ s.cfg.dimBits ∨ k ≤ 33 + (Framer.dec w).length → k < (Framer.header w h).length →
      s.input.drop s.inPos = (Framer.header w h).take k →
        ∃ t, exec .frHdrr s = .next t ∧ t.fault = 4#3 ∧ t.response = some ⟨4#3, none⟩ ∧ t.frMode = .idle ∧ t.out = s.out) ∧
    (∀ (k : Nat) (b : Byte) (rest : List Byte), k < 33 → Framer.line1[k]? ≠ some b →
      s.input.drop s.inPos = Framer.line1.take k ++ b :: rest → exec .frHdrr s = .next (s.faulting .formatError)) ∧
    (∀ (ds : List Byte) (b : Byte) (rest : List Byte), (ds = [] ∨ ∃ n, ds = Framer.dec n) →
      ¬ (0x30 ≤ b.toNat ∧ b.toNat ≤ 0x39) →
      (ds = [] ∨ b ≠ 0x20#8 → s.input.drop s.inPos = Framer.line1 ++ ds ++ b :: rest →
        exec .frHdrr s = .next (s.faulting .formatError)) ∧
      (∀ w, w < 2 ^ s.cfg.dimBits → ds = [] ∨ b ≠ 0x0A#8 →
        s.input.drop s.inPos = Framer.line1 ++ Framer.dec w ++ 0x20#8 :: (ds ++ b :: rest) →
          exec .frHdrr s = .next (s.faulting .formatError)))

/-- R88 (and R290 item 5): the other texts that are no header, each by the first event that departs from the grammar: a
leading zero, a numeral of `2^DIM_BITS` or more with its ending byte, and odd dimensions are refused; and so is the operation
in any mode but `IDLE` (R242). -/
def Obligations.HeaderReadRefusesWhatHasNoMeaning : Prop :=
  ∀ (s : State), s.fault = 0#3 →
    (s.frMode = .idle →
      (∀ (c : Byte) (rest : List Byte), 0x30 ≤ c.toNat → c.toNat ≤ 0x39 →
        (s.input.drop s.inPos = Framer.line1 ++ 0x30#8 :: c :: rest → exec .frHdrr s = .refused .leadingZero) ∧
        (∀ w, w < 2 ^ s.cfg.dimBits →
          s.input.drop s.inPos = Framer.line1 ++ Framer.dec w ++ 0x20#8 :: 0x30#8 :: c :: rest →
            exec .frHdrr s = .refused .leadingZero)) ∧
      (∀ (n : Nat) (rest : List Byte), 2 ^ s.cfg.dimBits ≤ n →
        (s.input.drop s.inPos = Framer.line1 ++ Framer.dec n ++ 0x20#8 :: rest →
          exec .frHdrr s = .refused .numeralTooWide) ∧
        (∀ w, w < 2 ^ s.cfg.dimBits →
          s.input.drop s.inPos = Framer.line1 ++ Framer.dec w ++ 0x20#8 :: (Framer.dec n ++ 0x0A#8 :: rest) →
            exec .frHdrr s = .refused .numeralTooWide)) ∧
      (∀ (w h : Nat) (rest : List Byte), w < 2 ^ s.cfg.dimBits → h < 2 ^ s.cfg.dimBits → w % 2 = 1 ∨ h % 2 = 1 →
        s.input.drop s.inPos = Framer.header w h ++ rest → exec .frHdrr s = .refused .oddDimension)) ∧
    (s.frMode ≠ .idle → exec .frHdrr s = .refused (.wrongFramerMode s.frMode))

/-- R239, R242: in `RX` with four bytes left, one codeword is taken and counted; with fewer, `TruncatedStreamError`; in
any other mode the operation is refused. -/
def Obligations.GetTakesOneCodeword : Prop :=
  ∀ (s : State), s.fault = 0#3 →
    (s.frMode = .rx → ∀ (b0 b1 b2 b3 : Byte) (rest : List Byte), s.input.drop s.inPos = b0 :: b1 :: b2 :: b3 :: rest →
      ∃ q, exec (.cwDec [b0, b1, b2, b3]) s = .next (s.delivering (.quantized q)) ∧
        exec .frGet s = .next
          (((s.setInPos (s.inPos + 4)).setFramer (if s.frRem - 1 = 0 then .done else .rx) s.frW s.frH
            (s.frRem - 1)).delivering (.quantized q))) ∧
    (s.frMode = .rx → (s.input.drop s.inPos).length < 4 → ∃ t, exec .frGet s = .next t ∧ t.fault = 4#3 ∧
      t.response = some ⟨4#3, none⟩ ∧ t.frRem = s.frRem ∧ t.frMode = s.frMode ∧ t.out = s.out) ∧
    (s.frMode ≠ .rx → ∃ r, exec .frGet s = .refused r)

/-- R241: the framer accepts exactly `FR_REM` codewords after the header and refuses any more, in both directions, whatever
the block put beyond the count is and also where `IN` ends with the last codeword. -/
def Obligations.FramerAcceptsExactlyTheCount : Prop :=
  ∀ (s : State), s.fault = 0#3 → 0 < s.frRem →
    (s.frMode = .tx → ∀ qs : List QuantizedBlock, (∀ q ∈ qs.take s.frRem, FitsCodeword q) →
      (qs.length ≤ s.frRem → ∃ t body, execAll (qs.map .frPut) s = .next t ∧ t.fault = 0#3 ∧
        t.frRem = s.frRem - qs.length ∧ (t.frMode = .done ↔ qs.length = s.frRem) ∧
        t.out = s.out ++ body ∧ body.length = 4 * qs.length) ∧
      (s.frRem < qs.length → ∃ r, execAll (qs.map .frPut) s = .refused r)) ∧
    (s.frMode = .rx → ∀ n : Nat, 4 * min n s.frRem ≤ (s.input.drop s.inPos).length →
      (n ≤ s.frRem → ∃ t, execAll (List.replicate n .frGet) s = .next t ∧ t.fault = 0#3 ∧ t.frRem = s.frRem - n ∧
        (t.frMode = .done ↔ n = s.frRem) ∧ t.inPos = s.inPos + 4 * n) ∧
      (s.frRem < n → ∃ r, execAll (List.replicate n .frGet) s = .refused r))

/-! ### The whole machine -/

/-- R20, R22, R120, 45_codeword_framer.md: the operations of the five other units change neither the streams nor the
framer registers, whatever they come to. -/
def Obligations.OnlyTheFramerTouchesStreamsAndRegisters : Prop :=
  ∀ (i : Instr) (s t : State), usesFramer i = false → exec i s = .next t →
    t.frMode = s.frMode ∧ t.frW = s.frW ∧ t.frH = s.frH ∧ t.frRem = s.frRem ∧ t.input = s.input ∧ t.inPos = s.inPos ∧
      t.out = s.out

/-- R120, R280 and the purity sentences of the unit files: an operation that is neither the framer's nor one of the four
that write buffer memory changes `FAULT` and the result ports at most. -/
def Obligations.PureOperationsChangeOnlyFaultAndPorts : Prop :=
  ∀ (i : Instr) (s t : State), usesFramer i = false → writesGrids i = false → exec i s = .next t →
    t = (s.setFault t.fault).setResponse t.response

/-- R31: nothing in `OUT` is removed or rewritten, and only `FR.HDRW` and `FR.PUT` append to it; only reset empties
it. -/
def Obligations.OutputIsAppendOnly : Prop :=
  (∀ (i : Instr) (s t : State), exec i s = .next t →
    s.out <+: t.out ∧ (t.out ≠ s.out → (∃ w h, i = .frHdrw w h) ∨ ∃ q, i = .frPut q)) ∧
  (∀ s t : State, step s = .next t → s.out <+: t.out ∨ ∃ input rest, s.host = .reset input :: rest)

/-- R30: the bytes of `IN` are fixed for the run, its position only increases, and only `FR.HDRR` and `FR.GET` move
it. -/
def Obligations.InputIsReadForwardOnly : Prop :=
  ∀ (i : Instr) (s t : State), s.inPos ≤ s.input.length → exec i s = .next t →
    t.input = s.input ∧ s.inPos ≤ t.inPos ∧ t.inPos ≤ t.input.length ∧
      (t.inPos ≠ s.inPos → i = .frHdrr ∨ i = .frGet)

/-- R42: no step writes a parameter. -/
def Obligations.ParametersAreNeverWritten : Prop := ∀ s t : State, step s = .next t → t.cfg = s.cfg

/-- The invariants hold after reset, for every configuration and input. -/
def Obligations.InvariantsHoldAfterReset : Prop := ∀ (cfg : Config) (input : List Byte), MachineInv (State.resetWith cfg input)

/-- Every step keeps the invariants: `FAULT` holds a produced code (R29), buffer memory is in canonical form and its
written slots are inside their stores (R36, R151), the framer registers fit their widths and agree with the mode (R32 to
R34, R242), `OUT` is a header and whole codewords (R89), `IN.pos` stands on a codeword of the stream being read (R61), and
the code presented is the one in `FAULT` (R283). -/
def Obligations.EveryStepKeepsTheInvariants : Prop := ∀ s t : State, MachineInv s → step s = .next t → MachineInv t

/-- R35, R89, R90: in a committed state of an invariant machine the output is empty (a decompression) or one whole
compressed stream of the length R90 gives. -/
def Obligations.CommittedOutputIsAWholeStream : Prop :=
  ∀ s : State, MachineInv s → Committed s →
    ∃ o, output s = some o ∧ (o = [] ∨ ∃ body, o = Framer.header s.frW s.frH ++ body ∧
      o.length = 33 + (Framer.dec s.frW).length + 1 + (Framer.dec s.frH).length + 1 + 4 * (s.frW / 2 * (s.frH / 2)))

/-- R89, R262 (and R266, R267 for its instances): under `EXACT`, the fused `COMPRESS` of a valid image ends committed,
having appended the header and then, for `k` from 0, the codeword of the transform block
`(k mod (width/2), k div (width/2))`. `COMPRESS` is a program of the host, log entry 18. -/
def Obligations.CompressionWritesTheStreamOfTheImage : Prop :=
  ∀ (s : State) (img : Image), s.fault = 0#3 → s.frMode = .idle → s.cfg.num = .exact → img.valid →
    img.pixels.width < 2 ^ s.cfg.dimBits → img.pixels.height < 2 ^ s.cfg.dimBits → img.denominator < 2 ^ s.cfg.chBits →
    ∃ t body, Pipeline.compressFused img s = .done () t ∧ Committed t ∧
      t.out = s.out ++ Framer.header img.pixels.width img.pixels.height ++ body ∧
      body.length = 4 * (img.pixels.width / 2 * (img.pixels.height / 2)) ∧
      ∀ k, k < img.pixels.width / 2 * (img.pixels.height / 2) →
        ∃ q w, blockOf .exact s.cfg.c2i img (k % (img.pixels.width / 2)) (k / (img.pixels.width / 2)) = some q ∧
          Codec.encode q = .ok (w, (body.drop (4 * k)).take 4)

/-- R261, R262, R270: under `EXACT`, the staged `COMPRESS` of a valid image ends committed with the same output as the fused
form, and the color grid it created is released: no other grid is touched. Both are programs of the host, log entry 18; the
element size of the color grid is log entry 4. -/
def Obligations.StagedCompressionEqualsTheFusedForm : Prop :=
  ∀ (s : State) (img : Image), s.fault = 0#3 → s.frMode = .idle → s.cfg.num = .exact → GridsInv s → img.valid →
    img.pixels.width < 2 ^ s.cfg.dimBits → img.pixels.height < 2 ^ s.cfg.dimBits →
    img.pixels.width < 2 ^ s.cfg.argBits → img.pixels.height < 2 ^ s.cfg.argBits → img.denominator < 2 ^ s.cfg.chBits →
    0 < s.cfg.sizeofColorPixel → s.cfg.sizeofColorPixel < 2 ^ s.cfg.argBits →
    ∃ t u, Pipeline.compress img s = .done () t ∧ Pipeline.compressFused img s = .done () u ∧ Committed t ∧ t.out = u.out ∧
      ∀ g, Store.find g t.grids = Store.find g s.grids

/-- R263 (with R89, R163, R181, R185): under `EXACT`, `DECOMPRESS` of a stream with a header and the codewords of its body,
whatever they are, ends committed with an image of the header's dimensions and the denominator `DECOMP_DENOM`; the four pixels
of its transform block `(bc, br)` are what the units give for codeword `br * (width / 2) + bc`; the bytes after the last
codeword are not read, nothing is written to `OUT`, and the grid it created is released. `DECOMPRESS` is a program of the
host, log entry 18; the element size of the color grid is log entry 4. -/
def Obligations.DecompressionRebuildsTheImage : Prop :=
  ∀ (s : State) (w h : Nat) (body rest : List Byte), s.fault = 0#3 → s.frMode = .idle → s.cfg.num = .exact → GridsInv s →
    w % 2 = 0 → h % 2 = 0 → w < 2 ^ s.cfg.dimBits → h < 2 ^ s.cfg.dimBits → w < 2 ^ s.cfg.argBits →
    h < 2 ^ s.cfg.argBits → 0 < s.cfg.sizeofColorPixel → s.cfg.sizeofColorPixel < 2 ^ s.cfg.argBits →
    0 < s.cfg.decompDenom → s.cfg.decompDenom < 2 ^ s.cfg.chBits → s.inPos ≤ s.input.length →
    s.input.drop s.inPos = Framer.header w h ++ body ++ rest → body.length = 4 * (w / 2 * (h / 2)) →
    ∃ img t, Pipeline.decompress s = .done img t ∧ Committed t ∧ t.out = s.out ∧
      t.inPos = s.inPos + (Framer.header w h).length + body.length ∧ (∀ g, Store.find g t.grids = Store.find g s.grids) ∧
      img.pixels.width = w ∧ img.pixels.height = h ∧ img.pixels.cells.length = w * h ∧
      img.denominator = s.cfg.decompDenom ∧
      ∀ bc br, bc < w / 2 → br < h / 2 →
        ∃ px1 px2 px3 px4, pixelsOf s.cfg ((body.drop (4 * (br * (w / 2) + bc))).take 4) = some (px1, px2, px3, px4) ∧
          img.pixels.at? (2 * bc) (2 * br) = some px1 ∧ img.pixels.at? (2 * bc + 1) (2 * br) = some px2 ∧
          img.pixels.at? (2 * bc) (2 * br + 1) = some px3 ∧ img.pixels.at? (2 * bc + 1) (2 * br + 1) = some px4
end

