-- ==== Sys2Proof/Laws/State.lean ====
section
/-! SUPPORT. One lemma per field of State and write of one part of it. -/

namespace Sys2Proof.Machine.State

variable (s : State)

/-! ### `setFault` -/

@[simp] theorem setFault_cfg (v : BitVec 3) : (s.setFault v).cfg = s.cfg := rfl
@[simp] theorem setFault_fault (v : BitVec 3) : (s.setFault v).fault = v := rfl
@[simp] theorem setFault_frMode (v : BitVec 3) : (s.setFault v).frMode = s.frMode := rfl
@[simp] theorem setFault_frW (v : BitVec 3) : (s.setFault v).frW = s.frW := rfl
@[simp] theorem setFault_frH (v : BitVec 3) : (s.setFault v).frH = s.frH := rfl
@[simp] theorem setFault_frRem (v : BitVec 3) : (s.setFault v).frRem = s.frRem := rfl
@[simp] theorem setFault_input (v : BitVec 3) : (s.setFault v).input = s.input := rfl
@[simp] theorem setFault_inPos (v : BitVec 3) : (s.setFault v).inPos = s.inPos := rfl
@[simp] theorem setFault_out (v : BitVec 3) : (s.setFault v).out = s.out := rfl
@[simp] theorem setFault_grids (v : BitVec 3) : (s.setFault v).grids = s.grids := rfl
@[simp] theorem setFault_nextHandle (v : BitVec 3) : (s.setFault v).nextHandle = s.nextHandle := rfl
@[simp] theorem setFault_response (v : BitVec 3) : (s.setFault v).response = s.response := rfl
@[simp] theorem setFault_host (v : BitVec 3) : (s.setFault v).host = s.host := rfl
@[simp] theorem setFault_freeCount (v : BitVec 3) : (s.setFault v).freeCount = s.freeCount := rfl

/-! ### `setResponse` -/

@[simp] theorem setResponse_cfg (r : Option Response) : (s.setResponse r).cfg = s.cfg := rfl
@[simp] theorem setResponse_fault (r : Option Response) : (s.setResponse r).fault = s.fault := rfl
@[simp] theorem setResponse_frMode (r : Option Response) : (s.setResponse r).frMode = s.frMode := rfl
@[simp] theorem setResponse_frW (r : Option Response) : (s.setResponse r).frW = s.frW := rfl
@[simp] theorem setResponse_frH (r : Option Response) : (s.setResponse r).frH = s.frH := rfl
@[simp] theorem setResponse_frRem (r : Option Response) : (s.setResponse r).frRem = s.frRem := rfl
@[simp] theorem setResponse_input (r : Option Response) : (s.setResponse r).input = s.input := rfl
@[simp] theorem setResponse_inPos (r : Option Response) : (s.setResponse r).inPos = s.inPos := rfl
@[simp] theorem setResponse_out (r : Option Response) : (s.setResponse r).out = s.out := rfl
@[simp] theorem setResponse_grids (r : Option Response) : (s.setResponse r).grids = s.grids := rfl
@[simp] theorem setResponse_nextHandle (r : Option Response) : (s.setResponse r).nextHandle = s.nextHandle := rfl
@[simp] theorem setResponse_response (r : Option Response) : (s.setResponse r).response = r := rfl
@[simp] theorem setResponse_host (r : Option Response) : (s.setResponse r).host = s.host := rfl
@[simp] theorem setResponse_freeCount (r : Option Response) : (s.setResponse r).freeCount = s.freeCount := rfl

/-! ### `setFramer` -/

@[simp] theorem setFramer_cfg (m : FrMode) (w h k : Nat) : (s.setFramer m w h k).cfg = s.cfg := rfl
@[simp] theorem setFramer_fault (m : FrMode) (w h k : Nat) : (s.setFramer m w h k).fault = s.fault := rfl
@[simp] theorem setFramer_frMode (m : FrMode) (w h k : Nat) : (s.setFramer m w h k).frMode = m := rfl
@[simp] theorem setFramer_frW (m : FrMode) (w h k : Nat) : (s.setFramer m w h k).frW = w := rfl
@[simp] theorem setFramer_frH (m : FrMode) (w h k : Nat) : (s.setFramer m w h k).frH = h := rfl
@[simp] theorem setFramer_frRem (m : FrMode) (w h k : Nat) : (s.setFramer m w h k).frRem = k := rfl
@[simp] theorem setFramer_input (m : FrMode) (w h k : Nat) : (s.setFramer m w h k).input = s.input := rfl
@[simp] theorem setFramer_inPos (m : FrMode) (w h k : Nat) : (s.setFramer m w h k).inPos = s.inPos := rfl
@[simp] theorem setFramer_out (m : FrMode) (w h k : Nat) : (s.setFramer m w h k).out = s.out := rfl
@[simp] theorem setFramer_grids (m : FrMode) (w h k : Nat) : (s.setFramer m w h k).grids = s.grids := rfl
@[simp] theorem setFramer_nextHandle (m : FrMode) (w h k : Nat) : (s.setFramer m w h k).nextHandle = s.nextHandle := rfl
@[simp] theorem setFramer_response (m : FrMode) (w h k : Nat) : (s.setFramer m w h k).response = s.response := rfl
@[simp] theorem setFramer_host (m : FrMode) (w h k : Nat) : (s.setFramer m w h k).host = s.host := rfl
@[simp] theorem setFramer_freeCount (m : FrMode) (w h k : Nat) : (s.setFramer m w h k).freeCount = s.freeCount := rfl

/-! ### `setInPos` -/

@[simp] theorem setInPos_cfg (p : Nat) : (s.setInPos p).cfg = s.cfg := rfl
@[simp] theorem setInPos_fault (p : Nat) : (s.setInPos p).fault = s.fault := rfl
@[simp] theorem setInPos_frMode (p : Nat) : (s.setInPos p).frMode = s.frMode := rfl
@[simp] theorem setInPos_frW (p : Nat) : (s.setInPos p).frW = s.frW := rfl
@[simp] theorem setInPos_frH (p : Nat) : (s.setInPos p).frH = s.frH := rfl
@[simp] theorem setInPos_frRem (p : Nat) : (s.setInPos p).frRem = s.frRem := rfl
@[simp] theorem setInPos_input (p : Nat) : (s.setInPos p).input = s.input := rfl
@[simp] theorem setInPos_inPos (p : Nat) : (s.setInPos p).inPos = p := rfl
@[simp] theorem setInPos_out (p : Nat) : (s.setInPos p).out = s.out := rfl
@[simp] theorem setInPos_grids (p : Nat) : (s.setInPos p).grids = s.grids := rfl
@[simp] theorem setInPos_nextHandle (p : Nat) : (s.setInPos p).nextHandle = s.nextHandle := rfl
@[simp] theorem setInPos_response (p : Nat) : (s.setInPos p).response = s.response := rfl
@[simp] theorem setInPos_host (p : Nat) : (s.setInPos p).host = s.host := rfl
@[simp] theorem setInPos_freeCount (p : Nat) : (s.setInPos p).freeCount = s.freeCount := rfl

/-! ### `setOut` -/

@[simp] theorem setOut_cfg (bs : List Byte) : (s.setOut bs).cfg = s.cfg := rfl
@[simp] theorem setOut_fault (bs : List Byte) : (s.setOut bs).fault = s.fault := rfl
@[simp] theorem setOut_frMode (bs : List Byte) : (s.setOut bs).frMode = s.frMode := rfl
@[simp] theorem setOut_frW (bs : List Byte) : (s.setOut bs).frW = s.frW := rfl
@[simp] theorem setOut_frH (bs : List Byte) : (s.setOut bs).frH = s.frH := rfl
@[simp] theorem setOut_frRem (bs : List Byte) : (s.setOut bs).frRem = s.frRem := rfl
@[simp] theorem setOut_input (bs : List Byte) : (s.setOut bs).input = s.input := rfl
@[simp] theorem setOut_inPos (bs : List Byte) : (s.setOut bs).inPos = s.inPos := rfl
@[simp] theorem setOut_out (bs : List Byte) : (s.setOut bs).out = bs := rfl
@[simp] theorem setOut_grids (bs : List Byte) : (s.setOut bs).grids = s.grids := rfl
@[simp] theorem setOut_nextHandle (bs : List Byte) : (s.setOut bs).nextHandle = s.nextHandle := rfl
@[simp] theorem setOut_response (bs : List Byte) : (s.setOut bs).response = s.response := rfl
@[simp] theorem setOut_host (bs : List Byte) : (s.setOut bs).host = s.host := rfl
@[simp] theorem setOut_freeCount (bs : List Byte) : (s.setOut bs).freeCount = s.freeCount := rfl

/-! ### `setGrids` -/

@[simp] theorem setGrids_cfg (g : Memory) : (s.setGrids g).cfg = s.cfg := rfl
@[simp] theorem setGrids_fault (g : Memory) : (s.setGrids g).fault = s.fault := rfl
@[simp] theorem setGrids_frMode (g : Memory) : (s.setGrids g).frMode = s.frMode := rfl
@[simp] theorem setGrids_frW (g : Memory) : (s.setGrids g).frW = s.frW := rfl
@[simp] theorem setGrids_frH (g : Memory) : (s.setGrids g).frH = s.frH := rfl
@[simp] theorem setGrids_frRem (g : Memory) : (s.setGrids g).frRem = s.frRem := rfl
@[simp] theorem setGrids_input (g : Memory) : (s.setGrids g).input = s.input := rfl
@[simp] theorem setGrids_inPos (g : Memory) : (s.setGrids g).inPos = s.inPos := rfl
@[simp] theorem setGrids_out (g : Memory) : (s.setGrids g).out = s.out := rfl
@[simp] theorem setGrids_grids (g : Memory) : (s.setGrids g).grids = g := rfl
@[simp] theorem setGrids_nextHandle (g : Memory) : (s.setGrids g).nextHandle = s.nextHandle := rfl
@[simp] theorem setGrids_response (g : Memory) : (s.setGrids g).response = s.response := rfl
@[simp] theorem setGrids_host (g : Memory) : (s.setGrids g).host = s.host := rfl
@[simp] theorem setGrids_freeCount (g : Memory) : (s.setGrids g).freeCount = s.freeCount := rfl

/-! ### `setNextHandle` -/

@[simp] theorem setNextHandle_cfg (n : Handle) : (s.setNextHandle n).cfg = s.cfg := rfl
@[simp] theorem setNextHandle_fault (n : Handle) : (s.setNextHandle n).fault = s.fault := rfl
@[simp] theorem setNextHandle_frMode (n : Handle) : (s.setNextHandle n).frMode = s.frMode := rfl
@[simp] theorem setNextHandle_frW (n : Handle) : (s.setNextHandle n).frW = s.frW := rfl
@[simp] theorem setNextHandle_frH (n : Handle) : (s.setNextHandle n).frH = s.frH := rfl
@[simp] theorem setNextHandle_frRem (n : Handle) : (s.setNextHandle n).frRem = s.frRem := rfl
@[simp] theorem setNextHandle_input (n : Handle) : (s.setNextHandle n).input = s.input := rfl
@[simp] theorem setNextHandle_inPos (n : Handle) : (s.setNextHandle n).inPos = s.inPos := rfl
@[simp] theorem setNextHandle_out (n : Handle) : (s.setNextHandle n).out = s.out := rfl
@[simp] theorem setNextHandle_grids (n : Handle) : (s.setNextHandle n).grids = s.grids := rfl
@[simp] theorem setNextHandle_nextHandle (n : Handle) : (s.setNextHandle n).nextHandle = n := rfl
@[simp] theorem setNextHandle_response (n : Handle) : (s.setNextHandle n).response = s.response := rfl
@[simp] theorem setNextHandle_host (n : Handle) : (s.setNextHandle n).host = s.host := rfl
@[simp] theorem setNextHandle_freeCount (n : Handle) : (s.setNextHandle n).freeCount = s.freeCount := rfl

/-! ### `setHost` -/

@[simp] theorem setHost_cfg (l : List HostAction) : (s.setHost l).cfg = s.cfg := rfl
@[simp] theorem setHost_fault (l : List HostAction) : (s.setHost l).fault = s.fault := rfl
@[simp] theorem setHost_frMode (l : List HostAction) : (s.setHost l).frMode = s.frMode := rfl
@[simp] theorem setHost_frW (l : List HostAction) : (s.setHost l).frW = s.frW := rfl
@[simp] theorem setHost_frH (l : List HostAction) : (s.setHost l).frH = s.frH := rfl
@[simp] theorem setHost_frRem (l : List HostAction) : (s.setHost l).frRem = s.frRem := rfl
@[simp] theorem setHost_input (l : List HostAction) : (s.setHost l).input = s.input := rfl
@[simp] theorem setHost_inPos (l : List HostAction) : (s.setHost l).inPos = s.inPos := rfl
@[simp] theorem setHost_out (l : List HostAction) : (s.setHost l).out = s.out := rfl
@[simp] theorem setHost_grids (l : List HostAction) : (s.setHost l).grids = s.grids := rfl
@[simp] theorem setHost_nextHandle (l : List HostAction) : (s.setHost l).nextHandle = s.nextHandle := rfl
@[simp] theorem setHost_response (l : List HostAction) : (s.setHost l).response = s.response := rfl
@[simp] theorem setHost_host (l : List HostAction) : (s.setHost l).host = l := rfl
@[simp] theorem setHost_freeCount (l : List HostAction) : (s.setHost l).freeCount = s.freeCount := rfl

/-! ### `setFreeCount` -/

@[simp] theorem setFreeCount_cfg (n : Nat) : (s.setFreeCount n).cfg = s.cfg := rfl
@[simp] theorem setFreeCount_fault (n : Nat) : (s.setFreeCount n).fault = s.fault := rfl
@[simp] theorem setFreeCount_frMode (n : Nat) : (s.setFreeCount n).frMode = s.frMode := rfl
@[simp] theorem setFreeCount_frW (n : Nat) : (s.setFreeCount n).frW = s.frW := rfl
@[simp] theorem setFreeCount_frH (n : Nat) : (s.setFreeCount n).frH = s.frH := rfl
@[simp] theorem setFreeCount_frRem (n : Nat) : (s.setFreeCount n).frRem = s.frRem := rfl
@[simp] theorem setFreeCount_input (n : Nat) : (s.setFreeCount n).input = s.input := rfl
@[simp] theorem setFreeCount_inPos (n : Nat) : (s.setFreeCount n).inPos = s.inPos := rfl
@[simp] theorem setFreeCount_out (n : Nat) : (s.setFreeCount n).out = s.out := rfl
@[simp] theorem setFreeCount_grids (n : Nat) : (s.setFreeCount n).grids = s.grids := rfl
@[simp] theorem setFreeCount_nextHandle (n : Nat) : (s.setFreeCount n).nextHandle = s.nextHandle := rfl
@[simp] theorem setFreeCount_response (n : Nat) : (s.setFreeCount n).response = s.response := rfl
@[simp] theorem setFreeCount_host (n : Nat) : (s.setFreeCount n).host = s.host := rfl
@[simp] theorem setFreeCount_freeCount (n : Nat) : (s.setFreeCount n).freeCount = n := rfl

/-! ### The halt depends on `FAULT` alone -/

@[simp] theorem setResponse_halted (r : Option Response) : (s.setResponse r).halted = s.halted := rfl
@[simp] theorem setFramer_halted (m : FrMode) (w h k : Nat) : (s.setFramer m w h k).halted = s.halted := rfl
@[simp] theorem setInPos_halted (p : Nat) : (s.setInPos p).halted = s.halted := rfl
@[simp] theorem setOut_halted (bs : List Byte) : (s.setOut bs).halted = s.halted := rfl
@[simp] theorem setGrids_halted (g : Memory) : (s.setGrids g).halted = s.halted := rfl
@[simp] theorem setNextHandle_halted (n : Handle) : (s.setNextHandle n).halted = s.halted := rfl
@[simp] theorem setHost_halted (l : List HostAction) : (s.setHost l).halted = s.halted := rfl
@[simp] theorem setFreeCount_halted (n : Nat) : (s.setFreeCount n).halted = s.halted := rfl

/-- Not halted, said of `FAULT`. -/
theorem halted_eq_false {s : State} (h : s.fault = 0#3) : s.halted = false := by simp [State.halted, h]

/-- Halted, said of `FAULT`. -/
theorem halted_eq_true {s : State} (h : s.fault ≠ 0#3) : s.halted = true := by simp [State.halted, h]

end Sys2Proof.Machine.State
end

