-- ==== Sys2Proof/Laws/Ops.lean ====
section
/-! SUPPORT. What each shared operation can do: the answer of a halted block, a delivered result, a fault, a refusal. -/

namespace Sys2Proof.Machine

/-! ### Codes -/

/-- The code of an error is not 0 (R29). -/
@[simp] theorem ErrorKind.code_ne_zero (e : ErrorKind) : e.code ≠ 0#3 := by cases e <;> decide

/-- No error has a code above 5 (R29). -/
theorem ErrorKind.code_le_five (e : ErrorKind) : e.code.toNat ≤ 5 := by cases e <;> decide

/-- Different errors have different codes (R281). -/
theorem ErrorKind.code_injective {e f : ErrorKind} (h : e.code = f.code) : e = f := by
  cases e <;> cases f <;> first | rfl | exact absurd h (by decide)

/-! ### The halt -/

/-- A running block evaluates the operation. -/
theorem issue_running {s : State} (h : s.fault = 0#3) (k : State → StepResult) : issue s k = k s := by
  simp [issue, State.halted_eq_false h]

/-- A halted block answers with its code (R283). -/
theorem issue_halted {s : State} (h : s.fault ≠ 0#3) (k : State → StepResult) : issue s k = .next (answerHalted s) := by
  simp [issue, State.halted_eq_true h]

/-- Issuing an operation: the halt's answer, or the operation's. -/
theorem issue_next {s t : State} {k : State → StepResult} (h : issue s k = .next t) :
    (s.fault ≠ 0#3 ∧ t = answerHalted s) ∨ (s.fault = 0#3 ∧ k s = .next t) := by
  by_cases hf : s.fault = 0#3
  · exact .inr ⟨hf, by rwa [issue_running hf] at h⟩
  · refine .inl ⟨hf, ?_⟩
    rw [issue_halted hf] at h
    exact (Host.Outcome.next.inj h).symm

/-! ### Completing -/

theorem deliver_eq (r : Result) (s : State) : deliver r s = .next (s.setResponse (some ⟨s.fault, some r⟩)) := rfl

theorem complete_eq (s : State) : complete s = .next (s.setResponse (some ⟨s.fault, none⟩)) := rfl

theorem deliver_running {s : State} (h : s.fault = 0#3) (r : Result) : deliver r s = .next (s.delivering r) := by
  rw [deliver_eq, h]; rfl

theorem complete_running {s : State} (h : s.fault = 0#3) : complete s = .next s.completing := by
  rw [complete_eq, h]; rfl

/-! ### Raising (R280) -/

/-- The first fault sets the code. -/
theorem raise_running {s : State} (h : s.fault = 0#3) (e : ErrorKind) : raise e s = .next (s.faulting e) := by
  simp [raise, h, State.faulting]

/-- A later fault leaves the first code. -/
theorem raise_halted {s : State} (h : s.fault ≠ 0#3) (e : ErrorKind) : raise e s = .next (answerHalted s) := by
  simp only [raise, h, if_false]
  rfl

theorem finish_ok (r : Result) (s : State) : finish (.ok r) s = deliver r s := rfl

theorem finish_error (e : ErrorKind) (s : State) : finish (.error e) s = raise e s := rfl

/-- Finishing an operation of a running block: a delivered result, or a fault. -/
theorem finish_next {s t : State} {r : Except ErrorKind Result} (hs : s.fault = 0#3) (h : finish r s = .next t) :
    (∃ v, r = .ok v ∧ t = s.delivering v) ∨ (∃ e, r = .error e ∧ t = s.faulting e) := by
  cases r with
  | ok v => exact .inl ⟨v, rfl, by rw [finish_ok, deliver_running hs] at h; exact (Host.Outcome.next.inj h).symm⟩
  | error e => exact .inr ⟨e, rfl, by rw [finish_error, raise_running hs] at h; exact (Host.Outcome.next.inj h).symm⟩

theorem finishF_some (r : Result) (s : State) : finishF (some r) s = deliver r s := rfl

theorem finishF_none (s : State) : finishF none s = .refused .nonFinite := rfl

/-- Finishing an operation on values of `F`: the only next state delivers its result. -/
theorem finishF_next {s t : State} {r : Option Result} (hs : s.fault = 0#3) (h : finishF r s = .next t) :
    ∃ v, r = some v ∧ t = s.delivering v := by
  cases r with
  | none => exact absurd h (by simp [finishF])
  | some v => exact ⟨v, rfl, by rw [finishF_some, deliver_running hs] at h; exact (Host.Outcome.next.inj h).symm⟩

/-! ### Handles (R140) -/

theorem withLive_some {g : Handle} {s : State} {d : Grid} (h : Store.find g s.grids = some d) (k : Grid → StepResult) :
    withLive g s k = k d := by simp [withLive, h]

theorem withLive_none {g : Handle} {s : State} (h : Store.find g s.grids = none) (k : Grid → StepResult) :
    withLive g s k = .refused (.deadHandle g) := by simp [withLive, h]

theorem withLive_next {g : Handle} {s t : State} {k : Grid → StepResult} (h : withLive g s k = .next t) :
    ∃ d, Store.find g s.grids = some d ∧ k d = .next t := by
  cases hd : Store.find g s.grids with
  | none => exact absurd (withLive_none hd k ▸ h) (by simp)
  | some d => exact ⟨d, rfl, withLive_some hd k ▸ h⟩

/-! ### The framer's modes (R228) -/

namespace Framer

theorem inMode_pos {m : FrMode} {s : State} (h : s.frMode = m) (r : StepResult) : inMode m s r = r := by simp [inMode, h]

theorem inMode_neg {m : FrMode} {s : State} (h : s.frMode ≠ m) (r : StepResult) :
    inMode m s r = .refused (.wrongFramerMode s.frMode) := by simp [inMode, h]

theorem inMode_next {m : FrMode} {s t : State} {r : StepResult} (h : inMode m s r = .next t) : s.frMode = m ∧ r = .next t := by
  by_cases hm : s.frMode = m
  · exact ⟨hm, inMode_pos hm r ▸ h⟩
  · exact absurd (inMode_neg hm r ▸ h) (by simp)

end Framer

/-! ### Fields of an answer -/

section Fields

variable (s : State)

@[simp] theorem State.delivering_fault (r : Result) : (s.delivering r).fault = s.fault := rfl
@[simp] theorem State.delivering_response (r : Result) : (s.delivering r).response = some ⟨0#3, some r⟩ := rfl
@[simp] theorem State.delivering_grids (r : Result) : (s.delivering r).grids = s.grids := rfl
@[simp] theorem State.delivering_cfg (r : Result) : (s.delivering r).cfg = s.cfg := rfl
@[simp] theorem State.delivering_frMode (r : Result) : (s.delivering r).frMode = s.frMode := rfl
@[simp] theorem State.delivering_frRem (r : Result) : (s.delivering r).frRem = s.frRem := rfl
@[simp] theorem State.delivering_out (r : Result) : (s.delivering r).out = s.out := rfl
@[simp] theorem State.completing_fault : s.completing.fault = s.fault := rfl
@[simp] theorem State.completing_response : s.completing.response = some ⟨0#3, none⟩ := rfl
@[simp] theorem State.completing_grids : s.completing.grids = s.grids := rfl
@[simp] theorem State.completing_cfg : s.completing.cfg = s.cfg := rfl
@[simp] theorem State.completing_frMode : s.completing.frMode = s.frMode := rfl
@[simp] theorem State.completing_frRem : s.completing.frRem = s.frRem := rfl
@[simp] theorem State.completing_out : s.completing.out = s.out := rfl
@[simp] theorem State.faulting_fault (e : ErrorKind) : (s.faulting e).fault = e.code := rfl
@[simp] theorem State.faulting_response (e : ErrorKind) : (s.faulting e).response = some ⟨e.code, none⟩ := rfl

end Fields

end Sys2Proof.Machine
end

