-- ==== Sys2Proof/Laws/BitField.lean ====
section
/-! SUPPORT. The functions of the BitField unit, bit by bit and as numbers. -/

namespace Sys2Proof.Machine.BitField

/-! ### The parameter check (R110) -/

theorem checked_pos {α : Type} {width lsb : Nat} (h : width + lsb ≤ 64) (r : Except ErrorKind α) :
    checked width lsb r = r := by
  unfold checked
  rw [if_neg (by omega)]

theorem checked_neg {α : Type} {width lsb : Nat} (h : 64 < width + lsb) (r : Except ErrorKind α) :
    checked width lsb r = .error .rangeError := by
  unfold checked
  rw [if_pos (by omega)]

/-! ### Fitting (R112, R113) -/

theorem two_pow_le_64 {width : Nat} (h : width ≤ 64) : 2 ^ width ≤ 2 ^ 64 := Nat.pow_le_pow_right (by norm_num) h

theorem fitsUnsigned_iff {value : Word} {width : Nat} : fitsUnsigned value width = true ↔ value.toNat < 2 ^ width ∨ width = 64 := by
  have := Nat.two_pow_pos width
  simp only [fitsUnsigned, Bool.or_eq_true, beq_iff_eq, decide_eq_true_eq]
  omega

theorem fitsUnsigned_iff_lt {value : Word} {width : Nat} (h : width ≤ 64) :
    fitsUnsigned value width = true ↔ value.toNat < 2 ^ width := by
  rw [fitsUnsigned_iff]
  have := value.isLt
  constructor
  · rintro (h | rfl) <;> assumption
  · exact .inl

theorem toInt_range (v : Word) : -(2 ^ 63 : Int) ≤ v.toInt ∧ v.toInt ≤ 2 ^ 63 - 1 := by
  have h1 := BitVec.le_toInt v
  have h2 := BitVec.toInt_lt (x := v)
  constructor
  · simpa using h1
  · have : v.toInt < 2 ^ 63 := by simpa using h2
    omega

theorem fitsSigned_iff {value : Word} {width : Nat} : fitsSigned value width = true ↔ FitsSigned value width := by
  unfold fitsSigned FitsSigned
  split_ifs with h h2
  · simp
  · subst h2
    have := toInt_range value
    simpa using this
  · simp

/-! ### Fields (R111, R114, R115) -/

theorem shr64_toNat (x : Word) (n : Nat) : (shr64 x n).toNat = x.toNat / 2 ^ n := by
  unfold shr64
  split_ifs with h
  · subst h
    have := x.isLt
    simp [Nat.div_eq_of_lt this]
  · simp [Nat.shiftRight_eq_div_pow]

theorem fieldOf_eq (word : Word) (width lsb : Nat) : fieldOf word width lsb = word.toNat / 2 ^ lsb % 2 ^ width := by
  rw [fieldOf, shr64_toNat]

theorem fieldOf_lt (word : Word) (width lsb : Nat) : fieldOf word width lsb < 2 ^ width := Nat.mod_lt _ (Nat.two_pow_pos _)

theorem fieldOf_testBit (word : Word) (width lsb i : Nat) :
    (fieldOf word width lsb).testBit i = (decide (i < width) && word.getLsbD (lsb + i)) := by
  rw [fieldOf_eq, Nat.testBit_mod_two_pow, Nat.testBit_div_two_pow, BitVec.getLsbD, Nat.add_comm]

theorem getUnsigned_pos {width lsb : Nat} (h : width + lsb ≤ 64) (word : Word) :
    getUnsigned word width lsb = .ok (BitVec.ofNat 64 (fieldOf word width lsb)) := by
  rw [getUnsigned, checked_pos h]

theorem getUnsigned_toNat {width lsb : Nat} (h : width + lsb ≤ 64) (word : Word) :
    (BitVec.ofNat 64 (fieldOf word width lsb)).toNat = fieldOf word width lsb := by
  rw [BitVec.toNat_ofNat, Nat.mod_eq_of_lt]
  exact (fieldOf_lt ..).trans_le (two_pow_le_64 (by omega))

theorem getSigned_pos {width lsb : Nat} (h : width + lsb ≤ 64) (word : Word) :
    getSigned word width lsb =
      .ok (if width = 0 then 0 else BitVec.ofInt 64 (sext (fieldOf word width lsb) width)) := by
  rw [getSigned, checked_pos h]

/-- Sign extension stays in the signed range of the width. -/
theorem sext_range {v w : Nat} (hw : 0 < w) (hv : v < 2 ^ w) :
    -(2 ^ (w - 1) : Int) ≤ sext v w ∧ sext v w ≤ 2 ^ (w - 1) - 1 := by
  obtain ⟨k, rfl⟩ : ∃ k, w = k + 1 := ⟨w - 1, by omega⟩
  have h2 : (2 ^ (k + 1) : Nat) = 2 * 2 ^ k := by ring
  have hc : ((2 ^ k : Nat) : Int) = 2 ^ k := by push_cast; rfl
  have hc2 : ((2 ^ (k + 1) : Nat) : Int) = 2 * 2 ^ k := by push_cast; ring
  simp only [Nat.add_sub_cancel, sext]
  split_ifs with h <;> omega

theorem two_pow_le_63 {w : Nat} (h : w ≤ 64) : (2 ^ (w - 1) : Int) ≤ 2 ^ 63 :=
  pow_le_pow_right₀ (by norm_num) (by omega)

theorem toInt_ofInt_of_range {x : Int} (h1 : -(2 ^ 63 : Int) ≤ x) (h2 : x ≤ 2 ^ 63 - 1) : (BitVec.ofInt 64 x).toInt = x := by
  rw [BitVec.toInt_ofInt, Int.bmod_eq_of_le] <;> omega

theorem sext_toInt {v w : Nat} (hw : 0 < w) (hw2 : w ≤ 64) (hv : v < 2 ^ w) :
    (BitVec.ofInt 64 (sext v w)).toInt = sext v w := by
  have h := sext_range hw hv
  have h2 := two_pow_le_63 hw2
  exact toInt_ofInt_of_range (by omega) (by omega)

/-! ### Insertion (R116, R117) -/

theorem mask_getLsbD {width : Nat} (i : Nat) : (mask width).getLsbD i = (decide (i < 64) && decide (i < width)) := by
  rw [mask, BitVec.getLsbD_ofNat, Nat.testBit_two_pow_sub_one]

theorem getLsbD_of_fits {value : Word} {width i : Nat} (hv : value.toNat < 2 ^ width) (hi : width ≤ i) :
    value.getLsbD i = false := by
  rw [BitVec.getLsbD]
  exact Nat.testBit_lt_two_pow (hv.trans_le (Nat.pow_le_pow_right (by norm_num) hi))

/-- Insertion, bit by bit. -/
theorem insertField_getLsbD {word value : Word} {width lsb : Nat} (h : width + lsb ≤ 64) (hv : value.toNat < 2 ^ width)
    {i : Nat} (hi : i < 64) :
    (insertField word width lsb value).getLsbD i =
      if lsb ≤ i ∧ i < lsb + width then value.getLsbD (i - lsb) else word.getLsbD i := by
  unfold insertField
  split_ifs with h0 h64 hr hr hr
  · omega
  · rfl
  · have : lsb = 0 := by omega
    subst this
    rfl
  · omega
  · have hl : lsb ≠ 64 := by omega
    simp only [shl64, if_neg hl, BitVec.getLsbD_or, BitVec.getLsbD_and, BitVec.getLsbD_not, BitVec.getLsbD_shiftLeft,
      mask_getLsbD]
    have h1 : decide (i < lsb) = false := by simpa using hr.1
    have h2 : decide (i - lsb < width) = true := by simp; omega
    have h3 : decide (i - lsb < 64) = true := by simp; omega
    simp [hi, h1, h2, h3]
  · have hl : lsb ≠ 64 := by omega
    simp only [shl64, if_neg hl, BitVec.getLsbD_or, BitVec.getLsbD_and, BitVec.getLsbD_not, BitVec.getLsbD_shiftLeft,
      mask_getLsbD]
    by_cases hil : i < lsb
    · simp [hi, hil]
    · have h2 : decide (i - lsb < width) = false := by simp; omega
      have h3 : value.getLsbD (i - lsb) = false := getLsbD_of_fits hv (by omega)
      simp [hi, h2, h3]

theorem setUnsigned_eq {word value : Word} {width lsb : Nat} (h : width + lsb ≤ 64) :
    setUnsigned word width lsb value =
      if value.toNat < 2 ^ width then .ok (insertField word width lsb value) else .error .overflowError := by
  rw [setUnsigned, checked_pos h]
  simp only [fitsUnsigned_iff_lt (value := value) (show width ≤ 64 by omega)]

/-- The unsigned setter completes exactly when the parameters are in range and the value fits. -/
theorem setUnsigned_ok {word value r : Word} {width lsb : Nat} :
    setUnsigned word width lsb value = .ok r ↔
      width + lsb ≤ 64 ∧ value.toNat < 2 ^ width ∧ r = insertField word width lsb value := by
  by_cases h : width + lsb ≤ 64
  · rw [setUnsigned_eq h]
    split_ifs with hv <;> simp [h, hv, eq_comm]
  · rw [setUnsigned, checked_neg (by omega)]
    simp [h]

/-- The pattern of a value that fits `width` bits, as a word. -/
def pattern (value : Word) (width : Nat) : Word := BitVec.ofNat 64 (tc value.toInt width)

theorem tc_eq {value : Word} {width : Nat} (h : width ≤ 64) : tc value.toInt width = value.toNat % 2 ^ width := by
  have hdvd : ((2 ^ width : Nat) : Int) ∣ ((2 ^ 64 : Nat) : Int) := by
    exact_mod_cast Nat.pow_dvd_pow 2 h
  have hto : value.toInt % ((2 ^ width : Nat) : Int) = (value.toNat : Int) % ((2 ^ width : Nat) : Int) := by
    rw [BitVec.toInt_eq_toNat_cond]
    split_ifs
    · rfl
    · rw [Int.sub_emod, Int.emod_eq_zero_of_dvd hdvd, sub_zero, Int.emod_emod]
  unfold tc
  rw [hto]
  exact_mod_cast Int.toNat_natCast _

theorem pattern_toNat {value : Word} {width : Nat} (h : width ≤ 64) : (pattern value width).toNat = value.toNat % 2 ^ width := by
  rw [pattern, tc_eq h, BitVec.toNat_ofNat, Nat.mod_eq_of_lt]
  exact (Nat.mod_lt _ (Nat.two_pow_pos _)).trans_le (two_pow_le_64 h)

theorem pattern_fits {value : Word} {width : Nat} (h : width ≤ 64) : (pattern value width).toNat < 2 ^ width := by
  rw [pattern_toNat h]
  exact Nat.mod_lt _ (Nat.two_pow_pos _)

theorem pattern_getLsbD {value : Word} {width i : Nat} (h : width ≤ 64) (hi : i < width) :
    (pattern value width).getLsbD i = value.getLsbD i := by
  rw [BitVec.getLsbD, pattern_toNat h, Nat.testBit_mod_two_pow]
  simp [hi, BitVec.getLsbD]

/-- The signed setter completes exactly when the parameters are in range and the value fits; it inserts its pattern. -/
theorem setSigned_ok {word value r : Word} {width lsb : Nat} :
    setSigned word width lsb value = .ok r ↔
      width + lsb ≤ 64 ∧ FitsSigned value width ∧ r = insertField word width lsb (pattern value width) := by
  by_cases h : width + lsb ≤ 64
  · rw [setSigned, checked_pos h]
    have hp : setUnsigned word width lsb (BitVec.ofNat 64 (tc value.toInt width)) =
        .ok (insertField word width lsb (pattern value width)) :=
      setUnsigned_ok.2 ⟨h, pattern_fits (by omega), rfl⟩
    rw [hp]
    by_cases hf : fitsSigned value width = true
    · rw [if_pos hf]
      simp [h, fitsSigned_iff.1 hf, eq_comm]
    · rw [if_neg hf]
      simp [h, show ¬ FitsSigned value width from fun hc => hf (fitsSigned_iff.2 hc)]
  · rw [setSigned, checked_neg (by omega)]
    simp [h]

theorem setUnsigned_error {word value : Word} {width lsb : Nat} {e : ErrorKind} :
    setUnsigned word width lsb value = .error e ↔
      (e = .rangeError ∧ 64 < width + lsb) ∨ (e = .overflowError ∧ width + lsb ≤ 64 ∧ 2 ^ width ≤ value.toNat) := by
  by_cases h : width + lsb ≤ 64
  · rw [setUnsigned_eq h]
    split_ifs with hv
    · simp only [false_iff]; omega
    · simp only [Except.error.injEq]
      constructor
      · rintro rfl; exact .inr ⟨rfl, h, by omega⟩
      · rintro (⟨-, h'⟩ | ⟨rfl, -⟩)
        · omega
        · rfl
  · rw [setUnsigned, checked_neg (by omega)]
    simp only [Except.error.injEq]
    constructor
    · rintro rfl; exact .inl ⟨rfl, by omega⟩
    · rintro (⟨rfl, -⟩ | ⟨-, h', -⟩)
      · rfl
      · omega

theorem setSigned_error {word value : Word} {width lsb : Nat} {e : ErrorKind} :
    setSigned word width lsb value = .error e ↔
      (e = .rangeError ∧ 64 < width + lsb) ∨ (e = .overflowError ∧ width + lsb ≤ 64 ∧ ¬ FitsSigned value width) := by
  by_cases h : width + lsb ≤ 64
  · by_cases hf : FitsSigned value width
    · rw [setSigned_ok.2 ⟨h, hf, rfl⟩]
      simp [hf]; omega
    · rw [setSigned, checked_pos h, if_neg (fun hc => hf (fitsSigned_iff.1 hc))]
      simp only [Except.error.injEq]
      constructor
      · rintro rfl; exact .inr ⟨rfl, h, hf⟩
      · rintro (⟨-, h'⟩ | ⟨rfl, -⟩)
        · omega
        · rfl
  · rw [setSigned, checked_neg (by omega)]
    simp only [Except.error.injEq]
    constructor
    · rintro rfl; exact .inl ⟨rfl, by omega⟩
    · rintro (⟨rfl, -⟩ | ⟨-, h', -⟩)
      · rfl
      · omega

/-! ### Reading what was inserted (R124, R125) -/

/-- The field of a word that agrees with a value on the field's bits is the value. -/
theorem fieldOf_of_bits {word value : Word} {width lsb : Nat} (hv : value.toNat < 2 ^ width)
    (h : ∀ j, j < width → word.getLsbD (lsb + j) = value.getLsbD j) : fieldOf word width lsb = value.toNat := by
  apply Nat.eq_of_testBit_eq
  intro j
  rw [fieldOf_testBit]
  by_cases hj : j < width
  · rw [h j hj]
    simp [hj, BitVec.getLsbD]
  · have := getLsbD_of_fits (i := j) hv (by omega)
    rw [BitVec.getLsbD] at this
    simp [hj, this]

/-- The inserted field reads back. -/
theorem fieldOf_insertField {word value : Word} {width lsb : Nat} (h : width + lsb ≤ 64) (hv : value.toNat < 2 ^ width) :
    fieldOf (insertField word width lsb value) width lsb = value.toNat := by
  apply fieldOf_of_bits hv
  intro j hj
  rw [insertField_getLsbD h hv (by omega), if_pos (by omega)]
  congr 1
  omega

/-- A field that does not overlap the inserted one reads as before. -/
theorem fieldOf_insertField_of_disjoint {word value : Word} {width lsb w l : Nat} (h : width + lsb ≤ 64)
    (hv : value.toNat < 2 ^ width) (hd : l + w ≤ lsb ∨ lsb + width ≤ l) (hl : w + l ≤ 64) :
    fieldOf (insertField word width lsb value) w l = fieldOf word w l := by
  apply Nat.eq_of_testBit_eq
  intro j
  rw [fieldOf_testBit, fieldOf_testBit]
  by_cases hj : j < w
  · rw [insertField_getLsbD h hv (by omega), if_neg (by omega)]
  · simp [hj]

/-- Sign extension undoes the pattern of a value that fits. -/
theorem sext_pattern {value : Word} {width : Nat} (hw : 0 < width) (h : width ≤ 64) (hv : FitsSigned value width) :
    sext (pattern value width).toNat width = value.toInt := by
  rw [FitsSigned, if_neg (by omega)] at hv
  have hp : ((pattern value width).toNat : Int) = value.toInt % (2 ^ width : Nat) := by
    have h1 : (pattern value width).toNat = tc value.toInt width := by rw [pattern_toNat h, tc_eq h]
    rw [h1, tc, Int.toNat_of_nonneg]
    exact Int.emod_nonneg _ (by have := Nat.two_pow_pos width; omega)
  obtain ⟨k, rfl⟩ : ∃ k, width = k + 1 := ⟨width - 1, by omega⟩
  have hk : ((2 ^ (k + 1) : Nat) : Int) = 2 * 2 ^ k := by push_cast; ring
  have hc : ((2 ^ k : Nat) : Int) = 2 ^ k := by push_cast; rfl
  have hpos : (0 : Int) < 2 ^ k := by positivity
  simp only [Nat.add_sub_cancel] at hv
  unfold sext
  simp only [Nat.add_sub_cancel]
  rw [hk] at hp ⊢
  rcases le_or_gt 0 value.toInt with h0 | h0
  · have : value.toInt % (2 * 2 ^ k) = value.toInt := Int.emod_eq_of_lt h0 (by omega)
    rw [this] at hp
    rw [if_neg (by omega), hp]
  · have : value.toInt % (2 * 2 ^ k) = value.toInt + 2 * 2 ^ k := by
      rw [← Int.add_emod_right, Int.emod_eq_of_lt] <;> omega
    rw [this] at hp
    rw [if_pos (by omega), hp]
    ring

/-- Sign extension is injective below `2^w`, and its pattern is what was extended. -/
theorem pattern_sext {v w : Nat} (hw : 0 < w) (hw2 : w ≤ 64) (hv : v < 2 ^ w) :
    (pattern (BitVec.ofInt 64 (sext v w)) w).toNat = v := by
  have h1 : (pattern (BitVec.ofInt 64 (sext v w)) w).toNat = tc (BitVec.ofInt 64 (sext v w)).toInt w := by
    rw [pattern_toNat hw2, tc_eq hw2]
  rw [h1, sext_toInt hw hw2 hv, tc]
  unfold sext
  have : (v : Int) % ((2 ^ w : Nat) : Int) = v := Int.emod_eq_of_lt (by omega) (by exact_mod_cast hv)
  split_ifs
  · rw [Int.sub_emod_right, this, Int.toNat_natCast]
  · rw [this, Int.toNat_natCast]

end Sys2Proof.Machine.BitField
end

