-- ==== Sys2Proof/Laws/Codec.lean ====
section
/-! SUPPORT. The codec: when packing completes, what each field of a packed word is, and that packing and unpacking undo
each other. -/

namespace Sys2Proof.Machine.Codec

open BitField

/-! ### Fields that fit -/

theorem fitsSigned_five {v : Word} : FitsSigned v 5 ↔ -16 ≤ v.toInt ∧ v.toInt ≤ 15 := by
  unfold FitsSigned
  norm_num

/-- A block fits a codeword exactly when each value fits its field (R80, R222). -/
theorem fitsCodeword_iff {q : QuantizedBlock} :
    FitsCodeword q ↔ q.a.toNat < 2 ^ 9 ∧ FitsSigned q.b 5 ∧ FitsSigned q.c 5 ∧ FitsSigned q.d 5 ∧
      q.indexPb.toNat < 2 ^ 4 ∧ q.indexPr.toNat < 2 ^ 4 := by
  simp only [FitsCodeword, fitsSigned_five]
  constructor <;> rintro ⟨h1, h2, h3, h4, h5, h6⟩ <;> refine ⟨by omega, h2, h3, h4, by omega, by omega⟩

theorem inDeclaredRange_fits {q : QuantizedBlock} (h : InDeclaredRange q) : FitsCodeword q := by
  obtain ⟨h1, h2, h3, h4, h5, h6⟩ := h
  exact ⟨h1, by omega, by omega, by omega, h5, h6⟩

/-- The word that packing a block that fits gives. -/
def packed (q : QuantizedBlock) : Word :=
  insertField (insertField (insertField (insertField (insertField (insertField 0 9 23 q.a) 5 18 (pattern q.b 5)) 5 13
    (pattern q.c 5)) 5 8 (pattern q.d 5)) 4 4 q.indexPb) 4 0 q.indexPr

/-- Packing a block that fits completes. -/
theorem pack_of_fits {q : QuantizedBlock} (h : FitsCodeword q) : pack q = .ok (packed q) := by
  obtain ⟨h1, h2, h3, h4, h5, h6⟩ := fitsCodeword_iff.1 h
  simp only [pack, setUnsigned_ok.2 ⟨show 9 + 23 ≤ 64 by norm_num, h1, rfl⟩, bind, Except.bind,
    setSigned_ok.2 ⟨show 5 + 18 ≤ 64 by norm_num, h2, rfl⟩, setSigned_ok.2 ⟨show 5 + 13 ≤ 64 by norm_num, h3, rfl⟩,
    setSigned_ok.2 ⟨show 5 + 8 ≤ 64 by norm_num, h4, rfl⟩, setUnsigned_ok.2 ⟨show 4 + 4 ≤ 64 by norm_num, h5, rfl⟩,
    setUnsigned_ok.2 ⟨show 4 + 0 ≤ 64 by norm_num, h6, rfl⟩]
  rfl

theorem setUnsigned_overflow {word value : Word} {width lsb : Nat} (h : width + lsb ≤ 64) (hv : ¬ value.toNat < 2 ^ width) :
    setUnsigned word width lsb value = .error .overflowError := setUnsigned_error.2 (.inr ⟨rfl, h, by omega⟩)

theorem setSigned_overflow {word value : Word} {width lsb : Nat} (h : width + lsb ≤ 64) (hv : ¬ FitsSigned value width) :
    setSigned word width lsb value = .error .overflowError := setSigned_error.2 (.inr ⟨rfl, h, hv⟩)

theorem ok_bind (a : Word) (f : Word → Except ErrorKind Word) : (Except.ok a >>= f) = f a := rfl

/-- Packing a block with a field that does not fit overflows, whichever it is (R221, R290 item 4). -/
theorem pack_of_not_fits {q : QuantizedBlock} (h : ¬ FitsCodeword q) : pack q = .error .overflowError := by
  rw [fitsCodeword_iff] at h
  unfold pack
  by_cases h1 : q.a.toNat < 2 ^ 9
  · rw [setUnsigned_ok.2 ⟨by norm_num, h1, rfl⟩, ok_bind]
    by_cases h2 : FitsSigned q.b 5
    · rw [setSigned_ok.2 ⟨by norm_num, h2, rfl⟩, ok_bind]
      by_cases h3 : FitsSigned q.c 5
      · rw [setSigned_ok.2 ⟨by norm_num, h3, rfl⟩, ok_bind]
        by_cases h4 : FitsSigned q.d 5
        · rw [setSigned_ok.2 ⟨by norm_num, h4, rfl⟩, ok_bind]
          by_cases h5 : q.indexPb.toNat < 2 ^ 4
          · rw [setUnsigned_ok.2 ⟨by norm_num, h5, rfl⟩, ok_bind]
            exact setUnsigned_overflow (by norm_num) (fun h6 => h ⟨h1, h2, h3, h4, h5, h6⟩)
          · rw [setUnsigned_overflow (by norm_num) h5]; rfl
        · rw [setSigned_overflow (by norm_num) h4]; rfl
      · rw [setSigned_overflow (by norm_num) h3]; rfl
    · rw [setSigned_overflow (by norm_num) h2]; rfl
  · rw [setUnsigned_overflow (by norm_num) h1]; rfl

theorem encode_of_fits {q : QuantizedBlock} (h : FitsCodeword q) : encode q = .ok (packed q, toBytes (packed q)) := by
  rw [encode, pack_of_fits h]; rfl

theorem encode_of_not_fits {q : QuantizedBlock} (h : ¬ FitsCodeword q) : encode q = .error .overflowError := by
  rw [encode, pack_of_not_fits h]; rfl

theorem encode_ok {q : QuantizedBlock} {r : Word × List Byte} (h : encode q = .ok r) :
    FitsCodeword q ∧ r = (packed q, toBytes (packed q)) := by
  by_cases hq : FitsCodeword q
  · rw [encode_of_fits hq] at h
    exact ⟨hq, (Except.ok.inj h).symm⟩
  · rw [encode_of_not_fits hq] at h
    cases h

theorem toBytes_length (w : Word) : (toBytes w).length = 4 := rfl

/-! ### The fields of a packed word -/

section Packed

variable {q : QuantizedBlock} (h : FitsCodeword q)

include h

theorem packed_fields :
    fieldOf (packed q) 9 23 = q.a.toNat ∧ fieldOf (packed q) 5 18 = (pattern q.b 5).toNat ∧
      fieldOf (packed q) 5 13 = (pattern q.c 5).toNat ∧ fieldOf (packed q) 5 8 = (pattern q.d 5).toNat ∧
      fieldOf (packed q) 4 4 = q.indexPb.toNat ∧ fieldOf (packed q) 4 0 = q.indexPr.toNat ∧
      ∀ i, 32 ≤ i → i < 64 → (packed q).getLsbD i = false := by
  obtain ⟨h1, h2, h3, h4, h5, h6⟩ := fitsCodeword_iff.1 h
  have pb := pattern_fits (value := q.b) (width := 5) (by norm_num)
  have pc := pattern_fits (value := q.c) (width := 5) (by norm_num)
  have pd := pattern_fits (value := q.d) (width := 5) (by norm_num)
  unfold packed
  refine ⟨?_, ?_, ?_, ?_, ?_, ?_, ?_⟩
  · iterate 5 rw [fieldOf_insertField_of_disjoint (by norm_num) (by assumption) (by norm_num) (by norm_num)]
    exact fieldOf_insertField (by norm_num) h1
  · iterate 4 rw [fieldOf_insertField_of_disjoint (by norm_num) (by assumption) (by norm_num) (by norm_num)]
    exact fieldOf_insertField (by norm_num) pb
  · iterate 3 rw [fieldOf_insertField_of_disjoint (by norm_num) (by assumption) (by norm_num) (by norm_num)]
    exact fieldOf_insertField (by norm_num) pc
  · iterate 2 rw [fieldOf_insertField_of_disjoint (by norm_num) (by assumption) (by norm_num) (by norm_num)]
    exact fieldOf_insertField (by norm_num) pd
  · rw [fieldOf_insertField_of_disjoint (by norm_num) (by assumption) (by norm_num) (by norm_num)]
    exact fieldOf_insertField (by norm_num) h5
  · exact fieldOf_insertField (by norm_num) h6
  · intro i hi hi2
    iterate 6 rw [insertField_getLsbD (by norm_num) (by assumption) hi2, if_neg (by omega)]
    simp

end Packed

/-- A number below `2^32` is the sum of its six fields. -/
theorem sum_of_fields (w : Nat) (h : w < 2 ^ 32) :
    w = w / 2 ^ 23 % 2 ^ 9 * 2 ^ 23 + w / 2 ^ 18 % 2 ^ 5 * 2 ^ 18 + w / 2 ^ 13 % 2 ^ 5 * 2 ^ 13 + w / 2 ^ 8 % 2 ^ 5 * 2 ^ 8 +
      w / 2 ^ 4 % 2 ^ 4 * 2 ^ 4 + w / 2 ^ 0 % 2 ^ 4 := by omega

/-- A word whose upper half is zero, by its six fields. -/
theorem word_of_fields {w : Word} (h : ∀ i, 32 ≤ i → i < 64 → w.getLsbD i = false) :
    w.toNat < 2 ^ 32 ∧ w.toNat = fieldOf w 9 23 * 2 ^ 23 + fieldOf w 5 18 * 2 ^ 18 + fieldOf w 5 13 * 2 ^ 13 +
      fieldOf w 5 8 * 2 ^ 8 + fieldOf w 4 4 * 2 ^ 4 + fieldOf w 4 0 := by
  have hlt : w.toNat < 2 ^ 32 := by
    apply Nat.lt_pow_two_of_testBit
    intro i hi
    by_cases hi2 : i < 64
    · exact h i hi hi2
    · exact Nat.testBit_lt_two_pow (w.isLt.trans_le (Nat.pow_le_pow_right (by norm_num) (by omega)))
  refine ⟨hlt, ?_⟩
  simp only [fieldOf_eq]
  exact sum_of_fields _ hlt

/-! ### Bytes (R58, R84, R224) -/

theorem ofBytes_toNat (b0 b1 b2 b3 : Byte) :
    (ofBytes b0 b1 b2 b3).toNat = b0.toNat * 2 ^ 24 + b1.toNat * 2 ^ 16 + b2.toNat * 2 ^ 8 + b3.toNat := by
  have h0 := b0.isLt
  have h1 := b1.isLt
  have h2 := b2.isLt
  have h3 := b3.isLt
  rw [ofBytes, BitVec.toNat_ofNat, Nat.mod_eq_of_lt]
  omega

theorem ofBytes_lt (b0 b1 b2 b3 : Byte) : (ofBytes b0 b1 b2 b3).toNat < 2 ^ 32 := by
  rw [ofBytes_toNat]
  have h0 := b0.isLt
  have h1 := b1.isLt
  have h2 := b2.isLt
  have h3 := b3.isLt
  omega

theorem toBytes_eq (w : Word) : ∃ b0 b1 b2 b3, toBytes w = [b0, b1, b2, b3] ∧ b0.toNat = w.toNat / 2 ^ 24 % 2 ^ 8 ∧
    b1.toNat = w.toNat / 2 ^ 16 % 2 ^ 8 ∧ b2.toNat = w.toNat / 2 ^ 8 % 2 ^ 8 ∧ b3.toNat = w.toNat % 2 ^ 8 := by
  refine ⟨_, _, _, _, rfl, ?_, ?_, ?_, ?_⟩ <;> simp [BitVec.extractLsb'_toNat, Nat.shiftRight_eq_div_pow]

/-- The bytes of a word below `2^32` give it back. -/
theorem ofBytes_toBytes {w : Word} (h : w.toNat < 2 ^ 32) :
    ∃ b0 b1 b2 b3, toBytes w = [b0, b1, b2, b3] ∧ ofBytes b0 b1 b2 b3 = w := by
  obtain ⟨b0, b1, b2, b3, hb, h0, h1, h2, h3⟩ := toBytes_eq w
  refine ⟨b0, b1, b2, b3, hb, BitVec.eq_of_toNat_eq ?_⟩
  rw [ofBytes_toNat, h0, h1, h2, h3]
  omega

/-- Four bytes are the bytes of their word. -/
theorem toBytes_ofBytes (b0 b1 b2 b3 : Byte) : toBytes (ofBytes b0 b1 b2 b3) = [b0, b1, b2, b3] := by
  obtain ⟨c0, c1, c2, c3, hb, h0, h1, h2, h3⟩ := toBytes_eq (ofBytes b0 b1 b2 b3)
  rw [hb]
  rw [ofBytes_toNat] at h0 h1 h2 h3
  have g0 := b0.isLt
  have g1 := b1.isLt
  have g2 := b2.isLt
  have g3 := b3.isLt
  congr 1
  · exact BitVec.eq_of_toNat_eq (by omega)
  congr 1
  · exact BitVec.eq_of_toNat_eq (by omega)
  congr 1
  · exact BitVec.eq_of_toNat_eq (by omega)
  congr 1
  exact BitVec.eq_of_toNat_eq (by omega)

/-! ### Unpacking -/

/-- The block that unpacking a word gives: no word is rejected (R85). -/
def unpacked (w : Word) : QuantizedBlock :=
  { a := BitVec.ofNat 64 (fieldOf w 9 23), b := BitVec.ofInt 64 (sext (fieldOf w 5 18) 5),
    c := BitVec.ofInt 64 (sext (fieldOf w 5 13) 5), d := BitVec.ofInt 64 (sext (fieldOf w 5 8) 5),
    indexPb := BitVec.ofNat 64 (fieldOf w 4 4), indexPr := BitVec.ofNat 64 (fieldOf w 4 0) }

theorem unpack_eq (w : Word) : unpack w = .ok (unpacked w) := by
  simp only [unpack, getUnsigned_pos (show 9 + 23 ≤ 64 by norm_num), getUnsigned_pos (show 4 + 4 ≤ 64 by norm_num),
    getUnsigned_pos (show 4 + 0 ≤ 64 by norm_num), getSigned_pos (show 5 + 18 ≤ 64 by norm_num),
    getSigned_pos (show 5 + 13 ≤ 64 by norm_num), getSigned_pos (show 5 + 8 ≤ 64 by norm_num), bind, Except.bind]
  rfl

/-- Unpacking gives a block that fits a codeword (R85, R225). -/
theorem unpacked_fits (w : Word) : FitsCodeword (unpacked w) := by
  rw [fitsCodeword_iff]
  have s : ∀ l, FitsSigned (BitVec.ofInt 64 (sext (fieldOf w 5 l) 5)) 5 := by
    intro l
    rw [FitsSigned, if_neg (by norm_num), sext_toInt (by norm_num) (by norm_num) (fieldOf_lt ..)]
    exact sext_range (by norm_num) (fieldOf_lt ..)
  refine ⟨?_, s _, s _, s _, ?_, ?_⟩
  · exact (getUnsigned_toNat (by norm_num) w).trans_lt (fieldOf_lt ..)
  · exact (getUnsigned_toNat (by norm_num) w).trans_lt (fieldOf_lt ..)
  · exact (getUnsigned_toNat (by norm_num) w).trans_lt (fieldOf_lt ..)

theorem decode_four (b0 b1 b2 b3 : Byte) (rest : List Byte) :
    decode (b0 :: b1 :: b2 :: b3 :: rest) = .ok (unpacked (ofBytes b0 b1 b2 b3)) := unpack_eq _

/-- Decoding completes exactly when four bytes are there. -/
theorem decode_short {bs : List Byte} (h : bs.length < 4) : decode bs = .error .truncatedStreamError := by
  match bs, h with
  | [], _ => rfl
  | [_], _ => rfl
  | [_, _], _ => rfl
  | [_, _, _], _ => rfl

theorem four_of_length {bs : List Byte} (h : 4 ≤ bs.length) : ∃ b0 b1 b2 b3 rest, bs = b0 :: b1 :: b2 :: b3 :: rest := by
  match bs, h with
  | b0 :: b1 :: b2 :: b3 :: rest, _ => exact ⟨b0, b1, b2, b3, rest, rfl⟩

/-- Unpacking what was packed gives the block back (R226). -/
theorem unpacked_packed {q : QuantizedBlock} (h : FitsCodeword q) : unpacked (packed q) = q := by
  obtain ⟨f1, f2, f3, f4, f5, f6, -⟩ := packed_fields h
  obtain ⟨h1, h2, h3, h4, h5, h6⟩ := fitsCodeword_iff.1 h
  have u : ∀ v : Word, BitVec.ofNat 64 v.toNat = v := fun v => by simp
  have sg : ∀ v : Word, FitsSigned v 5 → BitVec.ofInt 64 (sext (pattern v 5).toNat 5) = v := by
    intro v hv
    rw [sext_pattern (by norm_num) (by norm_num) hv, BitVec.ofInt_toInt]
  cases q
  simp only [unpacked, f1, f2, f3, f4, f5, f6, u, sg _ h2, sg _ h3, sg _ h4]

/-- Packing what was unpacked gives the codeword back (R226). -/
theorem packed_unpacked {w : Word} (h : w.toNat < 2 ^ 32) : packed (unpacked w) = w := by
  obtain ⟨f1, f2, f3, f4, f5, f6, f7⟩ := packed_fields (unpacked_fits w)
  apply BitVec.eq_of_toNat_eq
  rw [(word_of_fields f7).2, f1, f2, f3, f4, f5, f6]
  have hbits : ∀ i, 32 ≤ i → i < 64 → w.getLsbD i = false := fun i hi _ =>
    Nat.testBit_lt_two_pow (h.trans_le (Nat.pow_le_pow_right (by norm_num) hi))
  conv_rhs => rw [(word_of_fields hbits).2]
  simp only [unpacked, pattern_sext (show 0 < 5 by norm_num) (by norm_num) (fieldOf_lt w 5 _)]
  rw [getUnsigned_toNat (show 9 + 23 ≤ 64 by norm_num), getUnsigned_toNat (show 4 + 4 ≤ 64 by norm_num),
    getUnsigned_toNat (show 4 + 0 ≤ 64 by norm_num)]

end Sys2Proof.Machine.Codec
end

