-- ==== Sys2Proof/Laws/Exec.lean ====
section
/-! SUPPORT. Once for the whole machine: what an operation of a running block can do, and what a step can do. Frames and
invariants are read off these two lemmas. -/

namespace Sys2Proof.Machine

/-- The ways an operation of a running block goes to a next state. -/
inductive Effect (i : Instr) (s : State) : State → Prop where
  /-- A result is delivered and nothing else changes. -/
  | delivered (r : Result) (pure : usesFramer i = false ∧ writesGrids i = false) : Effect i s (s.delivering r)
  /-- A fault is taken and nothing else changes. -/
  | faulted (e : ErrorKind) : Effect i s (s.faulting e)
  /-- A read of `IN` was truncated. -/
  | truncated (i_reads : i = .frHdrr ∨ i = .frGet) : Effect i s
      (((s.setInPos (s.inPos + Config.truncatedTake s.freeCount % ((remaining s).length + 1))).setFreeCount
        (s.freeCount + 1)).faulting .truncatedStreamError)
  /-- A grid is created. -/
  | created (d : Grid) (slots : d.slots = []) (block : 0 < d.blockSize) (elem : 0 < d.elementSize)
      (writes : writesGrids i = true ∧ usesFramer i = false) : Effect i s
      (((s.setGrids (Store.insert s.nextHandle d s.grids)).setNextHandle (s.nextHandle + 1)).delivering (.grid s.nextHandle))
  /-- A slot is written. -/
  | written (g : Handle) (col row : Nat) (e : Elem) (is : i = .gridAtWr g col row e) (d : Grid)
      (live : Store.find g s.grids = some d) (bounds : d.inBounds col row = true) : Effect i s
      ((s.setGrids (Store.insert g (d.memWrite col row e) s.grids)).delivering (.grid g))
  /-- A grid is released. -/
  | freed (g : Handle) (is : i = .gridFree g) (d : Grid) (live : Store.find g s.grids = some d) : Effect i s
      (s.setGrids (Store.erase g s.grids)).completing
  /-- A header is written. -/
  | headerOut (w h : Nat) (is : i = .frHdrw w h) (mode : s.frMode = .idle) (evenW : w % 2 = 0) (evenH : h % 2 = 0) :
      Effect i s (Framer.startBody .tx w h (streamPut (Framer.header w h) s)).completing
  /-- A codeword is written. -/
  | put (q : QuantizedBlock) (is : i = .frPut q) (mode : s.frMode = .tx) (w : Word) (bytes : List Byte)
      (encoded : Codec.encode q = .ok (w, bytes)) : Effect i s
      (Framer.countCodeword .tx (streamPut bytes s)).completing
  /-- A header is read. -/
  | headerIn (w h : Nat) (rest : List Byte) (is : i = .frHdrr) (mode : s.frMode = .idle)
      (scanned : Framer.scanHeader (2 ^ s.cfg.dimBits) (remaining s) = .ok (w, h) rest) : Effect i s
      ((Framer.startBody .rx w h (s.setInPos (s.input.length - rest.length))).delivering (.dims w h))
  /-- A codeword is read. -/
  | get (q : QuantizedBlock) (is : i = .frGet) (mode : s.frMode = .rx)
      (decoded : Codec.decode (streamGet 4 s).1 = .ok q) : Effect i s
      ((Framer.countCodeword .rx (streamGet 4 s).2).delivering (.quantized q))

section

variable {i : Instr} {s t : State}

theorem Effect.of_finish {r : Except ErrorKind Result} (pure : usesFramer i = false ∧ writesGrids i = false)
    (hs : s.fault = 0#3) (h : finish r s = .next t) : Effect i s t := by
  obtain ⟨v, -, rfl⟩ | ⟨e, -, rfl⟩ := finish_next hs h
  · exact .delivered v pure
  · exact .faulted e

theorem Effect.of_finishF {r : Option Result} (pure : usesFramer i = false ∧ writesGrids i = false)
    (hs : s.fault = 0#3) (h : finishF r s = .next t) : Effect i s t := by
  obtain ⟨v, -, rfl⟩ := finishF_next hs h
  exact .delivered v pure

theorem Effect.of_deliver {r : Result} (pure : usesFramer i = false ∧ writesGrids i = false)
    (hs : s.fault = 0#3) (h : deliver r s = .next t) : Effect i s t := by
  rw [deliver_running hs] at h
  cases h
  exact .delivered r pure

theorem Effect.of_raise {e : ErrorKind} (hs : s.fault = 0#3) (h : raise e s = .next t) : Effect i s t := by
  rw [raise_running hs] at h
  cases h
  exact .faulted e

theorem Effect.of_newGrid {w h es bs : Nat} (writes : writesGrids i = true ∧ usesFramer i = false) (hs : s.fault = 0#3)
    (hes : 0 < es) (hbs : 0 < bs) (hn : newGrid w h es bs s = .next t) : Effect i s t := by
  rw [newGrid, deliver_running (by simpa using hs)] at hn
  cases hn
  exact .created ⟨w, h, es, bs, []⟩ rfl hbs hes writes

theorem Effect.of_query {g : Handle} {f : Grid → Nat} (pure : usesFramer i = false ∧ writesGrids i = false)
    (hs : s.fault = 0#3) (h : queryGrid g f s = .next t) : Effect i s t := by
  obtain ⟨d, -, h⟩ := withLive_next h
  exact .of_deliver pure hs h

theorem Effect.of_raiseTruncated (reads : i = .frHdrr ∨ i = .frGet) (hs : s.fault = 0#3) (h : raiseTruncated s = .next t) :
    Effect i s t := by
  rw [raiseTruncated, raise_running (by simpa using hs)] at h
  cases h
  exact .truncated reads

end

/-- The default blocking factor is never 0 (R154). -/
theorem defaultBlocking_pos (es : Nat) : 0 < defaultBlocking es := by simp [defaultBlocking]

/-- A running block that goes to a next state does so in one of the ways of `Effect`. -/
theorem exec_effect {i : Instr} {s t : State} (hs : s.fault = 0#3) (h : exec i s = .next t) : Effect i s t := by
  cases i with
  | bfFitsu v w => exact .of_finish ⟨rfl, rfl⟩ hs (by simpa [exec, execBfFitsu, issue_running hs] using h)
  | bfFitss v w => exact .of_finish ⟨rfl, rfl⟩ hs (by simpa [exec, execBfFitss, issue_running hs] using h)
  | bfGetu a w l => exact .of_finish ⟨rfl, rfl⟩ hs (by simpa [exec, execBfGetu, issue_running hs] using h)
  | bfGets a w l => exact .of_finish ⟨rfl, rfl⟩ hs (by simpa [exec, execBfGets, issue_running hs] using h)
  | bfNewu a w l v => exact .of_finish ⟨rfl, rfl⟩ hs (by simpa [exec, execBfNewu, issue_running hs] using h)
  | bfNews a w l v => exact .of_finish ⟨rfl, rfl⟩ hs (by simpa [exec, execBfNews, issue_running hs] using h)
  | gridNew w h' es bs =>
    simp only [exec, execGridNew, issue_running hs] at h
    split at h
    · exact .of_raise hs h
    · rename_i hz
      exact .of_newGrid ⟨rfl, rfl⟩ hs (by omega) (by omega) h
  | gridNewdef w h' es =>
    simp only [exec, execGridNewdef, issue_running hs] at h
    split at h
    · exact .of_raise hs h
    · exact .of_newGrid ⟨rfl, rfl⟩ hs (by omega) (defaultBlocking_pos es) h
  | gridAtRd g c r =>
    simp only [exec, execGridAtRd, issue_running hs] at h
    obtain ⟨d, -, h⟩ := withLive_next h
    split at h
    · split at h
      · exact .of_deliver ⟨rfl, rfl⟩ hs h
      · exact absurd h (by simp)
    · exact .of_raise hs h
  | gridAtWr g c r e =>
    simp only [exec, execGridAtWr, issue_running hs] at h
    obtain ⟨d, hd, h⟩ := withLive_next h
    split at h
    · rename_i hb
      rw [deliver_running (by simpa using hs)] at h
      cases h
      exact .written g c r e rfl d hd hb
    · exact .of_raise hs h
  | gridForeach g =>
    simp only [exec, execGridForeach, issue_running hs] at h
    obtain ⟨d, -, h⟩ := withLive_next h
    exact .of_deliver ⟨rfl, rfl⟩ hs h
  | gridWidth g => exact .of_query ⟨rfl, rfl⟩ hs (by simpa [exec, execGridWidth, issue_running hs] using h)
  | gridHeight g => exact .of_query ⟨rfl, rfl⟩ hs (by simpa [exec, execGridHeight, issue_running hs] using h)
  | gridEsize g => exact .of_query ⟨rfl, rfl⟩ hs (by simpa [exec, execGridEsize, issue_running hs] using h)
  | gridBsize g => exact .of_query ⟨rfl, rfl⟩ hs (by simpa [exec, execGridBsize, issue_running hs] using h)
  | gridFree g =>
    simp only [exec, execGridFree, issue_running hs] at h
    obtain ⟨d, hd, h⟩ := withLive_next h
    rw [complete_running (by simpa using hs)] at h
    cases h
    exact .freed g rfl d hd
  | cscFwd px den =>
    simp only [exec, execCscFwd, issue_running hs] at h
    split at h
    · exact .of_finishF ⟨rfl, rfl⟩ hs h
    · exact absurd h (by simp)
  | cscInv cp den =>
    simp only [exec, execCscInv, issue_running hs] at h
    split at h
    · exact absurd h (by simp)
    · exact .of_finishF ⟨rfl, rfl⟩ hs h
  | btFwd p1 p2 p3 p4 => exact .of_finishF ⟨rfl, rfl⟩ hs (by simpa [exec, execBtFwd, issue_running hs] using h)
  | btInv co => exact .of_finishF ⟨rfl, rfl⟩ hs (by simpa [exec, execBtInv, issue_running hs] using h)
  | qQuant co => exact .of_finishF ⟨rfl, rfl⟩ hs (by simpa [exec, execQQuant, issue_running hs] using h)
  | qDequant q =>
    simp only [exec, execQDequant, issue_running hs] at h
    split at h
    · split at h
      · exact .of_finishF ⟨rfl, rfl⟩ hs h
      · exact absurd h (by simp)
    · exact absurd h (by simp)
  | cwEnc q => exact .of_finish ⟨rfl, rfl⟩ hs (by simpa [exec, execCwEnc, issue_running hs] using h)
  | cwDec bs => exact .of_finish ⟨rfl, rfl⟩ hs (by simpa [exec, execCwDec, issue_running hs] using h)
  | frHdrw w h' =>
    simp only [exec, execFrHdrw, issue_running hs] at h
    obtain ⟨hm, h⟩ := Framer.inMode_next h
    split at h
    · exact absurd h (by simp)
    · rename_i ho
      rw [complete_running (by simpa [Framer.startBody, streamPut] using hs)] at h
      cases h
      exact .headerOut w h' rfl hm (by omega) (by omega)
  | frPut q =>
    simp only [exec, execFrPut, issue_running hs] at h
    obtain ⟨hm, h⟩ := Framer.inMode_next h
    split at h
    · rename_i r hr
      rw [complete_running (by simpa [Framer.countCodeword, streamPut] using hs)] at h
      cases h
      exact .put q rfl hm r.1 r.2 hr
    · exact .of_raise hs h
  | frHdrr =>
    simp only [exec, execFrHdrr, issue_running hs] at h
    obtain ⟨hm, h⟩ := Framer.inMode_next h
    split at h
    · rename_i d rest hr
      rw [deliver_running (by simpa [Framer.startBody] using hs)] at h
      cases h
      exact .headerIn d.1 d.2 rest rfl hm hr
    · exact .of_raiseTruncated (.inl rfl) hs h
    · exact .of_raise hs h
    · exact absurd h (by simp)
  | frGet =>
    simp only [exec, execFrGet, issue_running hs] at h
    obtain ⟨hm, h⟩ := Framer.inMode_next h
    split at h
    · rename_i q hq
      rw [deliver_running (by simpa [Framer.countCodeword, streamGet] using hs)] at h
      cases h
      exact .get q rfl hm hq
    · exact .of_raiseTruncated (.inr rfl) hs h

/-- A halted block answers every operation with its code and does nothing (R283). -/
theorem exec_halted {s : State} (h : s.fault ≠ 0#3) (i : Instr) : exec i s = .next (answerHalted s) := by
  cases i <;> simp only [exec, execBfFitsu, execBfFitss, execBfGetu, execBfGets, execBfNewu, execBfNews, execGridNew, execGridNewdef, execGridAtRd, 
    execGridAtWr, execGridForeach, execGridWidth, execGridHeight, execGridEsize, execGridBsize, execGridFree, execCscFwd, execCscInv, 
    execBtFwd, execBtInv, execQQuant, execQDequant, execCwEnc, execCwDec, execFrHdrw, execFrPut, execFrHdrr, execFrGet, issue_halted h]

/-- What the presentation of a command comes to: the instruction to be run, or a refusal (R101, R102). -/
theorem present_cases (c : Command) (s : State) :
    (∃ i, decode c = .ok i ∧ i.wf s.cfg = true ∧ present c s = .run i s) ∨ ∃ r, present c s = .stop r := by
  unfold present
  split
  · rename_i i hi
    split
    · rename_i hw
      exact .inl ⟨i, hi, by simpa using hw, rfl⟩
    · exact .inr ⟨_, rfl⟩
  · exact .inr ⟨_, rfl⟩

/-- What a step can do: wait, reset, or execute a presentable instruction. -/
theorem step_cases {s t : State} (h : step s = .next t) :
    (s.host = [] ∧ t = s.setResponse none) ∨
    (∃ input rest, s.host = .reset input :: rest ∧ t = assertReset (s.setHost rest) input) ∨
    (∃ c rest i, s.host = .issue c :: rest ∧ decode c = .ok i ∧ i.wf s.cfg = true ∧
      exec i ((s.setHost rest).setResponse none) = .next t) := by
  unfold step fetch at h
  rcases hh : s.host with _ | ⟨c | input, rest⟩ <;> simp only [hh] at h
  · exact .inl ⟨rfl, by cases h; rfl⟩
  · obtain ⟨i, hd, hw, hp⟩ | ⟨r, hp⟩ := present_cases c ((s.setHost rest).setResponse none) <;> simp only [hp] at h
    · exact .inr (.inr ⟨c, rest, i, rfl, hd, hw, h⟩)
    · exact absurd h (by simp)
  · exact .inr (.inl ⟨input, rest, rfl, by cases h; rfl⟩)

end Sys2Proof.Machine
end

