-- ==== Sys2Proof/Laws/Framer.lean ====
section
/-! SUPPORT. The text of the header: numerals (R87), what the reader does with a header the writer wrote, with a part of
one, and with a wrong first line (R88), and that it accepts nothing else. -/

namespace Sys2Proof.Machine.Framer

/-! ### Digits -/

theorem digit_toNat {d : Nat} (h : d < 10) : (digit d).toNat = 0x30 + d := by
  rw [digit, BitVec.toNat_ofNat, Nat.mod_eq_of_lt]; omega

theorem digitValue_digit {d : Nat} (h : d < 10) : digitValue (digit d) = some d := by
  rw [digitValue, digit_toNat h, if_pos (by omega)]
  congr 1
  omega

theorem digitValue_some {b : Byte} {d : Nat} (h : digitValue b = some d) : d < 10 ∧ b = digit d := by
  unfold digitValue at h
  split_ifs at h with hb
  have hd := Option.some.inj h
  refine ⟨by omega, BitVec.eq_of_toNat_eq ?_⟩
  rw [digit_toNat (by omega)]
  omega

@[simp] theorem digitValue_space : digitValue space = none := rfl
@[simp] theorem digitValue_newline : digitValue newline = none := rfl

/-! ### Numerals (R87) -/

theorem decInto_append (k n : Nat) (tail : List Byte) : decInto k n tail = decInto k n [] ++ tail := by
  induction k generalizing n tail with
  | zero => rfl
  | succ k ih =>
    unfold decInto
    split_ifs
    · rfl
    · rw [ih, ih (n / 10) [digit (n % 10)], List.append_assoc]
      rfl

theorem decInto_fuel {k j n : Nat} (hk : n < 10 ^ (k + 1)) (hj : n < 10 ^ (j + 1)) (tail : List Byte) :
    decInto k n tail = decInto j n tail := by
  induction k generalizing j n tail with
  | zero =>
    have h10 : n < 10 := by simpa using hk
    cases j with
    | zero => rfl
    | succ j => simp only [decInto, if_pos h10, Nat.mod_eq_of_lt h10]
  | succ k ih =>
    cases j with
    | zero =>
      have h10 : n < 10 := by simpa using hj
      simp only [decInto, if_pos h10, Nat.mod_eq_of_lt h10]
    | succ j =>
      simp only [decInto]
      split_ifs
      · rfl
      · apply ih
        · rw [Nat.div_lt_iff_lt_mul (by norm_num)]; rw [pow_succ] at hk; exact hk
        · rw [Nat.div_lt_iff_lt_mul (by norm_num)]; rw [pow_succ] at hj; exact hj

theorem lt_ten_pow_log2 (n : Nat) : n < 10 ^ (n.log2 + 1) :=
  Nat.lt_log2_self.trans_le (Nat.pow_le_pow_left (by norm_num) _)

theorem dec_of_lt {n : Nat} (h : n < 10) : dec n = [digit n] := by
  rw [dec, decInto_fuel (lt_ten_pow_log2 n) (j := 0) (by simpa using h)]
  rw [decInto, Nat.mod_eq_of_lt h]

/-- A numeral of more than one digit is the numeral of the leading part and the last digit. -/
theorem dec_step {n : Nat} (h : 10 ≤ n) : dec n = dec (n / 10) ++ [digit (n % 10)] := by
  have h1 := lt_ten_pow_log2 (n / 10)
  have h2 : n < 10 ^ ((n / 10).log2 + 1 + 1) := by
    rw [pow_succ]
    generalize 10 ^ ((n / 10).log2 + 1) = x at *
    omega
  calc dec n = decInto ((n / 10).log2 + 1) n [] := decInto_fuel (lt_ten_pow_log2 n) h2 []
    _ = decInto (n / 10).log2 (n / 10) [digit (n % 10)] := by
      rw [decInto.eq_2]
      exact if_neg (by omega)
    _ = dec (n / 10) ++ [digit (n % 10)] := decInto_append _ _ _

/-- The value of a list of digits read in base ten after a number. -/
def valueFrom (acc : Nat) (ds : List Byte) : Nat := ds.foldl (fun acc b => acc * 10 + (b.toNat - 0x30)) acc

@[simp] theorem valueFrom_nil (acc : Nat) : valueFrom acc [] = acc := rfl

@[simp] theorem valueFrom_cons (acc : Nat) (b : Byte) (ds : List Byte) :
    valueFrom acc (b :: ds) = valueFrom (acc * 10 + (b.toNat - 0x30)) ds := by
  simp only [valueFrom, List.foldl_cons]

theorem valueFrom_append (acc : Nat) (ds es : List Byte) : valueFrom acc (ds ++ es) = valueFrom (valueFrom acc ds) es := by
  simp [valueFrom, List.foldl_append]

/-- Is a byte a decimal digit? -/
def IsDigit (b : Byte) : Prop := ∃ d, d < 10 ∧ b = digit d

/-- The numeral of a number: only digits, its value, and its first digit, which is 0 only for the number 0. -/
theorem dec_spec (n : Nat) : (∀ b ∈ dec n, IsDigit b) ∧ valueFrom 0 (dec n) = n ∧
    ∃ d ds, dec n = digit d :: ds ∧ d < 10 ∧ (d = 0 → n = 0 ∧ ds = []) := by
  induction n using Nat.strong_induction_on with
  | _ n ih =>
    rcases Nat.lt_or_ge n 10 with h | h
    · rw [dec_of_lt h]
      refine ⟨fun b hb => ⟨n, h, by simpa using hb⟩, ?_, n, [], rfl, h, fun h0 => ⟨h0, rfl⟩⟩
      simp [digit_toNat h]
    · obtain ⟨h1, h2, d, ds, h3, h4, h5⟩ := ih (n / 10) (by omega)
      have hm : n % 10 < 10 := Nat.mod_lt _ (by norm_num)
      rw [dec_step h]
      refine ⟨?_, ?_, d, ds ++ [digit (n % 10)], by rw [h3]; rfl, h4, fun h0 => ?_⟩
      · intro b hb
        rcases List.mem_append.1 hb with hb | hb
        · exact h1 b hb
        · exact ⟨n % 10, hm, by simpa using hb⟩
      · rw [valueFrom_append, h2]
        simp only [valueFrom_cons, valueFrom_nil, digit_toNat hm]
        omega
      · have := (h5 h0).1
        omega

/-- The last digit put after the numeral of a positive number. -/
theorem dec_mul_add {n d : Nat} (hn : 0 < n) (hd : d < 10) : dec (n * 10 + d) = dec n ++ [digit d] := by
  rw [dec_step (by omega), show (n * 10 + d) / 10 = n by omega, show (n * 10 + d) % 10 = d by omega]

/-- Digits put after the numeral of a positive number give the numeral of the value. -/
theorem dec_valueFrom {n : Nat} (hn : 0 < n) (ds : List Byte) (h : ∀ b ∈ ds, IsDigit b) :
    dec (valueFrom n ds) = dec n ++ ds := by
  induction ds generalizing n with
  | nil => simp
  | cons b ds ih =>
    obtain ⟨d, hd, rfl⟩ := h b (by simp)
    rw [valueFrom_cons, digit_toNat hd, ih (by omega) (fun b hb => h b (by simp [hb]))]
    rw [show n * 10 + (0x30 + d - 0x30) = n * 10 + d by omega, dec_mul_add hn hd]
    simp

/-! ### Scanning a numeral -/

section Scan

variable {ending : Byte} {bound : Nat}

theorem scanDigits_append (he : digitValue ending = none) (acc : Nat) (ds : List Byte) (h : ∀ b ∈ ds, IsDigit b)
    (rest : List Byte) :
    scanDigits ending bound acc (ds ++ ending :: rest) = closeNumeral bound (valueFrom acc ds) rest := by
  induction ds generalizing acc with
  | nil => simp [scanDigits, he]
  | cons b ds ih =>
    obtain ⟨d, hd, rfl⟩ := h b (by simp)
    rw [List.cons_append, scanDigits, digitValue_digit hd]
    simp only
    rw [ih _ (fun b hb => h b (by simp [hb])), valueFrom_cons, digit_toNat hd]
    congr 3
    omega

theorem scanDigits_digits (acc : Nat) (ds : List Byte) (h : ∀ b ∈ ds, IsDigit b) :
    scanDigits ending bound acc ds = .truncated := by
  induction ds generalizing acc with
  | nil => rfl
  | cons b ds ih =>
    obtain ⟨d, hd, rfl⟩ := h b (by simp)
    rw [scanDigits, digitValue_digit hd]
    exact ih _ (fun b hb => h b (by simp [hb]))

/-- A numeral and its ending byte. -/
theorem scanNumeral_dec (he : digitValue ending = none) (n : Nat) (rest : List Byte) :
    scanNumeral ending bound (dec n ++ ending :: rest) = closeNumeral bound n rest := by
  obtain ⟨h1, h2, d, ds, h3, h4, h5⟩ := dec_spec n
  rw [h3] at h1 h2 ⊢
  rw [List.cons_append, scanNumeral, digitValue_digit h4]
  have h1' : ∀ b ∈ ds, IsDigit b := fun b hb => h1 b (by simp [hb])
  cases d with
  | zero =>
    obtain ⟨rfl, rfl⟩ := h5 rfl
    simp [scanZero, he]
  | succ d =>
    simp only
    rw [scanDigits_append he _ _ h1']
    congr 1
    rw [← h2, valueFrom_cons, digit_toNat h4]
    congr 1
    omega

/-- A numeral cut short, before its ending byte. -/
theorem scanNumeral_take (n k : Nat) (hk : k ≤ (dec n).length) : scanNumeral ending bound ((dec n).take k) = .truncated := by
  obtain ⟨h1, h2, d, ds, h3, h4, h5⟩ := dec_spec n
  rw [h3] at h1 hk ⊢
  cases k with
  | zero => rfl
  | succ k =>
    rw [List.take_succ_cons, scanNumeral, digitValue_digit h4]
    have h1' : ∀ b ∈ ds.take k, IsDigit b := fun b hb => h1 b (by simp [List.mem_of_mem_take hb])
    cases d with
    | zero =>
      obtain ⟨rfl, rfl⟩ := h5 rfl
      simp [scanZero]
    | succ d => exact scanDigits_digits _ _ h1'

/-- Digits and then a byte that is neither a digit nor the ending byte. -/
theorem scanDigits_wrong {b : Byte} (hb : digitValue b = none) (hne : b ≠ ending) (acc : Nat) (ds : List Byte)
    (h : ∀ b ∈ ds, IsDigit b) (rest : List Byte) : scanDigits ending bound acc (ds ++ b :: rest) = .format := by
  induction ds generalizing acc with
  | nil => simp [scanDigits, hb, hne]
  | cons e es ih =>
    obtain ⟨x, hx, rfl⟩ := h e (by simp)
    rw [List.cons_append, scanDigits, digitValue_digit hx]
    exact ih _ (fun b hb => h b (by simp [hb]))

/-- Where the first digit of a numeral must stand, another byte is a format error. -/
theorem scanNumeral_first {b : Byte} (hb : digitValue b = none) (rest : List Byte) :
    scanNumeral ending bound (b :: rest) = .format := by
  rw [scanNumeral, hb]

/-- After a numeral, a byte that is neither a digit nor the ending byte is a format error. -/
theorem scanNumeral_dec_wrong {b : Byte} (hb : digitValue b = none) (hne : b ≠ ending) (n : Nat) (rest : List Byte) :
    scanNumeral ending bound (dec n ++ b :: rest) = .format := by
  obtain ⟨h1, -, d, ds, h3, h4, h5⟩ := dec_spec n
  rw [h3] at h1 ⊢
  rw [List.cons_append, scanNumeral, digitValue_digit h4]
  have h1' : ∀ b ∈ ds, IsDigit b := fun b hb => h1 b (by simp [hb])
  cases d with
  | zero =>
    obtain ⟨rfl, rfl⟩ := h5 rfl
    simp [scanZero, hb, hne]
  | succ d =>
    exact scanDigits_wrong hb hne _ ds h1' rest

/-- A digit after a leading zero. -/
theorem scanNumeral_leadingZero {c : Byte} (hc : 0x30 ≤ c.toNat) (hc' : c.toNat ≤ 0x39) (rest : List Byte) :
    scanNumeral ending bound (0x30#8 :: c :: rest) = .refused .leadingZero := by
  rw [scanNumeral, show digitValue 0x30#8 = some 0 from rfl]
  simp only [scanZero, digitValue, hc, hc', and_self, if_true]

theorem closeNumeral_ok {n m : Nat} {rest rest' : List Byte} (h : closeNumeral bound n rest = .ok m rest') :
    n < bound ∧ m = n ∧ rest' = rest := by
  unfold closeNumeral at h
  split_ifs at h with hb
  simp only [Scan.ok.injEq] at h
  exact ⟨hb, h.1.symm, h.2.symm⟩

theorem scanDigits_ok {acc n : Nat} {bs rest : List Byte} (h : scanDigits ending bound acc bs = .ok n rest) :
    ∃ ds, (∀ b ∈ ds, IsDigit b) ∧ bs = ds ++ ending :: rest ∧ n = valueFrom acc ds ∧ n < bound := by
  induction bs generalizing acc with
  | nil => cases h
  | cons b bs ih =>
    rw [scanDigits] at h
    split at h
    · rename_i d hd
      obtain ⟨hd10, rfl⟩ := digitValue_some hd
      obtain ⟨ds, h1, h2, h3, h4⟩ := ih h
      refine ⟨digit d :: ds, ?_, by rw [h2]; rfl, ?_, h4⟩
      · intro b hb
        rcases List.mem_cons.1 hb with rfl | hb
        · exact ⟨d, hd10, rfl⟩
        · exact h1 b hb
      · rw [h3, valueFrom_cons, digit_toNat hd10]
        congr 1
        omega
    · split_ifs at h with he
      obtain ⟨h1, rfl, rfl⟩ := closeNumeral_ok h
      exact ⟨[], by simp, by rw [he]; rfl, rfl, h1⟩

/-- The reader accepts a numeral only as the writer writes it. -/
theorem scanNumeral_ok {n : Nat} {bs rest : List Byte} (h : scanNumeral ending bound bs = .ok n rest) :
    bs = dec n ++ ending :: rest ∧ n < bound := by
  cases bs with
  | nil => cases h
  | cons b bs =>
    rw [scanNumeral] at h
    split at h
    · rename_i h0
      obtain ⟨-, rfl⟩ := digitValue_some h0
      cases bs with
      | nil => cases h
      | cons b bs =>
        rw [scanZero] at h
        split at h
        · cases h
        · split_ifs at h with he
          obtain ⟨h1, rfl, rfl⟩ := closeNumeral_ok h
          exact ⟨by rw [dec_of_lt (by norm_num), he]; rfl, h1⟩
    · rename_i d hd0 hd
      obtain ⟨hd10, rfl⟩ := digitValue_some hd
      obtain ⟨ds, h1, rfl, rfl, h4⟩ := scanDigits_ok h
      have hpos : 0 < d := Nat.pos_of_ne_zero (fun h0 => hd0 h0)
      refine ⟨?_, h4⟩
      rw [dec_valueFrom hpos ds h1, dec_of_lt hd10]
      rfl
    · cases h

end Scan

/-! ### The first line -/

theorem line1_length : line1.length = 33 := rfl

theorem scanText_append (text rest : List Byte) : scanText text (text ++ rest) = .ok () rest := by
  induction text with
  | nil => rfl
  | cons t ts ih => simp [scanText, ih]

theorem scanText_take {text : List Byte} {k : Nat} (h : k < text.length) : scanText text (text.take k) = .truncated := by
  induction text generalizing k with
  | nil => simp at h
  | cons t ts ih =>
    cases k with
    | zero => rfl
    | succ k => simpa [scanText] using ih (by simpa using h)

theorem scanText_wrong {text : List Byte} {k : Nat} {b : Byte} (h : k < text.length) (hb : text[k]? ≠ some b) (rest : List Byte) :
    scanText text (text.take k ++ b :: rest) = .format := by
  induction text generalizing k with
  | nil => simp at h
  | cons t ts ih =>
    cases k with
    | zero =>
      have hne : b ≠ t := fun h => hb (by rw [h]; rfl)
      simp [scanText, hne]
    | succ k => simpa [scanText] using ih (by simpa using h) (by simpa using hb)

theorem scanText_ok {text bs rest : List Byte} (h : scanText text bs = .ok () rest) : bs = text ++ rest := by
  induction text generalizing bs with
  | nil => simpa [scanText] using h
  | cons t ts ih =>
    cases bs with
    | nil => cases h
    | cons b bs =>
      rw [scanText] at h
      split_ifs at h with hb
      rw [hb, ih h]
      rfl

/-! ### The header -/

theorem header_append (w h : Nat) (rest : List Byte) :
    header w h ++ rest = line1 ++ (dec w ++ space :: (dec h ++ newline :: rest)) := by simp [header]

theorem header_length (w h : Nat) : (header w h).length = 33 + (dec w).length + 1 + (dec h).length + 1 := by
  simp only [header, List.length_append, line1_length, List.length_singleton]

/-- The reader on a header that the writer wrote. -/
theorem scanHeader_header {bound w h : Nat} (hw : w < bound) (hh : h < bound) (rest : List Byte) :
    scanHeader bound (header w h ++ rest) =
      if w % 2 = 1 ∨ h % 2 = 1 then .refused .oddDimension else .ok (w, h) rest := by
  rw [header_append, scanHeader, scanText_append]
  simp only [Scan.andThen]
  rw [scanNumeral_dec digitValue_space, closeNumeral, if_pos hw]
  simp only
  rw [scanNumeral_dec digitValue_newline, closeNumeral, if_pos hh]

/-- The reader accepts only a header that the writer would write for even dimensions below the bound (R88). -/
theorem scanHeader_ok {bound w h : Nat} {bs rest : List Byte} (hs : scanHeader bound bs = .ok (w, h) rest) :
    bs = header w h ++ rest ∧ w < bound ∧ h < bound ∧ w % 2 = 0 ∧ h % 2 = 0 := by
  unfold scanHeader at hs
  cases h1 : scanText line1 bs with
  | ok a r1 =>
    rw [h1, Scan.andThen] at hs
    cases h2 : scanNumeral space bound r1 with
    | ok w' r2 =>
      rw [h2, Scan.andThen] at hs
      cases h3 : scanNumeral newline bound r2 with
      | ok h' r3 =>
        rw [h3, Scan.andThen] at hs
        split_ifs at hs with ho
        simp only [Scan.ok.injEq, Prod.mk.injEq] at hs
        obtain ⟨⟨rfl, rfl⟩, rfl⟩ := hs
        obtain ⟨e2, hw⟩ := scanNumeral_ok h2
        obtain ⟨e3, hh⟩ := scanNumeral_ok h3
        refine ⟨?_, hw, hh, by omega, by omega⟩
        rw [header_append, scanText_ok h1, e2, e3]
      | truncated => rw [h3] at hs; cases hs
      | format => rw [h3] at hs; cases hs
      | refused r => rw [h3] at hs; cases hs
    | truncated => rw [h2] at hs; cases hs
    | format => rw [h2] at hs; cases hs
    | refused r => rw [h2] at hs; cases hs
  | truncated => rw [h1] at hs; cases hs
  | format => rw [h1] at hs; cases hs
  | refused r => rw [h1] at hs; cases hs

/-- The reader after the first line. -/
theorem scanHeader_line1 (bound : Nat) (bs : List Byte) :
    scanHeader bound (line1 ++ bs) = (scanNumeral space bound bs).andThen fun w rest =>
      (scanNumeral newline bound rest).andThen fun h rest =>
        if w % 2 = 1 ∨ h % 2 = 1 then .refused .oddDimension else .ok (w, h) rest := by
  rw [scanHeader, scanText_append]
  rfl

/-- The reader after the first line and a width in range. -/
theorem scanHeader_width {bound w : Nat} (hw : w < bound) (bs : List Byte) :
    scanHeader bound (line1 ++ (dec w ++ space :: bs)) = (scanNumeral newline bound bs).andThen fun h rest =>
      if w % 2 = 1 ∨ h % 2 = 1 then .refused .oddDimension else .ok (w, h) rest := by
  rw [scanHeader_line1, scanNumeral_dec digitValue_space, closeNumeral, if_pos hw]
  rfl

/-- The reader on a header cut short (R88, R287): a width out of range does no harm when its ending byte is missing. -/
theorem scanHeader_take {bound w h k : Nat} (hw : w < bound ∨ k ≤ 33 + (dec w).length) (hk : k < (header w h).length) :
    scanHeader bound ((header w h).take k) = .truncated := by
  have e : header w h = line1 ++ (dec w ++ space :: (dec h ++ [newline])) := by simp [header]
  have hl := header_length w h
  rw [e, List.take_append]
  rcases Nat.lt_or_ge k 33 with h1 | h1
  · rw [show k - line1.length = 0 by rw [line1_length]; omega, List.take_zero, List.append_nil, scanHeader,
      scanText_take (by rw [line1_length]; exact h1)]
    rfl
  · rw [List.take_of_length_le (by rw [line1_length]; exact h1), line1_length, List.take_append]
    rcases Nat.lt_or_ge (k - 33) ((dec w).length + 1) with h2 | h2
    · rw [show k - 33 - (dec w).length = 0 by omega, List.take_zero, List.append_nil, scanHeader_line1,
        scanNumeral_take w _ (by omega)]
      rfl
    · rw [List.take_of_length_le (by omega)]
      obtain ⟨j, hj⟩ : ∃ j, k - 33 - (dec w).length = j + 1 := ⟨k - 33 - (dec w).length - 1, by omega⟩
      rw [hj, List.take_succ_cons, scanHeader_width (hw.resolve_right (by omega)), List.take_append,
        show j - (dec h).length = 0 by omega, List.take_zero, List.append_nil, scanNumeral_take h _ (by omega)]
      rfl

/-- The reader on a first line with a wrong byte (R88, R288). -/
theorem scanHeader_wrong_line {bound k : Nat} {b : Byte} (hk : k < 33) (hb : line1[k]? ≠ some b) (rest : List Byte) :
    scanHeader bound (line1.take k ++ b :: rest) = .format := by
  rw [scanHeader, scanText_wrong (by rw [line1_length]; exact hk) hb]
  rfl

/-- The rest that the reader leaves is shorter by the header it took. -/
theorem scanHeader_length {bound w h : Nat} {bs rest : List Byte} (hs : scanHeader bound bs = .ok (w, h) rest) :
    bs.length = (header w h).length + rest.length := by
  rw [(scanHeader_ok hs).1, List.length_append]

end Sys2Proof.Machine.Framer
end

