-- ==== Sys2Proof/Laws/Store.lean ====
section
/-! SUPPORT. Sparse storage: a read after a write gives the value written, a write leaves every other key alone, and
every operation keeps the canonical form. -/

namespace Sys2Proof.Machine.Store

variable {α : Type}

@[simp] theorem find_nil (k : Nat) : find k ([] : List (Nat × α)) = none := rfl

theorem find_cons (k : Nat) (e : Nat × α) (l : List (Nat × α)) :
    find k (e :: l) = if e.1 = k then some e.2 else find k l := rfl

/-- A read after a write to the same key gives the value written. -/
@[simp] theorem find_insert_self (k : Nat) (v : α) (m : List (Nat × α)) : find k (insert k v m) = some v := by
  induction m with
  | nil => simp [insert, find]
  | cons e l ih =>
    simp only [insert]
    split
    · simp [find]
    · split
      · simp [find]
      · rename_i h1 h2
        simp [find, h2, ih]

/-- A write leaves every other key alone. -/
theorem find_insert_of_ne {k j : Nat} (h : j ≠ k) (v : α) (m : List (Nat × α)) : find j (insert k v m) = find j m := by
  induction m with
  | nil => simp [insert, find, Ne.symm h]
  | cons e l ih =>
    simp only [insert]
    split
    · simp [find, Ne.symm h]
    · split
      · rename_i h1 h2
        simp [find, Ne.symm h, h2]
      · simp only [find, ih]

/-- An erased key holds nothing. -/
@[simp] theorem find_erase_self (k : Nat) (m : List (Nat × α)) : find k (erase k m) = none := by
  induction m with
  | nil => rfl
  | cons e l ih =>
    by_cases h : e.1 = k
    · simpa [erase, h] using ih
    · have : erase k (e :: l) = e :: erase k l := by simp [erase, h]
      simp [this, find, h, ih]

/-- Erasing a key leaves every other key alone. -/
theorem find_erase_of_ne {k j : Nat} (h : j ≠ k) (m : List (Nat × α)) : find j (erase k m) = find j m := by
  induction m with
  | nil => rfl
  | cons e l ih =>
    by_cases hk : e.1 = k
    · have : erase k (e :: l) = erase k l := by simp [erase, hk]
      rw [this, ih, find_cons, if_neg (by omega)]
    · have : erase k (e :: l) = e :: erase k l := by simp [erase, hk]
      rw [this, find_cons, find_cons, ih]

/-- A listed key is a member with its value. -/
theorem mem_of_find {k : Nat} {v : α} {m : List (Nat × α)} (h : find k m = some v) : (k, v) ∈ m := by
  induction m with
  | nil => simp at h
  | cons e l ih =>
    rw [find_cons] at h
    split at h
    · rename_i hk
      have : e = (k, v) := Prod.ext hk (by simpa using h)
      simp [this]
    · exact List.mem_cons_of_mem _ (ih h)

/-- What a write leaves: the pair written, and pairs that were there under another key. -/
theorem mem_insert {k : Nat} {v : α} {m : List (Nat × α)} {e : Nat × α} (h : e ∈ insert k v m) : e = (k, v) ∨ e ∈ m := by
  induction m with
  | nil => simpa [insert] using h
  | cons x l ih =>
    simp only [insert] at h
    split at h
    · simpa using h
    · split at h
      · rcases List.mem_cons.1 h with h | h
        · exact .inl h
        · exact .inr (List.mem_cons_of_mem _ h)
      · rcases List.mem_cons.1 h with h | h
        · exact .inr (h ▸ List.mem_cons_self)
        · exact (ih h).imp_right (List.mem_cons_of_mem _)

theorem rising_cons {e : Nat × α} {l : List (Nat × α)} :
    rising (e :: l) = true ↔ (∀ x ∈ l, e.1 < x.1) ∧ rising l = true := by
  simp [rising]

/-- A write keeps the canonical form. -/
theorem rising_insert (k : Nat) (v : α) {m : List (Nat × α)} (h : rising m = true) : rising (insert k v m) = true := by
  induction m with
  | nil => simp [insert, rising]
  | cons e l ih =>
    rw [rising_cons] at h
    simp only [insert]
    split
    · rename_i hk
      rw [rising_cons]
      refine ⟨fun x hx => ?_, rising_cons.2 h⟩
      rcases List.mem_cons.1 hx with rfl | hx
      · exact hk
      · exact Nat.lt_trans hk (h.1 x hx)
    · split
      · rename_i hk
        exact rising_cons.2 ⟨fun x hx => hk ▸ h.1 x hx, h.2⟩
      · rw [rising_cons]
        refine ⟨fun x hx => ?_, ih h.2⟩
        rcases mem_insert hx with rfl | hx
        · simp only; omega
        · exact h.1 x hx

/-- Erasing a key keeps the canonical form. -/
theorem rising_erase (k : Nat) {m : List (Nat × α)} (h : rising m = true) : rising (erase k m) = true := by
  induction m with
  | nil => rfl
  | cons e l ih =>
    rw [rising_cons] at h
    by_cases hk : e.1 = k
    · have : erase k (e :: l) = erase k l := by simp [erase, hk]
      rw [this]; exact ih h.2
    · have : erase k (e :: l) = e :: erase k l := by simp [erase, hk]
      rw [this, rising_cons]
      exact ⟨fun x hx => h.1 x (List.mem_filter.1 hx).1, ih h.2⟩

theorem mem_of_mem_erase {k : Nat} {m : List (Nat × α)} {e : Nat × α} (h : e ∈ erase k m) : e ∈ m :=
  (List.mem_filter.1 h).1

/-- In canonical form a pair that is listed is what its key reads as. -/
theorem find_of_mem {m : List (Nat × α)} (h : rising m = true) {e : Nat × α} (he : e ∈ m) : find e.1 m = some e.2 := by
  induction m with
  | nil => simp at he
  | cons x l ih =>
    rw [rising_cons] at h
    rcases List.mem_cons.1 he with rfl | he
    · simp [find]
    · rw [find_cons, if_neg (Nat.ne_of_lt (h.1 e he)), ih h.2 he]

/-- Two storages in canonical form that read alike at every key are equal. -/
theorem ext_of_find {m n : List (Nat × α)} (hm : rising m = true) (hn : rising n = true)
    (h : ∀ k, find k m = find k n) : m = n := by
  induction m generalizing n with
  | nil =>
    cases n with
    | nil => rfl
    | cons e l => simpa [find] using h e.1
  | cons a m ih =>
    cases n with
    | nil => simpa [find] using h a.1
    | cons b n =>
      have ha := find_of_mem hn (mem_of_find (v := a.2) (k := a.1) (by rw [← h]; simp [find]))
      have hb := find_of_mem hm (mem_of_find (v := b.2) (k := b.1) (by rw [h]; simp [find]))
      rw [rising_cons] at hm hn
      have key : a.1 = b.1 := by
        have h1 := mem_of_find ha
        have h2 := mem_of_find hb
        rcases List.mem_cons.1 h1 with h1 | h1
        · exact congrArg Prod.fst h1
        · rcases List.mem_cons.1 h2 with h2 | h2
          · exact (congrArg Prod.fst h2).symm
          · have := hn.1 _ h1
            have := hm.1 _ h2
            omega
      have hval : a.2 = b.2 := by
        have := h a.1
        simpa [find, key] using this
      have hab : a = b := Prod.ext key hval
      subst hab
      congr 1
      refine ih hm.2 hn.2 fun k => ?_
      have hk := h k
      rw [find_cons, find_cons] at hk
      split at hk
      · rename_i hak
        have none_of : ∀ l : List (Nat × α), (∀ x ∈ l, a.1 < x.1) → find k l = none := by
          intro l hl
          cases hf : find k l with
          | none => rfl
          | some v => exact absurd (hl _ (mem_of_find hf)) (by simp [hak])
        rw [none_of m hm.1, none_of n hn.1]
      · exact hk

end Sys2Proof.Machine.Store
end

