-- ==== Sys2Proof/Laws/Grid.lean ====
section
/-! SUPPORT. Buffer memory: where a slot is, and that every operation on buffer memory keeps its canonical form. -/

namespace Sys2Proof.Machine

/-- A coordinate below a dimension is in one of the dimension's storage blocks (R54). -/
theorem div_lt_ceilDiv {x n b : Nat} (hb : 0 < b) (h : x < n) : x / b < ceilDiv n b := by
  rw [ceilDiv, Nat.lt_div_iff_mul_lt hb]
  have := Nat.div_mul_le_self x b
  omega

namespace Grid

/-- Block, row within it and column within it of a number in mixed radix are below their bounds. -/
theorem mixed_lt {n m b x y i j : Nat} (hx : x < n) (hy : y < m) (hi : i < b) (hj : j < b) :
    (y * n + x) * b * b + i * b + j < n * m * b * b := by
  have h1 : y * n + x + 1 ≤ n * m := by
    calc y * n + x + 1 ≤ y * n + n := by omega
      _ = (y + 1) * n := by ring
      _ ≤ m * n := Nat.mul_le_mul_right _ hy
      _ = n * m := Nat.mul_comm _ _
  have h2 : i * b + j < b * b := by
    calc i * b + j < i * b + b := by omega
      _ = (i + 1) * b := by ring
      _ ≤ b * b := Nat.mul_le_mul_right _ hi
  calc (y * n + x) * b * b + i * b + j < (y * n + x) * b * b + b * b := by omega
    _ = (y * n + x + 1) * b * b := by ring
    _ ≤ n * m * b * b := Nat.mul_le_mul_right _ (Nat.mul_le_mul_right _ h1)

/-- The slot of a valid position is inside the store (R55, R56). -/
theorem slotIndex_lt {d : Grid} (hb : 0 < d.blockSize) {col row : Nat} (hc : col < d.width) (hr : row < d.height) :
    d.slotIndex col row < d.nslots :=
  mixed_lt (div_lt_ceilDiv hb hc) (div_lt_ceilDiv hb hr) (Nat.mod_lt _ hb) (Nat.mod_lt _ hb)

theorem inBounds_iff {d : Grid} {col row : Nat} : d.inBounds col row = true ↔ col < d.width ∧ row < d.height := by
  simp [inBounds]

theorem inBounds_eq_false {d : Grid} {col row : Nat} : d.inBounds col row = false ↔ d.width ≤ col ∨ d.height ≤ row := by
  simp only [inBounds, Bool.and_eq_false_iff, decide_eq_false_iff_not, Nat.not_lt]

section MemWrite

variable (d : Grid) (col row : Nat) (e : Elem)

@[simp] theorem memWrite_width : (d.memWrite col row e).width = d.width := rfl
@[simp] theorem memWrite_height : (d.memWrite col row e).height = d.height := rfl
@[simp] theorem memWrite_elementSize : (d.memWrite col row e).elementSize = d.elementSize := rfl
@[simp] theorem memWrite_blockSize : (d.memWrite col row e).blockSize = d.blockSize := rfl
@[simp] theorem memWrite_nslots : (d.memWrite col row e).nslots = d.nslots := rfl
@[simp] theorem memWrite_slotIndex (c r : Nat) : (d.memWrite col row e).slotIndex c r = d.slotIndex c r := rfl

/-- A read after a write of the same position gives the element written (R68). -/
@[simp] theorem memRead_memWrite_self : (d.memWrite col row e).memRead col row = some e := Store.find_insert_self _ _ _

/-- A write leaves every position with another slot alone. -/
theorem memRead_memWrite_of_ne {c r : Nat} (h : d.slotIndex c r ≠ d.slotIndex col row) :
    (d.memWrite col row e).memRead c r = d.memRead c r := Store.find_insert_of_ne h _ _

end MemWrite

theorem wf_iff {d : Grid} : d.wf = true ↔
    Store.rising d.slots = true ∧ (∀ x ∈ d.slots, x.1 < d.nslots) ∧ 0 < d.blockSize ∧ 0 < d.elementSize := by
  simp only [wf, Bool.and_eq_true, List.all_eq_true, decide_eq_true_eq, and_assoc]

theorem wf_new {d : Grid} (hs : d.slots = []) (hb : 0 < d.blockSize) (he : 0 < d.elementSize) : d.wf = true := by
  rw [wf_iff, hs]
  exact ⟨rfl, by simp, hb, he⟩

theorem wf_memWrite {d : Grid} (h : d.wf = true) {col row : Nat} (hb : d.inBounds col row = true) (e : Elem) :
    (d.memWrite col row e).wf = true := by
  rw [wf_iff] at h ⊢
  obtain ⟨h1, h2, h3, h4⟩ := h
  refine ⟨Store.rising_insert _ _ h1, fun x hx => ?_, h3, h4⟩
  rcases Store.mem_insert hx with rfl | hx
  · exact slotIndex_lt h3 (inBounds_iff.1 hb).1 (inBounds_iff.1 hb).2
  · exact h2 x hx

end Grid

namespace Memory

theorem wf_iff {m : Memory} : wf m = true ↔ Store.rising m = true ∧ ∀ e ∈ m, e.2.wf = true := by
  simp only [wf, Bool.and_eq_true, List.all_eq_true]

/-- The memory after reset is in canonical form. -/
theorem wf_reset : wf State.reset.grids = true := rfl

@[simp] theorem wf_nil : wf [] = true := rfl

/-- Putting a grid in canonical form at a handle keeps the canonical form. -/
theorem wf_insert {m : Memory} (h : wf m = true) (g : Handle) {d : Grid} (hd : d.wf = true) : wf (Store.insert g d m) = true := by
  rw [wf_iff] at h ⊢
  refine ⟨Store.rising_insert _ _ h.1, fun e he => ?_⟩
  rcases Store.mem_insert he with rfl | he
  · exact hd
  · exact h.2 e he

/-- Releasing a grid keeps the canonical form. -/
theorem wf_erase {m : Memory} (h : wf m = true) (g : Handle) : wf (Store.erase g m) = true := by
  rw [wf_iff] at h ⊢
  exact ⟨Store.rising_erase _ h.1, fun e he => h.2 e (Store.mem_of_mem_erase he)⟩

/-- A live grid of a memory in canonical form is in canonical form. -/
theorem wf_find {m : Memory} (h : wf m = true) {g : Handle} {d : Grid} (hd : Store.find g m = some d) : d.wf = true :=
  (wf_iff.1 h).2 _ (Store.mem_of_find hd)

/-- Creating a grid keeps the canonical form. -/
theorem wf_created {m : Memory} (h : wf m = true) (g : Handle) {d : Grid} (hs : d.slots = []) (hb : 0 < d.blockSize)
    (he : 0 < d.elementSize) : wf (Store.insert g d m) = true := wf_insert h g (Grid.wf_new hs hb he)

/-- Writing a slot keeps the canonical form. -/
theorem wf_written {m : Memory} (h : wf m = true) {g : Handle} {d : Grid} (hd : Store.find g m = some d) {col row : Nat}
    (hb : d.inBounds col row = true) (e : Elem) : wf (Store.insert g (d.memWrite col row e) m) = true :=
  wf_insert h g (Grid.wf_memWrite (wf_find h hd) hb e)

end Memory

end Sys2Proof.Machine
end

