-- ==== Sys2Proof/Laws/PerInstr.lean ====
section
/-! SUPPORT. Families of one lemma per instruction. `SelectCode`: the operation-select code an instruction is sent with
selects its operation in the table of rule R100. -/

/-- The code of an instruction's command is in the table, and in the row of its operation. -/
def Sys2Proof.Laws.SelectCode.Statement (i : Sys2Proof.Instr) : Prop :=
  Sys2Proof.opOfCode (Sys2Proof.encode i).op = some i.op

namespace Sys2Proof.Laws.SelectCode

open Sys2Proof

theorem bfFitsu (value : Word) (width : Nat) : Statement (.bfFitsu value width) := rfl

theorem bfFitss (value : Word) (width : Nat) : Statement (.bfFitss value width) := rfl

theorem bfGetu (word : Word) (width lsb : Nat) : Statement (.bfGetu word width lsb) := rfl

theorem bfGets (word : Word) (width lsb : Nat) : Statement (.bfGets word width lsb) := rfl

theorem bfNewu (word : Word) (width lsb : Nat) (value : Word) : Statement (.bfNewu word width lsb value) := rfl

theorem bfNews (word : Word) (width lsb : Nat) (value : Word) : Statement (.bfNews word width lsb value) := rfl

theorem gridNew (width height elementSize blockSize : Nat) : Statement (.gridNew width height elementSize blockSize) := rfl

theorem gridNewdef (width height elementSize : Nat) : Statement (.gridNewdef width height elementSize) := rfl

theorem gridAtRd (g : Handle) (col row : Nat) : Statement (.gridAtRd g col row) := rfl

theorem gridAtWr (g : Handle) (col row : Nat) (elem : Elem) : Statement (.gridAtWr g col row elem) := rfl

theorem gridForeach (g : Handle) : Statement (.gridForeach g) := rfl

theorem gridWidth (g : Handle) : Statement (.gridWidth g) := rfl

theorem gridHeight (g : Handle) : Statement (.gridHeight g) := rfl

theorem gridEsize (g : Handle) : Statement (.gridEsize g) := rfl

theorem gridBsize (g : Handle) : Statement (.gridBsize g) := rfl

theorem gridFree (g : Handle) : Statement (.gridFree g) := rfl

theorem cscFwd (px : Pixel) (denominator : Nat) : Statement (.cscFwd px denominator) := rfl

theorem cscInv (cp : ColorPixel) (denominator : Nat) : Statement (.cscInv cp denominator) := rfl

theorem btFwd (p1 p2 p3 p4 : ColorPixel) : Statement (.btFwd p1 p2 p3 p4) := rfl

theorem btInv (co : BlockCoefficients) : Statement (.btInv co) := rfl

theorem qQuant (co : BlockCoefficients) : Statement (.qQuant co) := rfl

theorem qDequant (q : QuantizedBlock) : Statement (.qDequant q) := rfl

theorem cwEnc (q : QuantizedBlock) : Statement (.cwEnc q) := rfl

theorem cwDec (bytes : List Byte) : Statement (.cwDec bytes) := rfl

theorem frHdrw (width height : Nat) : Statement (.frHdrw width height) := rfl

theorem frPut (q : QuantizedBlock) : Statement (.frPut q) := rfl

theorem frHdrr : Statement (.frHdrr) := rfl

theorem frGet : Statement (.frGet) := rfl

end Sys2Proof.Laws.SelectCode
end

