-- ==== Sys2Proof/Laws/Pipeline.lean ====
section
/-! SUPPORT. Programs of the host: how a run goes on, what a call of an operation comes to, a loop with an invariant, and
the row-major order. -/

namespace Sys2Proof.Machine

theorem HostRun.andThen_done {α β : Type} (a : α) (s : State) (k : α → State → HostRun β) :
    (HostRun.done a s).andThen k = k a s := rfl

/-- A call of an operation that delivers a result. -/
theorem call_deliver {i : Instr} {s t : State} {r : Result} (hw : i.wf s.cfg = true) (ht : t.fault = 0#3)
    (h : exec i s = .next (t.delivering r)) : call i s = .done (some r) (t.delivering r) := by
  unfold call
  rw [if_pos hw, h]
  simp only
  rw [if_neg (by simp [State.halted, ht])]
  rfl

/-- A call of an operation that completes without a result. -/
theorem call_complete {i : Instr} {s t : State} (hw : i.wf s.cfg = true) (ht : t.fault = 0#3)
    (h : exec i s = .next t.completing) : call i s = .done none t.completing := by
  unfold call
  rw [if_pos hw, h]
  simp only
  rw [if_neg (by simp [State.halted, ht])]
  rfl

/-- A call of an operation that delivers a result of the kind that is wanted. -/
theorem callFor_deliver {α : Type} {i : Instr} {s t : State} {r : Result} {kind : Result → Option α} {a : α}
    (hw : i.wf s.cfg = true) (ht : t.fault = 0#3) (h : exec i s = .next (t.delivering r)) (hk : kind r = some a) :
    callFor i kind s = .done a (t.delivering r) := by
  rw [callFor, call_deliver hw ht h, HostRun.andThen_done]
  simp only [Option.bind, hk]

/-- A loop whose body keeps an invariant that counts the rounds. -/
theorem HostRun.forEach_inv {α β : Type} {f : α → State → HostRun β} (Q : Nat → State → Prop) (R : Nat → β → Prop) (l : List α)
    (s : State) (h0 : Q 0 s)
    (hstep : ∀ i (hi : i < l.length) u, Q i u → ∃ b v, f l[i] u = .done b v ∧ Q (i + 1) v ∧ R i b) :
    ∃ bs t, HostRun.forEach f l s = .done bs t ∧ Q l.length t ∧ bs.length = l.length ∧
      ∀ i (hi : i < bs.length), R i bs[i] := by
  induction l generalizing s Q R with
  | nil => exact ⟨[], s, rfl, h0, rfl, fun i hi => absurd hi (by simp)⟩
  | cons a l ih =>
    obtain ⟨b, v, h1, h2, h3⟩ := hstep 0 (by simp) s h0
    obtain ⟨bs, t, h4, h5, h6, h7⟩ := ih (fun i => Q (i + 1)) (fun i => R (i + 1)) v h2
      (fun i hi u hu => hstep (i + 1) (by simpa using hi) u hu)
    refine ⟨b :: bs, t, ?_, h5, by simp [h6], fun i hi => ?_⟩
    · rw [HostRun.forEach, show f a s = .done b v from h1, andThen_done, h4, andThen_done]
    · cases i with
      | zero => exact h3
      | succ i => exact h7 i (by simpa using hi)

theorem rowMajor_length (w h : Nat) : (rowMajor w h).length = w * h := by
  simp [rowMajor, List.length_flatMap, Nat.mul_comm]

/-- Position number `k` of the row-major order (R89). -/
theorem rowMajor_get {w h k : Nat} (hk : k < w * h) : (rowMajor w h)[k]? = some (k % w, k / w) := by
  induction h generalizing k with
  | zero => simp at hk
  | succ h ih =>
    have e : rowMajor w (h + 1) = rowMajor w h ++ (List.range w).map fun col => (col, h) := by
      simp [rowMajor, List.range_succ]
    rw [e]
    by_cases hlt : k < w * h
    · rw [List.getElem?_append_left (by rw [rowMajor_length]; exact hlt), ih hlt]
    · rw [List.getElem?_append_right (by rw [rowMajor_length]; omega), rowMajor_length]
      have hw : 0 < w := Nat.pos_of_ne_zero (by rintro rfl; simp at hk)
      have hk2 : k - w * h < w := by rw [Nat.mul_succ] at hk; omega
      have hkk : k = w * h + (k - w * h) := by omega
      have e1 : k % w = k - w * h := by
        conv_lhs => rw [hkk]
        rw [Nat.mul_add_mod, Nat.mod_eq_of_lt hk2]
      have e2 : k / w = h := by
        conv_lhs => rw [hkk]
        rw [Nat.mul_add_div hw, Nat.div_eq_of_lt hk2, Nat.add_zero]
      rw [e1, e2]
      simp [hk2]

theorem mem_rowMajor {w h : Nat} {p : Nat × Nat} : p ∈ rowMajor w h ↔ p.1 < w ∧ p.2 < h := by
  simp only [rowMajor, List.mem_flatMap, List.mem_map, List.mem_range]
  constructor
  · rintro ⟨r, hr, c, hc, rfl⟩
    exact ⟨hc, hr⟩
  · rintro ⟨hc, hr⟩
    exact ⟨p.2, hr, p.1, hc, rfl⟩

end Sys2Proof.Machine
end

