-- ==== Sys2Proof/Laws/Rounding.lean ====
section
/-! SUPPORT. The rounding of `NUM` (rule R15) in terms of the rationals: it keeps the order, values of `F` stay as they
are, and a value between two that round to values of `F` rounds to one between theirs. -/

namespace Sys2Proof.Machine

/-! ### The nearest integer, ties to even -/

/-- The nearest integer of a rational, ties to even. -/
def nearestEven (x : ℚ) : ℤ :=
  if x - ⌊x⌋ < 1 / 2 then ⌊x⌋ else if 1 / 2 < x - ⌊x⌋ then ⌊x⌋ + 1 else ⌊x⌋ + ⌊x⌋ % 2

theorem floor_le_nearestEven (x : ℚ) : ⌊x⌋ ≤ nearestEven x := by
  unfold nearestEven
  split_ifs <;> omega

theorem nearestEven_le_floor_succ (x : ℚ) : nearestEven x ≤ ⌊x⌋ + 1 := by
  unfold nearestEven
  split_ifs <;> omega

theorem nearestEven_mono {x y : ℚ} (h : x ≤ y) : nearestEven x ≤ nearestEven y := by
  rcases (Int.floor_le_floor h).lt_or_eq with hf | hf
  · have := nearestEven_le_floor_succ x
    have := floor_le_nearestEven y
    omega
  · have hxy : x - ⌊x⌋ ≤ y - ⌊y⌋ := by rw [hf]; linarith
    unfold nearestEven
    split_ifs <;> first | omega | linarith

@[simp] theorem nearestEven_intCast (k : ℤ) : nearestEven k = k := by simp [nearestEven]

/-- An integer bound is kept. -/
theorem le_nearestEven {k : ℤ} {x : ℚ} (h : (k : ℚ) ≤ x) : k ≤ nearestEven x := by
  simpa using nearestEven_mono h

theorem nearestEven_le {k : ℤ} {x : ℚ} (h : x ≤ k) : nearestEven x ≤ k := by
  simpa using nearestEven_mono h

theorem halfEven_eq (n d : ℕ) (hd : 0 < d) : (halfEven n d : ℤ) = nearestEven ((n : ℚ) / d) := by
  have hfl : ⌊(n : ℚ) / d⌋ = ((n / d : ℕ) : ℤ) := by
    rw [Int.floor_eq_iff]
    have hd' : (0 : ℚ) < d := by exact_mod_cast hd
    constructor
    · rw [Int.cast_natCast]; exact Nat.cast_div_le
    · rw [div_lt_iff₀ hd']
      have := Nat.lt_div_mul_add (a := n) hd
      have : n < (n / d + 1) * d := by nlinarith
      exact_mod_cast this
  have hfr : (n : ℚ) / d - ((n / d : ℕ) : ℤ) = (n % d : ℕ) / (d : ℚ) := by
    have hd' : (d : ℚ) ≠ 0 := by exact_mod_cast hd.ne'
    have := Nat.div_add_mod n d
    have h2 : (n : ℚ) = d * (n / d : ℕ) + (n % d : ℕ) := by exact_mod_cast this.symm
    rw [Int.cast_natCast]
    field_simp
    linarith
  have hd' : (0 : ℚ) < d := by exact_mod_cast hd
  unfold nearestEven halfEven
  rw [hfl, hfr]
  have e1 : ((n % d : ℕ) / (d : ℚ) < 1 / 2) ↔ 2 * (n % d) < d := by
    rw [div_lt_div_iff₀ hd' (by norm_num)]
    constructor
    · intro h; have : ((n % d * 2 : ℕ) : ℚ) < (1 * d : ℕ) := by push_cast; exact_mod_cast h
      have := Nat.cast_lt.1 this; omega
    · intro h; have : n % d * 2 < 1 * d := by omega
      exact_mod_cast this
  have e2 : (1 / 2 < (n % d : ℕ) / (d : ℚ)) ↔ d < 2 * (n % d) := by
    rw [div_lt_div_iff₀ (by norm_num) hd']
    constructor
    · intro h; have : ((1 * d : ℕ) : ℚ) < (n % d * 2 : ℕ) := by push_cast; exact_mod_cast h
      have := Nat.cast_lt.1 this; omega
    · intro h; have : 1 * d < n % d * 2 := by omega
      exact_mod_cast this
  simp only [e1, e2]
  split_ifs <;> push_cast <;> rfl

/-! ### The exponent and the scale -/

theorem scale2_eq (m : ℕ) (q : ℤ) : scale2 m q = m * (2 : ℚ) ^ q := by
  unfold scale2
  split_ifs with h
  · lift q to ℕ using h
    simp
  · obtain ⟨k, rfl⟩ : ∃ k : ℕ, q = -k := ⟨(-q).toNat, by omega⟩
    simp [zpow_neg, div_eq_mul_inv]

theorem leadingExp_eq {n d : ℕ} (hn : 0 < n) (hd : 0 < d) : leadingExp n d = Int.log 2 ((n : ℚ) / d) := by
  have hn' : (0 : ℚ) < n := by exact_mod_cast hn
  have hd' : (0 : ℚ) < d := by exact_mod_cast hd
  have hpos : (0 : ℚ) < (n : ℚ) / d := by positivity
  have n1 : (2 : ℚ) ^ (n.log2 : ℤ) ≤ n := by
    rw [zpow_natCast]; exact_mod_cast Nat.log2_self_le hn.ne'
  have n2 : (n : ℚ) < 2 ^ ((n.log2 : ℤ) + 1) := by
    have := Nat.lt_log2_self (n := n)
    have h3 : (n : ℚ) < (2 : ℚ) ^ (n.log2 + 1) := by exact_mod_cast this
    exact_mod_cast h3
  have d1 : (2 : ℚ) ^ (d.log2 : ℤ) ≤ d := by
    rw [zpow_natCast]; exact_mod_cast Nat.log2_self_le hd.ne'
  have d2 : (d : ℚ) < 2 ^ ((d.log2 : ℤ) + 1) := by
    have := Nat.lt_log2_self (n := d)
    have h3 : (d : ℚ) < (2 : ℚ) ^ (d.log2 + 1) := by exact_mod_cast this
    exact_mod_cast h3
  have two : (0 : ℚ) < 2 := by norm_num
  -- the fraction is between 2^(e-1) and 2^(e+1)
  set e : ℤ := (n.log2 : ℤ) - (d.log2 : ℤ) with he
  have lo : (2 : ℚ) ^ (e - 1) ≤ (n : ℚ) / d := by
    rw [le_div_iff₀ hd']
    calc (2 : ℚ) ^ (e - 1) * d ≤ 2 ^ (e - 1) * 2 ^ ((d.log2 : ℤ) + 1) := by gcongr
      _ = 2 ^ (n.log2 : ℤ) := by rw [← zpow_add₀ two.ne']; congr 1; omega
      _ ≤ n := n1
  have hi : (n : ℚ) / d < 2 ^ (e + 1) := by
    rw [div_lt_iff₀ hd']
    calc (n : ℚ) < 2 ^ ((n.log2 : ℤ) + 1) := n2
      _ = 2 ^ (e + 1) * 2 ^ (d.log2 : ℤ) := by rw [← zpow_add₀ two.ne']; congr 1; omega
      _ ≤ 2 ^ (e + 1) * d := by gcongr
  have test : (if 0 ≤ e then d * 2 ^ e.toNat ≤ n else d ≤ n * 2 ^ (-e).toNat) ↔ (2 : ℚ) ^ e ≤ (n : ℚ) / d := by
    rw [le_div_iff₀ hd']
    split_ifs with h
    · obtain ⟨k, hk⟩ : ∃ k : ℕ, e = k := ⟨e.toNat, by omega⟩
      rw [hk, zpow_natCast, Int.toNat_natCast, mul_comm]
      exact_mod_cast Iff.rfl
    · obtain ⟨k, hk⟩ : ∃ k : ℕ, e = -k := ⟨(-e).toNat, by omega⟩
      rw [hk, neg_neg, Int.toNat_natCast, zpow_neg, zpow_natCast, inv_mul_le_iff₀ (by positivity), mul_comm]
      have : d ≤ 2 ^ k * n ↔ (d : ℚ) ≤ 2 ^ k * n := by exact_mod_cast Iff.rfl
      exact this
  have key : ∀ k : ℤ, (2 : ℚ) ^ k ≤ (n : ℚ) / d → (n : ℚ) / d < 2 ^ (k + 1) → k = Int.log 2 ((n : ℚ) / d) := by
    intro k h1 h2
    apply le_antisymm
    · exact (Int.zpow_le_iff_le_log (by norm_num) hpos).1 (by exact_mod_cast h1)
    · have := (Int.lt_zpow_iff_log_lt (b := 2) (by norm_num) hpos).1 (by exact_mod_cast h2)
      omega
  unfold leadingExp
  rw [← he]
  simp only
  by_cases h : (2 : ℚ) ^ e ≤ (n : ℚ) / d
  · rw [if_pos (test.2 h)]
    exact key e h hi
  · rw [if_neg (fun h' => h (test.1 h'))]
    exact key (e - 1) lo (by simpa using lt_of_not_ge h)

/-! ### Rounding a magnitude -/

/-- The exponent of the multiples a magnitude is rounded to. -/
def quantum (p emin : ℤ) (x : ℚ) : ℤ := max (Int.log 2 x - (p - 1)) (emin - (p - 1))

/-- A positive rational rounded, before the test for an infinity. -/
def roundMag (p emin : ℤ) (x : ℚ) : ℚ := nearestEven (x / 2 ^ quantum p emin x) * 2 ^ quantum p emin x

theorem two_zpow_pos (q : ℤ) : (0 : ℚ) < 2 ^ q := by positivity

theorem roundBinary_eq (p emin emax : ℤ) {x : ℚ} (hx : x ≠ 0) :
    roundBinary p emin emax x =
      if (2 : ℚ) ^ (emax + 1) ≤ roundMag p emin |x| then none
      else some (if x < 0 then -roundMag p emin |x| else roundMag p emin |x|) := by
  have hnum : x.num ≠ 0 := Rat.num_ne_zero.2 hx
  have hn : 0 < x.num.natAbs := Int.natAbs_pos.2 hnum
  have habs : (x.num.natAbs : ℚ) / x.den = |x| := by
    conv_rhs => rw [← Rat.num_div_den x, abs_div]
    rw [Nat.abs_cast, Nat.cast_natAbs, Int.cast_abs]
  have hq : max (leadingExp x.num.natAbs x.den - (p - 1)) (emin - (p - 1)) = quantum p emin |x| := by
    rw [leadingExp_eq hn x.den_pos, habs, quantum]
  have hmag : ∀ q : ℤ, scale2 (roundQuantum x.num.natAbs x.den q) q = nearestEven (|x| / 2 ^ q) * 2 ^ q := by
    intro q
    rw [scale2_eq]
    congr 1
    rw [← habs]
    have : ((roundQuantum x.num.natAbs x.den q : ℕ) : ℤ) = nearestEven ((x.num.natAbs : ℚ) / x.den / 2 ^ q) := by
      unfold roundQuantum
      split_ifs with h
      · obtain ⟨k, rfl⟩ : ∃ k : ℕ, q = k := ⟨q.toNat, by omega⟩
        rw [halfEven_eq _ _ (by have := x.den_pos; positivity)]
        push_cast
        rw [Int.toNat_natCast, zpow_natCast, div_div]
      · obtain ⟨k, rfl⟩ : ∃ k : ℕ, q = -k := ⟨(-q).toNat, by omega⟩
        rw [halfEven_eq _ _ x.den_pos]
        push_cast
        rw [neg_neg, Int.toNat_natCast, zpow_neg, zpow_natCast, div_inv_eq_mul, div_mul_eq_mul_div]
    exact_mod_cast congrArg (fun z : ℤ => (z : ℚ)) this
  unfold roundBinary
  rw [if_neg hnum]
  simp only [hq, hmag, Rat.num_neg, scale2_eq, Nat.cast_one, one_mul]
  rfl

@[simp] theorem roundBinary_zero (p emin emax : ℤ) : roundBinary p emin emax 0 = some 0 := by simp [roundBinary]

theorem log_mono {x y : ℚ} (hx : 0 < x) (h : x ≤ y) : Int.log 2 x ≤ Int.log 2 y := Int.log_mono_right hx h

theorem zpow_log_le {x : ℚ} (hx : 0 < x) : (2 : ℚ) ^ Int.log 2 x ≤ x := by
  simpa using Int.zpow_log_le_self (b := 2) (by norm_num) hx

theorem lt_zpow_log (x : ℚ) : x < 2 ^ (Int.log 2 x + 1) := by
  simpa using Int.lt_zpow_succ_log_self (b := 2) (by norm_num) x

theorem quantum_mono {p emin : ℤ} {x y : ℚ} (hx : 0 < x) (h : x ≤ y) : quantum p emin x ≤ quantum p emin y := by
  have := log_mono hx h
  unfold quantum
  omega

/-- A multiple of the quantum below the value stays below. -/
theorem le_roundMag {p emin : ℤ} {x : ℚ} {k : ℤ} (h : (k : ℚ) * 2 ^ quantum p emin x ≤ x) :
    (k : ℚ) * 2 ^ quantum p emin x ≤ roundMag p emin x := by
  unfold roundMag
  have := le_nearestEven (k := k) (x := x / 2 ^ quantum p emin x) ((le_div_iff₀ (two_zpow_pos _)).2 h)
  have h2 : (k : ℚ) ≤ nearestEven (x / 2 ^ quantum p emin x) := by exact_mod_cast this
  exact mul_le_mul_of_nonneg_right h2 (two_zpow_pos _).le

theorem roundMag_le {p emin : ℤ} {x : ℚ} {k : ℤ} (h : x ≤ (k : ℚ) * 2 ^ quantum p emin x) :
    roundMag p emin x ≤ (k : ℚ) * 2 ^ quantum p emin x := by
  unfold roundMag
  have := nearestEven_le (k := k) (x := x / 2 ^ quantum p emin x) ((div_le_iff₀ (two_zpow_pos _)).2 h)
  have h2 : (nearestEven (x / 2 ^ quantum p emin x) : ℚ) ≤ k := by exact_mod_cast this
  exact mul_le_mul_of_nonneg_right h2 (two_zpow_pos _).le

/-- A power of two that is a multiple of the quantum, as such. -/
theorem zpow_eq_mul {q k : ℤ} (h : q ≤ k) : (2 : ℚ) ^ k = ((2 ^ (k - q).toNat : ℤ) : ℚ) * 2 ^ q := by
  push_cast
  rw [← zpow_natCast, Int.toNat_of_nonneg (by omega), ← zpow_add₀ (by norm_num)]
  congr 1
  omega

theorem roundMag_nonneg (p emin : ℤ) {x : ℚ} (hx : 0 < x) : 0 ≤ roundMag p emin x := by
  simpa using le_roundMag (p := p) (emin := emin) (x := x) (k := 0) (by simpa using hx.le)

theorem roundMag_mono {p emin : ℤ} (hp : 1 ≤ p) {x y : ℚ} (hx : 0 < x) (h : x ≤ y) :
    roundMag p emin x ≤ roundMag p emin y := by
  rcases (quantum_mono (p := p) (emin := emin) hx h).lt_or_eq with hq | hq
  · have hy : 0 < y := hx.trans_le h
    have hqy : quantum p emin y = Int.log 2 y - (p - 1) := by unfold quantum at *; omega
    have h1 : quantum p emin y ≤ Int.log 2 y := by omega
    have hxe : x ≤ 2 ^ Int.log 2 y := by
      by_contra hc
      have hl : Int.log 2 y ≤ Int.log 2 x :=
        (Int.zpow_le_iff_le_log (by norm_num) hx).1 (by simpa using (lt_of_not_ge hc).le)
      unfold quantum at hq hqy
      omega
    calc roundMag p emin x ≤ 2 ^ Int.log 2 y := by
          rw [zpow_eq_mul (q := quantum p emin x) (k := Int.log 2 y) (by omega)] at hxe ⊢
          exact roundMag_le hxe
      _ ≤ roundMag p emin y := by
          have := zpow_log_le hy
          rw [zpow_eq_mul (q := quantum p emin y) (k := Int.log 2 y) h1] at this ⊢
          exact le_roundMag this
  · unfold roundMag
    rw [hq]
    have : (nearestEven (x / 2 ^ quantum p emin y) : ℚ) ≤ nearestEven (y / 2 ^ quantum p emin y) := by
      exact_mod_cast nearestEven_mono (by gcongr)
    exact mul_le_mul_of_nonneg_right this (two_zpow_pos _).le

/-- A significand of at most `p` bits at an admitted exponent is not rounded. -/
theorem roundMag_exact {p emin : ℤ} (hp : 1 ≤ p) {m : ℕ} {q : ℤ} (hm : 0 < m) (hmp : (m : ℚ) ≤ 2 ^ p) (hq : emin - (p - 1) ≤ q) :
    roundMag p emin (m * 2 ^ q) = m * 2 ^ q := by
  have hm' : (0 : ℚ) < m := by exact_mod_cast hm
  have hx : (0 : ℚ) < m * 2 ^ q := by positivity
  have key : ∀ x : ℚ, ∀ k : ℤ, x = k * 2 ^ quantum p emin x → roundMag p emin x = x := by
    intro x k h
    exact le_antisymm (by conv_rhs => rw [h]
                          exact roundMag_le h.le) (by conv_lhs => rw [h]
                                                      exact le_roundMag h.ge)
  rcases hmp.lt_or_eq with hlt | heq
  · have hlog : Int.log 2 ((m : ℚ) * 2 ^ q) < p + q := by
      apply (Int.lt_zpow_iff_log_lt (b := 2) (by norm_num) hx).1
      push_cast
      rw [zpow_add₀ (by norm_num)]
      gcongr
    have hle : quantum p emin ((m : ℚ) * 2 ^ q) ≤ q := by unfold quantum; omega
    apply key _ (m * 2 ^ (q - quantum p emin ((m : ℚ) * 2 ^ q)).toNat)
    conv_lhs => rw [zpow_eq_mul hle]
    push_cast
    ring
  · have hpow : (m : ℚ) * 2 ^ q = 2 ^ (p + q) := by rw [heq, ← zpow_add₀ (by norm_num)]
    rw [hpow] at *
    have hlog : Int.log 2 ((2 : ℚ) ^ (p + q)) = p + q := by
      have := Int.log_zpow (R := ℚ) (b := 2) (by norm_num) (p + q)
      simpa using this
    have hle : quantum p emin ((2 : ℚ) ^ (p + q)) ≤ p + q := by
      unfold quantum
      rw [hlog]
      omega
    exact key _ _ (zpow_eq_mul hle)

/-- A rounded magnitude has a significand of at most `p` bits at an admitted exponent. -/
theorem roundMag_form {p emin : ℤ} (hp : 1 ≤ p) {x : ℚ} (hx : 0 < x) :
    ∃ (m : ℕ) (q : ℤ), roundMag p emin x = m * 2 ^ q ∧ (m : ℚ) ≤ 2 ^ p ∧ emin - (p - 1) ≤ q := by
  refine ⟨(nearestEven (x / 2 ^ quantum p emin x)).toNat, quantum p emin x, ?_, ?_, ?_⟩
  · have h0 : 0 ≤ nearestEven (x / 2 ^ quantum p emin x) := le_nearestEven (k := 0) (by positivity)
    unfold roundMag
    congr 1
    have : ((nearestEven (x / 2 ^ quantum p emin x)).toNat : ℤ) = nearestEven (x / 2 ^ quantum p emin x) :=
      Int.toNat_of_nonneg h0
    exact_mod_cast congrArg (fun z : ℤ => (z : ℚ)) this.symm
  · have h1 : nearestEven (x / 2 ^ quantum p emin x) ≤ 2 ^ p.toNat := by
      apply nearestEven_le
      rw [div_le_iff₀ (two_zpow_pos _)]
      have := (lt_zpow_log x).le
      refine this.trans ?_
      push_cast
      rw [← zpow_natCast, Int.toNat_of_nonneg (by omega), ← zpow_add₀ (by norm_num)]
      apply zpow_le_zpow_right₀ (by norm_num)
      unfold quantum
      omega
    have h2 : (nearestEven (x / 2 ^ quantum p emin x)).toNat ≤ 2 ^ p.toNat := Int.toNat_le.2 (by exact_mod_cast h1)
    have h3 : ((nearestEven (x / 2 ^ quantum p emin x)).toNat : ℚ) ≤ ((2 ^ p.toNat : ℕ) : ℚ) := by exact_mod_cast h2
    refine h3.trans (le_of_eq ?_)
    push_cast
    rw [← zpow_natCast, Int.toNat_of_nonneg (by omega)]
  · unfold quantum
    omega

/-! ### Rounding to a binary format -/

section Binary

variable {p emin emax : ℤ} {x y a b : ℚ}

/-- Rounding commutes with changing the sign. -/
theorem roundBinary_neg (p emin emax : ℤ) (x : ℚ) : roundBinary p emin emax (-x) = (roundBinary p emin emax x).map (- ·) := by
  rcases lt_trichotomy x 0 with h | rfl | h
  · rw [roundBinary_eq _ _ _ (neg_ne_zero.2 h.ne), roundBinary_eq _ _ _ h.ne, abs_neg, if_pos h,
      if_neg (by linarith : ¬ -x < 0)]
    split_ifs <;> simp
  · simp
  · rw [roundBinary_eq _ _ _ (neg_ne_zero.2 h.ne'), roundBinary_eq _ _ _ h.ne', abs_neg, if_pos (by linarith : -x < 0),
      if_neg (by linarith : ¬ x < 0)]
    split_ifs <;> simp

theorem roundBinary_pos (h : 0 < x) : roundBinary p emin emax x =
    if (2 : ℚ) ^ (emax + 1) ≤ roundMag p emin x then none else some (roundMag p emin x) := by
  rw [roundBinary_eq _ _ _ h.ne', abs_of_pos h, if_neg (by linarith : ¬ x < 0)]

theorem roundBinary_nonneg (hx : 0 ≤ x) (h : roundBinary p emin emax x = some a) : 0 ≤ a := by
  rcases hx.lt_or_eq with hx | rfl
  · rw [roundBinary_pos hx] at h
    split_ifs at h
    cases h
    exact roundMag_nonneg p emin hx
  · simp at h
    exact h.le

theorem roundBinary_nonpos (hx : x ≤ 0) (h : roundBinary p emin emax x = some a) : a ≤ 0 := by
  have := roundBinary_nonneg (p := p) (emin := emin) (emax := emax) (x := -x) (a := -a) (by linarith)
    (by rw [roundBinary_neg, h]; rfl)
  linarith

/-- A magnitude below one that rounds to a finite value rounds to a finite value that is not above. -/
theorem roundBinary_le_of_pos (hp : 1 ≤ p) (hx : 0 ≤ x) (h : x ≤ y) (hb : roundBinary p emin emax y = some b) :
    ∃ a, roundBinary p emin emax x = some a ∧ a ≤ b := by
  rcases hx.lt_or_eq with hx | rfl
  · have hy := hx.trans_le h
    rw [roundBinary_pos hy] at hb
    rw [roundBinary_pos hx]
    have hm := roundMag_mono (emin := emin) hp hx h
    split_ifs at hb with h1
    cases hb
    rw [if_neg (by linarith)]
    exact ⟨_, rfl, hm⟩
  · exact ⟨0, by simp, roundBinary_nonneg h hb⟩

/-- A value between two that round to finite values rounds to one between theirs. -/
theorem roundBinary_between (hp : 1 ≤ p) (h1 : x ≤ y) {z c : ℚ} (h2 : y ≤ z) (ha : roundBinary p emin emax x = some a)
    (hc : roundBinary p emin emax z = some c) : ∃ b, roundBinary p emin emax y = some b ∧ a ≤ b ∧ b ≤ c := by
  rcases le_total 0 y with hy | hy
  · obtain ⟨b, hb, hbc⟩ := roundBinary_le_of_pos hp hy h2 hc
    refine ⟨b, hb, ?_, hbc⟩
    rcases le_total 0 x with hx | hx
    · obtain ⟨a', ha', hab⟩ := roundBinary_le_of_pos hp hx h1 hb
      rw [ha] at ha'
      cases ha'
      exact hab
    · exact (roundBinary_nonpos hx ha).trans (roundBinary_nonneg hy hb)
  · have hna : roundBinary p emin emax (-x) = some (-a) := by rw [roundBinary_neg, ha]; rfl
    obtain ⟨b, hb, hba⟩ := roundBinary_le_of_pos hp (by linarith : 0 ≤ -y) (by linarith : -y ≤ -x) hna
    have hb' : roundBinary p emin emax y = some (-b) := by
      have := roundBinary_neg p emin emax (-y)
      rw [neg_neg, hb] at this
      simpa using this
    refine ⟨-b, hb', by linarith, ?_⟩
    rcases le_total 0 z with hz | hz
    · have := roundBinary_nonneg (by linarith : 0 ≤ -y) hb
      have := roundBinary_nonneg hz hc
      linarith
    · have hnc : roundBinary p emin emax (-z) = some (-c) := by rw [roundBinary_neg, hc]; rfl
      obtain ⟨c', hc', hcb⟩ := roundBinary_le_of_pos hp (by linarith : 0 ≤ -z) (by linarith : -z ≤ -y) hb
      rw [hnc] at hc'
      cases hc'
      linarith

/-- A significand of at most `p` bits at an admitted exponent, of a finite magnitude, is a value of the format. -/
theorem roundBinary_exact (hp : 1 ≤ p) {m : ℕ} {q : ℤ} (hmp : (m : ℚ) ≤ 2 ^ p) (hq : emin - (p - 1) ≤ q)
    (hfin : (m : ℚ) * 2 ^ q < 2 ^ (emax + 1)) : roundBinary p emin emax ((m : ℚ) * 2 ^ q) = some ((m : ℚ) * 2 ^ q) := by
  rcases Nat.eq_zero_or_pos m with rfl | hm
  · simp
  · have hm' : (0 : ℚ) < m := by exact_mod_cast hm
    rw [roundBinary_pos (by positivity), roundMag_exact hp hm hmp hq, if_neg (by linarith)]

/-- What a rounded value is. -/
theorem roundBinary_form (hp : 1 ≤ p) (h : roundBinary p emin emax x = some a) :
    ∃ (m : ℕ) (q : ℤ), |a| = m * 2 ^ q ∧ (m : ℚ) ≤ 2 ^ p ∧ emin - (p - 1) ≤ q ∧ |a| < 2 ^ (emax + 1) := by
  by_cases hx : x = 0
  · subst hx
    simp at h
    subst h
    exact ⟨0, emin - (p - 1), by simp, by positivity, le_rfl, by rw [abs_zero]; positivity⟩
  · have hax : 0 < |x| := abs_pos.2 hx
    rw [roundBinary_eq _ _ _ hx] at h
    split_ifs at h with h1 h2 <;> cases h
    · obtain ⟨m, q, h3, h4, h5⟩ := roundMag_form (emin := emin) hp hax
      have := roundMag_nonneg p emin hax
      exact ⟨m, q, by rw [abs_neg, abs_of_nonneg this, h3], h4, h5, by rw [abs_neg, abs_of_nonneg this]; linarith⟩
    · obtain ⟨m, q, h3, h4, h5⟩ := roundMag_form (emin := emin) hp hax
      have := roundMag_nonneg p emin hax
      exact ⟨m, q, by rw [abs_of_nonneg this, h3], h4, h5, by rw [abs_of_nonneg this]; linarith⟩

theorem roundBinary_of_abs (h : roundBinary p emin emax |x| = some |x|) : roundBinary p emin emax x = some x := by
  rcases le_total 0 x with hx | hx
  · rwa [abs_of_nonneg hx] at h
  · rw [abs_of_nonpos hx, roundBinary_neg] at h
    cases hr : roundBinary p emin emax x with
    | none => simp [hr] at h
    | some b => simpa [hr] using h

/-- A rounded value is a value of the format. -/
theorem roundBinary_idem (hp : 1 ≤ p) (h : roundBinary p emin emax x = some a) : roundBinary p emin emax a = some a := by
  obtain ⟨m, q, h1, h2, h3, h4⟩ := roundBinary_form hp h
  apply roundBinary_of_abs
  rw [h1] at h4 ⊢
  exact roundBinary_exact hp h2 h3 h4

/-- Twice a value of the format is rounded only when it is too large. -/
theorem roundBinary_double (hp : 1 ≤ p) (hx : roundBinary p emin emax x = some x)
    (h : roundBinary p emin emax (x + x) = some a) : a = x + x := by
  obtain ⟨m, q, h1, h2, h3, h4⟩ := roundBinary_form hp hx
  have habs : |x + x| = m * 2 ^ (q + 1) := by
    rw [← two_mul, abs_mul, h1, zpow_add₀ (by norm_num)]
    norm_num
    ring
  by_cases hm : m = 0
  · subst hm
    have : x = 0 := by simpa using h1
    subst this
    simpa using h.symm
  have hmag : roundMag p emin |x + x| = |x + x| := by
    rw [habs]
    exact roundMag_exact hp (Nat.pos_of_ne_zero hm) h2 (by omega)
  have hne : x + x ≠ 0 := by
    have hm' : (0 : ℚ) < m := by exact_mod_cast Nat.pos_of_ne_zero hm
    have : (0 : ℚ) < |x + x| := by rw [habs]; positivity
    exact abs_pos.1 this
  rw [roundBinary_eq _ _ _ hne, hmag] at h
  split_ifs at h with h5 h6
  · cases h
    rw [abs_of_neg h6]; ring
  · cases h
    rw [abs_of_nonneg (not_lt.1 h6)]

end Binary

/-! ### The rounding of `NUM` -/

section NumFormat

variable {num : NumFormat} {x y z a b c : FVal}

@[simp] theorem roundF_exact (x : FVal) : roundF .exact x = some x := rfl

@[simp] theorem roundF_zero (num : NumFormat) : roundF num 0 = some 0 := by cases num <;> simp [roundF]

@[simp] theorem isF_exact (x : FVal) : isF .exact x = true := by simp [isF]

theorem isF_iff : isF num x = true ↔ roundF num x = some x := by simp [isF]

theorem roundF_neg (num : NumFormat) (x : FVal) : roundF num (-x) = (roundF num x).map (- ·) := by
  cases num
  · rfl
  · exact roundBinary_neg _ _ _ x
  · exact roundBinary_neg _ _ _ x

/-- A value between two that round to values of `F` rounds to one between theirs. -/
theorem roundF_between (h1 : x ≤ y) (h2 : y ≤ z) (ha : roundF num x = some a) (hc : roundF num z = some c) :
    ∃ b, roundF num y = some b ∧ a ≤ b ∧ b ≤ c := by
  cases num
  · simp only [roundF_exact, Option.some.injEq] at ha hc
    exact ⟨y, rfl, ha ▸ h1, hc ▸ h2⟩
  · exact roundBinary_between (by norm_num) h1 h2 ha hc
  · exact roundBinary_between (by norm_num) h1 h2 ha hc

/-- Rounding keeps the order. -/
theorem roundF_mono (h : x ≤ y) (ha : roundF num x = some a) (hb : roundF num y = some b) : a ≤ b := by
  obtain ⟨b', hb', h1, -⟩ := roundF_between h le_rfl ha hb
  rw [hb] at hb'
  cases hb'
  exact h1

/-- A rounded value is a value of `F`. -/
theorem roundF_idem (h : roundF num x = some a) : roundF num a = some a := by
  cases num
  · rfl
  · exact roundBinary_idem (by norm_num) h
  · exact roundBinary_idem (by norm_num) h

/-- Twice a value of `F` is rounded only when it is too large. -/
theorem roundF_double (hx : roundF num x = some x) (h : roundF num (x + x) = some a) : a = x + x := by
  cases num
  · simpa using h.symm
  · exact roundBinary_double (by norm_num) hx h
  · exact roundBinary_double (by norm_num) hx h

/-- The integers up to `2^24` are values of `F` in every `NUM`. -/
theorem roundF_natCast (num : NumFormat) {m : ℕ} (hm : m ≤ 2 ^ 24) : roundF num (m : FVal) = some (m : FVal) := by
  have h24 : (m : ℚ) ≤ 2 ^ 24 := by exact_mod_cast hm
  cases num
  · rfl
  · have := roundBinary_exact (p := 24) (emin := -126) (emax := 127) (by norm_num) (m := m) (q := 0)
      (by exact_mod_cast h24) (by norm_num) (by norm_num; linarith)
    simpa [roundF] using this
  · have := roundBinary_exact (p := 53) (emin := -1022) (emax := 1023) (by norm_num) (m := m) (q := 0)
      (by norm_num; linarith) (by norm_num) (by
        have : (2 : ℚ) ^ 24 < 2 ^ ((1023 : ℤ) + 1) := by
          rw [show ((1023 : ℤ) + 1) = ((1024 : ℕ) : ℤ) by norm_num, zpow_natCast]
          exact pow_lt_pow_right₀ (by norm_num) (by norm_num)
        simpa using lt_of_le_of_lt h24 this)
    simpa [roundF] using this

/-- The powers of two up to `2^127` are values of `F` in every `NUM`. -/
theorem roundF_two_pow (num : NumFormat) {k : ℕ} (hk : k ≤ 127) : roundF num ((2 : FVal) ^ k) = some ((2 : FVal) ^ k) := by
  cases num
  · rfl
  · have := roundBinary_exact (p := 24) (emin := -126) (emax := 127) (by norm_num) (m := 1) (q := k)
      (by norm_num) (by omega) (by
        rw [Nat.cast_one, one_mul]
        exact zpow_lt_zpow_right₀ (by norm_num) (by omega))
    simpa [roundF] using this
  · have := roundBinary_exact (p := 53) (emin := -1022) (emax := 1023) (by norm_num) (m := 1) (q := k)
      (by norm_num) (by omega) (by
        rw [Nat.cast_one, one_mul]
        exact zpow_lt_zpow_right₀ (by norm_num) (by omega))
    simpa [roundF] using this

/-- What a magnitude of at most `2^k` rounds to is finite and of at most `2^k`. -/
theorem roundF_of_abs_le {k : ℕ} (hk : k ≤ 127) (h : |x| ≤ (2 : FVal) ^ k) :
    ∃ b, roundF num x = some b ∧ |b| ≤ (2 : FVal) ^ k := by
  have h' := abs_le.1 h
  have hp := roundF_two_pow num hk
  have hn : roundF num (-(2 : FVal) ^ k) = some (-(2 : FVal) ^ k) := by rw [roundF_neg, hp]; rfl
  obtain ⟨b, hb, h1, h2⟩ := roundF_between h'.1 h'.2 hn hp
  exact ⟨b, hb, abs_le.2 ⟨h1, h2⟩⟩

/-- A value of `F` between the bounds of a clamp is clamped to one. -/
theorem clamp_mem {lo hi : FVal} (h : lo ≤ hi) (x : FVal) : lo ≤ clamp x lo hi ∧ clamp x lo hi ≤ hi := by
  unfold clamp
  split_ifs <;> constructor <;> linarith

theorem clamp_eq {lo hi : FVal} (h : lo ≤ hi) (x : FVal) : clamp x lo hi = max lo (min hi x) := by
  unfold clamp
  split_ifs with h1 h2
  · rw [min_eq_right (by linarith), max_eq_left (by linarith)]
  · rw [min_eq_left (by linarith), max_eq_right h]
  · rw [min_eq_right (by linarith), max_eq_right (by linarith)]

/-! ### `round_haz` (R16) -/

theorem roundHaz_of_nonneg (h : 0 ≤ x) : roundHaz x = ⌊x + 1 / 2⌋ := by rw [roundHaz, if_pos h]; rfl

theorem roundHaz_of_neg (h : x < 0) : roundHaz x = ⌈x - 1 / 2⌉ := by
  rw [roundHaz, if_neg (by linarith)]
  have : ((-x + 1 / 2).floor : ℤ) = ⌊-x + 1 / 2⌋ := rfl
  rw [this, show -x + 1 / 2 = -(x - 1 / 2) by ring, Int.floor_neg, neg_neg]

@[simp] theorem roundHaz_intCast (k : ℤ) : roundHaz (k : FVal) = k := by
  rcases le_or_gt 0 (k : FVal) with h | h
  · rw [roundHaz_of_nonneg h, Int.floor_eq_iff]
    constructor <;> linarith
  · rw [roundHaz_of_neg h, Int.ceil_eq_iff]
    constructor <;> linarith

theorem roundHaz_mono (h : x ≤ y) : roundHaz x ≤ roundHaz y := by
  rcases le_or_gt 0 x with hx | hx
  · rw [roundHaz_of_nonneg hx, roundHaz_of_nonneg (hx.trans h)]
    exact Int.floor_le_floor (by linarith)
  · rcases le_or_gt 0 y with hy | hy
    · rw [roundHaz_of_nonneg hy, roundHaz_of_neg hx]
      have h1 : ⌈x - 1 / 2⌉ ≤ 0 := Int.ceil_le.2 (by push_cast; linarith)
      have h2 : 0 ≤ ⌊y + 1 / 2⌋ := Int.le_floor.2 (by push_cast; linarith)
      omega
    · rw [roundHaz_of_neg hx, roundHaz_of_neg hy]
      exact Int.ceil_le_ceil (by linarith)

/-- An integer range is kept by rounding to the nearest integer. -/
theorem roundHaz_mem {l u : ℤ} (h1 : (l : FVal) ≤ x) (h2 : x ≤ u) : l ≤ roundHaz x ∧ roundHaz x ≤ u :=
  ⟨by simpa using roundHaz_mono h1, by simpa using roundHaz_mono h2⟩

/-- The nearest integer is at most one half away. -/
theorem abs_sub_roundHaz_le (x : FVal) : |x - roundHaz x| ≤ 1 / 2 := by
  rcases le_or_gt 0 x with h | h
  · rw [roundHaz_of_nonneg h, abs_le]
    have h1 := Int.floor_le (x + 1 / 2)
    have h2 := Int.lt_floor_add_one (x + 1 / 2)
    constructor <;> linarith
  · rw [roundHaz_of_neg h, abs_le]
    have h1 := Int.le_ceil (x - 1 / 2)
    have h2 := Int.ceil_lt_add_one (x - 1 / 2)
    constructor <;> linarith

end NumFormat

end Sys2Proof.Machine
end

