-- ==== Sys2Proof/Laws/Quantizer.lean ====
section
/-! SUPPORT. The quantizer and the dequantizer never meet a value that is not finite, in any `NUM`, and the quantizer's
results are in their declared ranges (rule R203). -/

namespace Sys2Proof.Machine.Quantizer

variable (num : NumFormat)

theorem i2f_aScale : i2f num aScale = some 511 := by
  have := roundF_natCast num (m := 511) (by norm_num)
  simpa [i2f, aScale] using this

theorem i2f_bcdScale : i2f num bcdScale = some 50 := by
  have := roundF_natCast num (m := 50) (by norm_num)
  simpa [i2f, bcdScale] using this

/-- The bound of the clamp and its product with the scale, in each `NUM`: the product rounds to 15. -/
theorem bcdClamp_spec : ∃ b, bcdClamp num = some b ∧ 0 < b ∧ ∃ r, fmul num b 50 = some r ∧ roundHaz r = 15 := by
  cases num
  · exact ⟨0.3, rfl, by norm_num, 0.3 * 50, rfl, by decide +kernel⟩
  · exact ⟨5033165 / 16777216, by decide +kernel, by norm_num, 15728641 / 1048576, by decide +kernel, by decide +kernel⟩
  · exact ⟨5404319552844595 / 18014398509481984, by decide +kernel, by norm_num, 15, by decide +kernel, by decide +kernel⟩

/-- The luma mean quantizes to a number of nine bits (R203). -/
theorem quantA_some (a : FVal) : ∃ n, quantA num a = some n ∧ 0 ≤ n ∧ n ≤ 511 := by
  obtain ⟨h1, h2⟩ := clamp_mem (lo := 0) (hi := 1) (by norm_num) a
  obtain ⟨r, hr, hr1, hr2⟩ := roundF_between (num := num) (x := 0) (y := clamp a 0 1 * 511) (z := ((511 : ℕ) : FVal))
    (by positivity) (by push_cast; linarith) (roundF_zero num) (roundF_natCast num (by norm_num))
  refine ⟨roundHaz r, ?_, roundHaz_mem (by exact_mod_cast hr1) (by exact_mod_cast hr2)⟩
  simp only [quantA, i2f_aScale, fmul, hr, bind, Option.bind, pure]

/-- The three details quantize to numbers of -15 to 15 (R203). -/
theorem quantBcd_some (x : FVal) : ∃ n, quantBcd num x = some n ∧ -15 ≤ n ∧ n ≤ 15 := by
  obtain ⟨b, hb, hb0, r, hr, hr15⟩ := bcdClamp_spec num
  obtain ⟨h1, h2⟩ := clamp_mem (lo := -b) (hi := b) (by linarith) x
  have hneg : roundF num (-(b * 50)) = some (-r) := by rw [roundF_neg, show roundF num (b * 50) = some r from hr]; rfl
  obtain ⟨y, hy, hy1, hy2⟩ := roundF_between (num := num) (x := -(b * 50)) (y := clamp x (-b) b * 50) (z := b * 50)
    (by linarith) (by linarith) hneg hr
  refine ⟨roundHaz y, ?_, ?_, ?_⟩
  · simp only [quantBcd, hb, i2f_bcdScale, fmul, hy, bind, Option.bind, pure]
  · have h3 := roundHaz_mono hy1
    have h4 : roundHaz (-r) = -15 := by
      have hpos : 0 < r := by
        by_contra hc
        have := roundHaz_mono (show r ≤ ((0 : ℤ) : FVal) by push_cast; linarith)
        rw [hr15, roundHaz_intCast] at this
        omega
      rw [roundHaz_of_neg (by linarith), show -r - 1 / 2 = -(r + 1 / 2) by ring, Int.ceil_neg,
        ← roundHaz_of_nonneg hpos.le, hr15]
    omega
  · have := roundHaz_mono hy2
    omega

/-- The quantizer completes on all operands, with the fields that its parts give. -/
theorem quantize_some (c2i : FVal → Fin 16) (co : BlockCoefficients) :
    ∃ a b c d, quantA num co.a = some a ∧ quantBcd num co.b = some b ∧ quantBcd num co.c = some c ∧
      quantBcd num co.d = some d ∧ quantize num c2i co = some
        { a := BitVec.ofInt 64 a, b := BitVec.ofInt 64 b, c := BitVec.ofInt 64 c, d := BitVec.ofInt 64 d,
          indexPb := BitVec.ofNat 64 (c2i co.pbAvg), indexPr := BitVec.ofNat 64 (c2i co.prAvg) } := by
  obtain ⟨a, ha, -⟩ := quantA_some num co.a
  obtain ⟨b, hb, -⟩ := quantBcd_some num co.b
  obtain ⟨c, hc, -⟩ := quantBcd_some num co.c
  obtain ⟨d, hd, -⟩ := quantBcd_some num co.d
  exact ⟨a, b, c, d, ha, hb, hc, hd, by simp only [quantize, ha, hb, hc, hd, bind, Option.bind, pure]⟩

theorem toInt_ofInt_small {x : Int} (h1 : -(2 ^ 63 : Int) ≤ x) (h2 : x ≤ 2 ^ 63 - 1) : (BitVec.ofInt 64 x).toInt = x := by
  rw [BitVec.toInt_ofInt, Int.bmod_eq_of_le] <;> omega

theorem toNat_ofInt_small {x : Int} (h1 : 0 ≤ x) (h2 : x < 2 ^ 64) : ((BitVec.ofInt 64 x).toNat : Int) = x := by
  rw [BitVec.toNat_ofInt, Int.toNat_of_nonneg (by omega)]
  exact Int.emod_eq_of_lt h1 (by simpa using h2)

theorem index_toNat (i : Fin 16) : (BitVec.ofNat 64 i.val).toNat = i.val := by
  rw [BitVec.toNat_ofNat, Nat.mod_eq_of_lt (by omega)]

/-- The quantizer's result is in its declared range (R203). -/
theorem quantize_inRange (c2i : FVal → Fin 16) (co : BlockCoefficients) :
    ∃ q, quantize num c2i co = some q ∧ InDeclaredRange q := by
  obtain ⟨a, b, c, d, ha, hb, hc, hd, hq⟩ := quantize_some num c2i co
  refine ⟨_, hq, ?_⟩
  have ra : 0 ≤ a ∧ a ≤ 511 := by
    obtain ⟨n, hn, h⟩ := quantA_some num co.a
    rw [ha] at hn
    cases hn
    exact h
  have r : ∀ {x : FVal} {n : Int}, quantBcd num x = some n → -15 ≤ n ∧ n ≤ 15 := by
    intro x n h
    obtain ⟨m, hm, h'⟩ := quantBcd_some num x
    rw [h] at hm
    cases hm
    exact h'
  have rb := r hb
  have rc := r hc
  have rd := r hd
  simp only [InDeclaredRange, index_toNat]
  have h := toNat_ofInt_small (x := a) ra.1 (by omega)
  rw [toInt_ofInt_small (by omega) (by omega), toInt_ofInt_small (by omega) (by omega),
    toInt_ofInt_small (by omega) (by omega)]
  exact ⟨by omega, rb, rc, rd, by omega, by omega⟩

/-! ### The dequantizer -/

/-- An integer that a 64-bit port carries is finite in `F`, and stays finite when divided by a number of at least 1. -/
theorem fdiv_i2f_some {n : Int} (h : |n| ≤ 2 ^ 64) {k : FVal} (hk : 1 ≤ k) :
    ∃ x y, i2f num n = some x ∧ fdiv num x k = some y := by
  have h' : |(n : FVal)| ≤ (2 : FVal) ^ 64 := by exact_mod_cast h
  obtain ⟨x, hx, hx2⟩ := roundF_of_abs_le (num := num) (k := 64) (by norm_num) h'
  have hxk : |x / k| ≤ (2 : FVal) ^ 64 := by
    rw [abs_div, abs_of_nonneg (by linarith : 0 ≤ k)]
    exact (div_le_self (abs_nonneg x) hk).trans hx2
  obtain ⟨y, hy, -⟩ := roundF_of_abs_le (num := num) (k := 64) (by norm_num) hxk
  exact ⟨x, y, hx, hy⟩

theorem dequantA_some (a : Word) : ∃ x, dequantA num a = some x := by
  have h : |((a.toNat : ℕ) : Int)| ≤ 2 ^ 64 := by
    have := a.isLt
    rw [Nat.abs_cast]
    omega
  obtain ⟨x, y, hx, hy⟩ := fdiv_i2f_some num h (k := 511) (by norm_num)
  exact ⟨clamp y 0 1, by simp only [dequantA, hx, i2f_aScale, hy, bind, Option.bind, pure]⟩

theorem dequantBcd_some (v : Word) : ∃ x, dequantBcd num v = some x := by
  have h : |v.toInt| ≤ 2 ^ 64 := by
    have h1 := BitVec.le_toInt v
    have h2 := BitVec.toInt_lt (x := v)
    rw [abs_le]
    constructor <;> omega
  obtain ⟨x, y, hx, hy⟩ := fdiv_i2f_some num h (k := 50) (by norm_num)
  exact ⟨y, by simp only [dequantBcd, hx, i2f_bcdScale, hy, bind, Option.bind]⟩

/-- The dequantizer completes on all fields. -/
theorem dequantize_some (i2c : Fin 16 → FVal) (q : QuantizedBlock) (pb pr : Fin 16) :
    ∃ a b c d, dequantA num q.a = some a ∧ dequantBcd num q.b = some b ∧ dequantBcd num q.c = some c ∧
      dequantBcd num q.d = some d ∧ dequantize num i2c q pb pr = some ⟨a, b, c, d, i2c pb, i2c pr⟩ := by
  obtain ⟨a, ha⟩ := dequantA_some num q.a
  obtain ⟨b, hb⟩ := dequantBcd_some num q.b
  obtain ⟨c, hc⟩ := dequantBcd_some num q.c
  obtain ⟨d, hd⟩ := dequantBcd_some num q.d
  exact ⟨a, b, c, d, ha, hb, hc, hd, by simp only [dequantize, ha, hb, hc, hd, bind, Option.bind, pure]⟩

end Sys2Proof.Machine.Quantizer
end

