-- ==== Sys2Proof/Tests/Slice0.lean ====
section
/-! SUPPORT. The model's own tests: ill-formed instructions, the words of the opcode table, the vectors of
95_test_vectors.md, and for every statement with hypotheses a witness that meets them. -/

namespace Sys2Proof.Tests

-- One theorem at a time: the kernel evaluations of many at once ask for more threads than the check's memory limit allows.
set_option Elab.async false

open Sys2Proof Sys2Proof.Machine

/-! ### Small states and what a step came to -/

/-- The state after reset, with the spec's default parameters. -/
def fresh : State := State.reset

/-- The state after reset with an input stream. -/
def reading (input : List Byte) : State := State.resetWith Config.default input

/-- The state after reset under another `NUM`. -/
def under (num : NumFormat) : State := State.resetWith { Config.default with num := num } []

/-- A live grid of 5 by 3 elements with blocking factor 2, position (0,0) written. -/
def gridded : State := (fresh.setGrids [(0, ⟨5, 3, 24, 2, [(0, .word 7)]⟩)]).setNextHandle 1

/-- A header for 4 by 2 pixels was written, no codeword yet. -/
def sending : State := (fresh.setOut (Framer.header 4 2)).setFramer .tx 4 2 2

/-- The stream of program P2 (95_test_vectors.md) with its header read. -/
def receiving : State :=
  ((reading (Framer.header 4 2 ++ [0x80#8, 0x80#8, 0x00#8, 0x88#8, 0x80#8, 0x80#8, 0x00#8, 0x88#8])).setInPos 37).setFramer
    .rx 4 2 2

/-- A halted block. -/
def halted : State := sending.setFault 2#3

/-- The result of a step that delivered one. -/
def result? : StepResult → Option Result
  | .next t => t.response.bind Response.result
  | .refused _ => none

/-- The code in `FAULT` after a step. -/
def fault? : StepResult → Option (BitVec 3)
  | .next t => some t.fault
  | .refused _ => none

/-- Why a step was refused. -/
def refusal? : StepResult → Option Refusal
  | .next _ => none
  | .refused r => some r

/-- The state after a step. -/
def after? : StepResult → Option State
  | .next t => some t
  | .refused _ => none

/-- The quantized fields of a result, without the two indices of the chroma table. -/
def lumas? : Option Result → Option (Int × Int × Int × Int)
  | some (.quantized q) => some (q.a.toInt, q.b.toInt, q.c.toInt, q.d.toInt)
  | _ => none

/-- The luma coefficients of a result. -/
def coeffs? : Option Result → Option (FVal × FVal × FVal × FVal)
  | some (.coeffs co) => some (co.a, co.b, co.c, co.d)
  | _ => none

/-- The four lumas of a result. -/
def block? : Option Result → Option (List FVal)
  | some (.block p1 p2 p3 p4) => some [p1.y, p2.y, p3.y, p4.y]
  | _ => none

/-- A quantized block of small integers. -/
def quantized (a b c d pb pr : Int) : QuantizedBlock :=
  ⟨BitVec.ofInt 64 a, BitVec.ofInt 64 b, BitVec.ofInt 64 c, BitVec.ofInt 64 d, BitVec.ofInt 64 pb, BitVec.ofInt 64 pr⟩

/-- A color pixel without chroma. -/
def gray (y : FVal) : ColorPixel := ⟨y, 0, 0⟩

/-- The bytes of an ASCII text. -/
def text (s : String) : List Byte := s.toList.map fun c => BitVec.ofNat 8 c.toNat

/-! ### Ill-formed instructions are refused by `Instr.wf` (R96, R102), their neighbours in range are not -/

theorem test_wf_arg_bitfield :
    (Instr.bfFitsu 0 (2 ^ 32)).wf Config.default = false ∧ (Instr.bfFitsu 0 (2 ^ 32 - 1)).wf Config.default = true ∧
    (Instr.bfFitss 0 (2 ^ 32)).wf Config.default = false ∧
    (Instr.bfGetu 0 (2 ^ 32) 0).wf Config.default = false ∧ (Instr.bfGetu 0 0 (2 ^ 32)).wf Config.default = false ∧
    (Instr.bfGets 0 (2 ^ 32) 0).wf Config.default = false ∧ (Instr.bfGets 0 0 (2 ^ 32)).wf Config.default = false ∧
    (Instr.bfNewu 0 (2 ^ 32) 0 0).wf Config.default = false ∧ (Instr.bfNewu 0 0 (2 ^ 32) 0).wf Config.default = false ∧
    (Instr.bfNews 0 (2 ^ 32) 0 0).wf Config.default = false ∧ (Instr.bfNews 0 0 (2 ^ 32) 0).wf Config.default = false := by
  decide

theorem test_wf_arg_grid :
    (Instr.gridNew (2 ^ 32) 0 0 0).wf Config.default = false ∧ (Instr.gridNew 0 (2 ^ 32) 0 0).wf Config.default = false ∧
    (Instr.gridNew 0 0 (2 ^ 32) 0).wf Config.default = false ∧ (Instr.gridNew 0 0 0 (2 ^ 32)).wf Config.default = false ∧
    (Instr.gridNewdef (2 ^ 32) 0 0).wf Config.default = false ∧ (Instr.gridNewdef 0 (2 ^ 32) 0).wf Config.default = false ∧
    (Instr.gridNewdef 0 0 (2 ^ 32)).wf Config.default = false ∧
    (Instr.gridAtRd 0 (2 ^ 32) 0).wf Config.default = false ∧ (Instr.gridAtRd 0 0 (2 ^ 32)).wf Config.default = false ∧
    (Instr.gridAtWr 0 (2 ^ 32) 0 (.word 0)).wf Config.default = false ∧
    (Instr.gridAtWr 0 0 (2 ^ 32) (.word 0)).wf Config.default = false := by
  decide

theorem test_wf_chan :
    (Instr.cscFwd ⟨65536, 0, 0⟩ 1).wf Config.default = false ∧ (Instr.cscFwd ⟨0, 65536, 0⟩ 1).wf Config.default = false ∧
    (Instr.cscFwd ⟨0, 0, 65536⟩ 1).wf Config.default = false ∧ (Instr.cscFwd ⟨0, 0, 0⟩ 65536).wf Config.default = false ∧
    (Instr.cscFwd ⟨65535, 65535, 65535⟩ 65535).wf Config.default = true ∧
    (Instr.cscInv ⟨0, 0, 0⟩ 65536).wf Config.default = false ∧
    (Instr.gridAtWr 0 0 0 (.pixel ⟨65536, 0, 0⟩)).wf Config.default = false := by
  decide +kernel

/-- 1/3 is no binary64 value, 1/4 is one; every rational is a value under `EXACT` (R15). -/
theorem test_wf_fval :
    (Instr.cscInv ⟨1 / 3, 0, 0⟩ 1).wf (under .b64).cfg = false ∧ (Instr.cscInv ⟨0, 1 / 3, 0⟩ 1).wf (under .b64).cfg = false ∧
    (Instr.cscInv ⟨0, 0, 1 / 3⟩ 1).wf (under .b64).cfg = false ∧ (Instr.cscInv ⟨1 / 4, 0, 0⟩ 1).wf (under .b64).cfg = true ∧
    (Instr.cscInv ⟨1 / 3, 0, 0⟩ 1).wf fresh.cfg = true := by
  decide +kernel

theorem test_wf_pixels :
    (Instr.btFwd (gray (1 / 3)) (gray 0) (gray 0) (gray 0)).wf (under .b32).cfg = false ∧
    (Instr.btFwd (gray 0) (gray (1 / 3)) (gray 0) (gray 0)).wf (under .b32).cfg = false ∧
    (Instr.btFwd (gray 0) (gray 0) (gray (1 / 3)) (gray 0)).wf (under .b32).cfg = false ∧
    (Instr.btFwd (gray 0) (gray 0) (gray 0) (gray (1 / 3))).wf (under .b32).cfg = false := by
  decide +kernel

theorem test_wf_coeffs :
    (Instr.btInv ⟨1 / 3, 0, 0, 0, 0, 0⟩).wf (under .b32).cfg = false ∧
    (Instr.btInv ⟨0, 1 / 3, 0, 0, 0, 0⟩).wf (under .b32).cfg = false ∧
    (Instr.btInv ⟨0, 0, 1 / 3, 0, 0, 0⟩).wf (under .b32).cfg = false ∧
    (Instr.qQuant ⟨0, 0, 0, 1 / 3, 0, 0⟩).wf (under .b32).cfg = false ∧
    (Instr.qQuant ⟨0, 0, 0, 0, 1 / 3, 0⟩).wf (under .b32).cfg = false ∧
    (Instr.qQuant ⟨0, 0, 0, 0, 0, 1 / 3⟩).wf (under .b32).cfg = false ∧
    (Instr.gridAtWr 0 0 0 (.color (gray (1 / 3)))).wf (under .b32).cfg = false ∧
    (Instr.gridAtWr 0 0 0 (.coeffs ⟨0, 0, 1 / 3, 0, 0, 0⟩)).wf (under .b32).cfg = false := by
  decide +kernel

theorem test_wf_bytes_and_dims :
    (Instr.cwDec [0, 0, 0, 0, 0]).wf Config.default = false ∧ (Instr.cwDec [0, 0, 0, 0]).wf Config.default = true ∧
    (Instr.frHdrw (2 ^ 32) 0).wf Config.default = false ∧ (Instr.frHdrw 0 (2 ^ 32)).wf Config.default = false := by
  decide

/-! ### The words of the opcode table (R100), written out as unit and function -/

theorem test_decode_bitfield :
    decodeTableWord 8 0b00000000 = some (.bfFitsu 0 0) ∧ decodeTableWord 8 0b00000001 = some (.bfFitss 0 0) ∧
    decodeTableWord 8 0b00000010 = some (.bfGetu 0 0 0) ∧ decodeTableWord 8 0b00000011 = some (.bfGets 0 0 0) ∧
    decodeTableWord 8 0b00000100 = some (.bfNewu 0 0 0 0) ∧ decodeTableWord 8 0b00000101 = some (.bfNews 0 0 0 0) := by
  decide +kernel

theorem test_decode_grid :
    decodeTableWord 8 0b00010000 = some (.gridNew 0 0 0 0) ∧ decodeTableWord 8 0b00010001 = some (.gridNewdef 0 0 0) ∧
    decodeTableWord 8 0b00010010 = some (.gridAtRd 0 0 0) ∧ decodeTableWord 8 0b00010011 = some (.gridAtWr 0 0 0 (.word 0)) ∧
    decodeTableWord 8 0b00010100 = some (.gridForeach 0) ∧ decodeTableWord 8 0b00010101 = some (.gridWidth 0) ∧
    decodeTableWord 8 0b00010110 = some (.gridHeight 0) ∧ decodeTableWord 8 0b00010111 = some (.gridEsize 0) ∧
    decodeTableWord 8 0b00011000 = some (.gridBsize 0) ∧ decodeTableWord 8 0b00011001 = some (.gridFree 0) := by
  decide +kernel

theorem test_decode_transforms :
    decodeTableWord 8 0b00100000 = some (.cscFwd ⟨0, 0, 0⟩ 0) ∧ decodeTableWord 8 0b00100001 = some (.cscInv ⟨0, 0, 0⟩ 0) ∧
    decodeTableWord 8 0b00110000 = some (.btFwd ⟨0, 0, 0⟩ ⟨0, 0, 0⟩ ⟨0, 0, 0⟩ ⟨0, 0, 0⟩) ∧
    decodeTableWord 8 0b00110001 = some (.btInv ⟨0, 0, 0, 0, 0, 0⟩) ∧
    decodeTableWord 8 0b01000000 = some (.qQuant ⟨0, 0, 0, 0, 0, 0⟩) ∧
    decodeTableWord 8 0b01000001 = some (.qDequant ⟨0, 0, 0, 0, 0, 0⟩) := by
  decide +kernel

theorem test_decode_codewords :
    decodeTableWord 8 0b01010000 = some (.cwEnc ⟨0, 0, 0, 0, 0, 0⟩) ∧ decodeTableWord 8 0b01010001 = some (.cwDec []) ∧
    decodeTableWord 8 0b01100000 = some (.frHdrw 0 0) ∧ decodeTableWord 8 0b01100001 = some (.frPut ⟨0, 0, 0, 0, 0, 0⟩) ∧
    decodeTableWord 8 0b01100010 = some .frHdrr ∧ decodeTableWord 8 0b01100011 = some .frGet := by
  decide +kernel

/-- Program P7 run h, and a word wider than the table's byte (R101, R103). -/
theorem test_decode_reserved :
    decodeTableWord 8 0x7F = none ∧ decodeTableWord 8 0x06 = none ∧ decodeTableWord 8 0xFF = none ∧
    decodeTableWord 16 0x100 = none ∧ refusal? (step (fresh.withFetchWord 8 0x7F)) = some (.reservedOp 0x7F#8) := by
  decide +kernel

/-- The operands come from the ports the formats of R96 name, in their order. -/
theorem test_decode_operands :
    decode ⟨0x04#8, { Ports.idle with word := 1, width := 2, lsb := 3, value := 4 }⟩ = .ok (.bfNewu 1 2 3 4) ∧
    decode ⟨0x10#8, { Ports.idle with width := 1, height := 2, elementSize := 3, blockSize := 4 }⟩ = .ok (.gridNew 1 2 3 4) ∧
    decode ⟨0x12#8, { Ports.idle with g := 1, col := 2, row := 3 }⟩ = .ok (.gridAtRd 1 2 3) ∧
    decode ⟨0x60#8, { Ports.idle with width := 4, height := 2 }⟩ = .ok (.frHdrw 4 2) := by
  refine ⟨rfl, rfl, rfl, rfl⟩

/-- The command of a table word is the next thing that runs after reset: `BF.FITSU 0, 0` gives true (V40). -/
theorem test_step_table_word :
    result? (step (State.reset.withFetchWord 8 0x00)) = some (.fits true) ∧
    fault? (step (State.reset.withFetchWord 8 0x10)) = some 1#3 ∧
    after? (step (State.reset.withFetchWord 8 0x60)) =
      some (((fresh.setOut (Framer.line1 ++ [0x30#8, 0x20#8, 0x30#8, 0x0A#8])).setFramer .done 0 0 0).completing) := by
  decide +kernel

/-- With no action of the host the block waits, and its ports hold no value (R43, R302). -/
theorem test_step_waits : after? (step (fresh.setResponse (some ⟨0#3, none⟩))) = some fresh := by decide +kernel

/-- A command with an operand outside its port's type (R102) or with a reserved code (R101) is refused, when halted too. -/
theorem test_step_not_presentable :
    refusal? (step (pushCommand fresh ⟨0x00#8, { Ports.idle with width := 2 ^ 32 }⟩)) = some .notPresentable ∧
    refusal? (step (pushCommand halted ⟨0x00#8, { Ports.idle with width := 2 ^ 32 }⟩)) = some .notPresentable ∧
    refusal? (step (pushCommand halted ⟨0x7F#8, Ports.idle⟩)) = some (.reservedOp 0x7F#8) := by
  decide +kernel

/-! ### BitField: V40 to V44, T6 -/

theorem test_fitsu :
    result? (exec (.bfFitsu 511 9) fresh) = some (.fits true) ∧ result? (exec (.bfFitsu 512 9) fresh) = some (.fits false) ∧
    result? (exec (.bfFitsu 1 0) fresh) = some (.fits false) ∧
    result? (exec (.bfFitsu 0xFFFFFFFFFFFFFFFF#64 64) fresh) = some (.fits true) ∧
    fault? (exec (.bfFitsu 5 65) fresh) = some 2#3 := by
  decide

theorem test_fitss :
    result? (exec (.bfFitss (-16) 5) fresh) = some (.fits true) ∧ result? (exec (.bfFitss (-17) 5) fresh) = some (.fits false) ∧
    result? (exec (.bfFitss 1 1) fresh) = some (.fits false) ∧ result? (exec (.bfFitss (-1) 0) fresh) = some (.fits false) ∧
    result? (exec (.bfFitss 0x8000000000000000#64 64) fresh) = some (.fits true) ∧
    fault? (exec (.bfFitss 0 65) fresh) = some 2#3 := by
  decide

theorem test_getu :
    result? (exec (.bfGetu 0xDEADBEEFCAFEF00D#64 16 24) fresh) = some (.value 0xEFCA) ∧
    result? (exec (.bfGetu 0xDEADBEEFCAFEF00D#64 0 64) fresh) = some (.value 0) ∧
    fault? (exec (.bfGetu 0xDEADBEEFCAFEF00D#64 64 1) fresh) = some 2#3 := by
  decide

theorem test_gets :
    result? (exec (.bfGets 0xDEADBEEFCAFEF00D#64 16 24) fresh) = some (.value (-4150)) ∧
    result? (exec (.bfGets 0xDEADBEEFCAFEF00D#64 64 0) fresh) = some (.value (-2401053089206439923)) ∧
    fault? (exec (.bfGets 1 8 60) fresh) = some 2#3 := by
  decide

theorem test_newu :
    result? (exec (.bfNewu 0xDEADBEEFCAFEF00D#64 16 24 0x1234) fresh) = some (.word 0xDEADBE1234FEF00D#64) ∧
    result? (exec (.bfNewu 0x1234 64 0 0xABCD) fresh) = some (.word 0xABCD) ∧
    fault? (exec (.bfNewu 0x1234 0 7 1) fresh) = some 3#3 := by
  decide

/-- V96: the range check comes before the overflow check. -/
theorem test_newu_priority : fault? (exec (.bfNewu 0 8 60 999) fresh) = some 2#3 := by decide

theorem test_news :
    result? (exec (.bfNews 0xFF800000 5 18 (-15)) fresh) = some (.word 0xFFC40000) ∧
    result? (exec (.bfNews 0xDEADBEEFCAFEF00D#64 16 24 (-4150)) fresh) = some (.word 0xDEADBEEFCAFEF00D#64) ∧
    fault? (exec (.bfNews 0 1 63 1) fresh) = some 3#3 ∧ fault? (exec (.bfNews 0 8 60 (-1)) fresh) = some 2#3 := by
  decide

/-! ### BlockedGrid: V50 to V54 -/

theorem test_grid_new :
    (after? (exec (.gridNew 5 3 24 2) fresh)).map (fun t => (t.grids, t.response)) =
      some ([(0, ⟨5, 3, 24, 2, []⟩)], some ⟨0#3, some (.grid 0)⟩) ∧
    (Grid.mk 5 3 24 2 []).nslots = 24 ∧ (Grid.mk 5 3 24 100 []).nslots = 10000 ∧ (Grid.mk 0 0 1 1 []).nslots = 0 ∧
    fault? (exec (.gridNew 5 3 0 2) fresh) = some 1#3 ∧ fault? (exec (.gridNew 5 3 24 0) fresh) = some 1#3 := by
  decide +kernel

theorem test_grid_newdef :
    [1, 2, 3, 4, 12, 16, 24, 65536, 65537].map defaultBlocking = [256, 181, 147, 128, 73, 64, 52, 1, 1] ∧
    (after? (exec (.gridNewdef 640 480 24) fresh)).map State.grids = some [(0, ⟨640, 480, 24, 52, []⟩)] ∧
    fault? (exec (.gridNewdef 640 480 0) fresh) = some 1#3 := by
  decide +kernel

/-- V52, the linear slot indexes. -/
theorem test_grid_slots :
    ([(0, 0), (1, 0), (0, 1), (1, 1), (2, 0), (3, 1), (4, 0), (4, 1), (0, 2), (3, 2), (4, 2)].map fun p =>
      (Grid.mk 5 3 24 2 []).slotIndex p.1 p.2) = [0, 1, 2, 3, 4, 7, 8, 10, 12, 17, 20] := by
  decide

theorem test_grid_read :
    result? (exec (.gridAtRd 0 0 0) gridded) = some (.elem (.word 7)) ∧
    fault? (exec (.gridAtRd 0 5 0) gridded) = some 2#3 ∧ fault? (exec (.gridAtRd 0 0 3) gridded) = some 2#3 ∧
    refusal? (exec (.gridAtRd 0 4 2) gridded) = some .unwrittenSlot ∧
    refusal? (exec (.gridAtRd 1 0 0) gridded) = some (.deadHandle 1) := by
  decide +kernel

theorem test_grid_write :
    (after? (exec (.gridAtWr 0 4 2 (.word 9)) gridded)).map State.grids =
      some [(0, ⟨5, 3, 24, 2, [(0, .word 7), (20, .word 9)]⟩)] ∧
    (after? (exec (.gridAtWr 0 0 0 (.word 9)) gridded)).map State.grids = some [(0, ⟨5, 3, 24, 2, [(0, .word 9)]⟩)] ∧
    fault? (exec (.gridAtWr 0 5 0 (.word 9)) gridded) = some 2#3 := by
  decide +kernel

theorem test_grid_foreach :
    result? (exec (.gridForeach 0) gridded) = some (.seq ([(0, 0), (1, 0), (0, 1), (1, 1), (2, 0), (3, 0), (2, 1), (3, 1)] ++
      [(4, 0), (4, 1), (0, 2), (1, 2), (2, 2), (3, 2), (4, 2)])) ∧
    (Grid.mk 3 2 24 1 []).traversal = [(0, 0), (1, 0), (2, 0), (0, 1), (1, 1), (2, 1)] := by
  decide +kernel

theorem test_grid_queries :
    result? (exec (.gridWidth 0) gridded) = some (.n 5) ∧ result? (exec (.gridHeight 0) gridded) = some (.n 3) ∧
    result? (exec (.gridEsize 0) gridded) = some (.n 24) ∧ result? (exec (.gridBsize 0) gridded) = some (.n 2) ∧
    refusal? (exec (.gridWidth 7) gridded) = some (.deadHandle 7) := by
  decide +kernel

/-- V53: a released grid is refused, a second release included. -/
theorem test_grid_free :
    (after? (exec (.gridFree 0) gridded)).map State.grids = some [] ∧
    (after? (exec (.gridFree 0) gridded)).bind (fun t => refusal? (exec (.gridFree 0) t)) = some (.deadHandle 0) := by
  decide +kernel

/-! ### ColorSpaceTransform: V60 to V62 -/

theorem test_csc_fwd :
    result? (exec (.cscFwd ⟨12, 200, 77⟩ 255) fresh) =
      some (.color ⟨64883 / 127500, -930551 / 7968750, -2624957 / 7968750⟩) ∧
    result? (exec (.cscFwd ⟨1000, 30000, 65535⟩ 65535) fresh) =
      some (.color ⟨2537999 / 6553500, 5665211 / 16383750, -108683887 / 409593750⟩) ∧
    refusal? (exec (.cscFwd ⟨256, 0, 0⟩ 255) fresh) = some .pixelOutsideRange ∧
    refusal? (exec (.cscFwd ⟨0, 0, 0⟩ 0) fresh) = some .pixelOutsideRange := by
  decide +kernel

/-- V61: white under `B64` has a luma just below 1, and the binary32 residues of gray. -/
theorem test_csc_fwd_binary :
    result? (exec (.cscFwd ⟨255, 255, 255⟩ 255) (under .b64)) = some (.color ⟨1 - 1 / 2 ^ 53, 0, 0⟩) ∧
    result? (exec (.cscFwd ⟨128, 128, 128⟩ 255) (under .b32)) =
      some (.color ⟨8421505 / 2 ^ 24, 1 / 2 ^ 26, 1 / 2 ^ 28⟩) := by
  decide +kernel

theorem test_csc_inv :
    result? (exec (.cscInv ⟨1 / 2, 0, 0⟩ 255) fresh) = some (.pixel ⟨128, 128, 128⟩) ∧
    result? (exec (.cscInv ⟨1 / 2, 1 / 2, 1 / 2⟩ 255) fresh) = some (.pixel ⟨255, 0, 255⟩) ∧
    result? (exec (.cscInv ⟨257 / 511, 1 / 25, -1 / 25⟩ 255) fresh) = some (.pixel ⟨114, 132, 146⟩) ∧
    refusal? (exec (.cscInv ⟨0, 0, 0⟩ 0) fresh) = some .zeroDenominator := by
  decide +kernel

/-! ### BlockTransform: V70 to V72 -/

theorem test_bt_fwd :
    result? (exec (.btFwd ⟨1 / 2, 1 / 10, -1 / 10⟩ ⟨1 / 2, 1 / 5, -1 / 5⟩ ⟨1 / 2, 3 / 10, 0⟩ ⟨1 / 2, 2 / 5, 1 / 10⟩) fresh) =
      some (.coeffs ⟨1 / 2, 0, 0, 0, 1 / 4, -1 / 20⟩) ∧
    coeffs? (result? (exec (.btFwd (gray (1 / 10)) (gray (1 / 5)) (gray (3 / 10)) (gray (2 / 5))) fresh)) =
      some (1 / 4, 1 / 10, 1 / 20, 0) ∧
    coeffs? (result? (exec (.btFwd (gray 1) (gray 0) (gray 0) (gray 1)) fresh)) = some (1 / 2, 0, 0, 1 / 2) := by
  decide +kernel

/-- Under `B32` the sum of two values near the largest is an infinity: refused (decision D29). -/
theorem test_bt_fwd_infinite :
    refusal? (exec (.btFwd (gray (2 ^ 127)) (gray (2 ^ 127)) (gray 0) (gray 0)) (under .b32)) = some .nonFinite := by
  decide +kernel

theorem test_bt_inv :
    block? (result? (exec (.btInv ⟨1, 3 / 10, 3 / 10, 3 / 10, 0, 0⟩) fresh)) = some [7 / 10, 7 / 10, 7 / 10, 19 / 10] ∧
    block? (result? (exec (.btInv ⟨0, 3 / 10, 3 / 10, -3 / 10, 0, 0⟩) fresh)) = some [-9 / 10, 3 / 10, 3 / 10, 3 / 10] ∧
    result? (exec (.btInv ⟨1 / 2, 0, 0, 0, 1 / 4, -1 / 20⟩) fresh) = some (.block ⟨1 / 2, 1 / 4, -1 / 20⟩
      ⟨1 / 2, 1 / 4, -1 / 20⟩ ⟨1 / 2, 1 / 4, -1 / 20⟩ ⟨1 / 2, 1 / 4, -1 / 20⟩) := by
  decide +kernel

/-! ### Quantizer: V80 to V82, without the columns that depend on the chroma table -/

theorem test_quant :
    lumas? (result? (exec (.qQuant ⟨1 / 4, 1 / 10, 1 / 20, 0, 0, 0⟩) fresh)) = some (128, 5, 3, 0) ∧
    lumas? (result? (exec (.qQuant ⟨-1 / 10, 1 / 2, -1 / 2, 3 / 10, 0, 0⟩) fresh)) = some (0, 15, -15, 15) ∧
    lumas? (result? (exec (.qQuant ⟨1 / 1022, 1 / 100, -1 / 100, 3 / 100, 0, 0⟩) fresh)) = some (1, 1, -1, 2) ∧
    lumas? (result? (exec (.qQuant ⟨1 / 1023, 1 / 101, -1 / 101, 149 / 500, 0, 0⟩) fresh)) = some (0, 0, 0, 15) := by
  decide +kernel

/-- V82: the binary64 value just below 1/2 gives 255 where 1/2 gives 256. The operand is `1/2 - 2^-54`. -/
theorem test_quant_binary :
    lumas? (result? (exec (.qQuant ⟨1 / 2, 0, 0, 0, 0, 0⟩) fresh)) = some (256, 0, 0, 0) ∧
    lumas? (result? (exec (.qQuant ⟨1 / 2 - 1 / 2 ^ 54, 1, -1, 0, 0, 0⟩) (under .b64))) = some (255, 15, -15, 0) := by
  decide +kernel

theorem test_dequant :
    coeffs? (result? (exec (.qDequant (quantized 511 (-15) 15 0 15 0)) fresh)) = some (1, -3 / 10, 3 / 10, 0) ∧
    coeffs? (result? (exec (.qDequant (quantized 0 (-16) 0 0 0 8)) fresh)) = some (0, -8 / 25, 0, 0) ∧
    coeffs? (result? (exec (.qDequant (quantized 600 1 2 3 8 8)) fresh)) = some (1, 1 / 50, 1 / 25, 3 / 50) ∧
    refusal? (exec (.qDequant (quantized 0 0 0 0 16 0)) fresh) = some .indexOutsideDomain := by
  decide +kernel

/-! ### CodewordCodec: V85, V86 -/

theorem test_cw_enc :
    result? (exec (.cwEnc (quantized 511 (-15) 15 0 15 0)) fresh) =
      some (.codeword 0xFFC5E0F0 [0xFF#8, 0xC5#8, 0xE0#8, 0xF0#8]) ∧
    result? (exec (.cwEnc (quantized 256 15 (-15) 7 3 12)) fresh) =
      some (.codeword 0x803E273C [0x80#8, 0x3E#8, 0x27#8, 0x3C#8]) ∧
    result? (exec (.cwEnc (quantized 0 (-16) (-16) (-16) 0 0)) fresh) =
      some (.codeword 0x00421000 [0x00#8, 0x42#8, 0x10#8, 0x00#8]) := by
  decide +kernel

theorem test_cw_enc_overflow :
    [quantized 512 0 0 0 0 0, quantized 0 16 0 0 0 0, quantized 0 0 (-17) 0 0 0, quantized 0 0 0 0 16 0,
      quantized 0 0 0 0 0 16].map (fun q => fault? (exec (.cwEnc q) fresh)) = List.replicate 5 (some 3#3) := by
  decide +kernel

theorem test_cw_dec :
    result? (exec (.cwDec [0x12#8, 0x34#8, 0x56#8, 0x78#8]) fresh) = some (.quantized (quantized 36 13 2 (-10) 7 8)) ∧
    result? (exec (.cwDec [0xFF#8, 0xFF#8, 0xFF#8, 0xFF#8]) fresh) = some (.quantized (quantized 511 (-1) (-1) (-1) 15 15)) ∧
    fault? (exec (.cwDec [0xFF#8, 0xC5#8, 0xE0#8]) fresh) = some 4#3 ∧ fault? (exec (.cwDec []) fresh) = some 4#3 := by
  decide +kernel

/-! ### Framer: V90 to V92, P2, P3, P7 -/

/-- V90: the bytes of the header for 640 by 480. -/
theorem test_header_bytes :
    Framer.line1 = text "COMP40 Compressed image format 2\n" ∧
    Framer.header 640 480 = text "COMP40 Compressed image format 2\n640 480\n" ∧
    (Framer.header 4294967294 2).length = 46 ∧ Framer.dec 10 = [0x31#8, 0x30#8] := by
  decide +kernel

theorem test_hdrw :
    after? (exec (.frHdrw 4 2) fresh) = some sending.completing ∧
    (after? (exec (.frHdrw 4294967294 2) fresh)).map State.frRem = some 2147483647 ∧
    refusal? (exec (.frHdrw 5 3) fresh) = some .oddDimension ∧
    refusal? (exec (.frHdrw 4 2) sending) = some (.wrongFramerMode .tx) := by
  decide +kernel

/-- P2, and P7 runs b and f. -/
theorem test_put :
    (after? (exec (.frPut (quantized 257 0 0 0 8 8)) sending)).map (fun t => (t.out, t.frRem, t.frMode)) =
      some (Framer.header 4 2 ++ [0x80#8, 0x80#8, 0x00#8, 0x88#8], 1, .tx) ∧
    (after? (exec (.frPut (quantized 512 0 0 0 8 8)) sending)) = some (sending.faulting .overflowError) ∧
    refusal? (exec (.frPut (quantized 0 0 0 0 0 0)) fresh) = some (.wrongFramerMode .idle) := by
  decide +kernel

/-- V91, the accepted and the refused rows. -/
theorem test_hdrr :
    (after? (exec .frHdrr (reading (text "COMP40 Compressed image format 2\n640 480\nx")))).map
      (fun t => (t.frW, t.frH, t.frRem, t.frMode, t.inPos)) = some (640, 480, 76800, .rx, 41) ∧
    (after? (exec .frHdrr (reading (text "COMP40 Compressed image format 2\n0 0\n")))).map
      (fun t => (t.frRem, t.frMode, t.inPos)) = some (0, .done, 37) ∧
    refusal? (exec .frHdrr (reading (text "COMP40 Compressed image format 2\n04 2\n"))) = some .leadingZero ∧
    refusal? (exec .frHdrr (reading (text "COMP40 Compressed image format 2\n4 3\n"))) = some .oddDimension ∧
    refusal? (exec .frHdrr (reading (text "COMP40 Compressed image format 2\n4294967296 2\n"))) = some .numeralTooWide := by
  decide +kernel

/-- V91, the faulting rows: truncated ones, then format errors. -/
theorem test_hdrr_faults :
    ["", "COMP40 Com", "COMP40 Compressed image format 2\n", "COMP40 Compressed image format 2\n4 2",
      "COMP40 Compressed image format 2\n4 "].map (fun s => fault? (exec .frHdrr (reading (text s)))) =
        List.replicate 5 (some 4#3) ∧
    ["COMP40 Compressed image format 1\n4 2\n", "comp40 Compressed image format 2\n4 2\n",
      "COMP40 Compressed image format 2\n4  2\n", "COMP40 Compressed image format 2\n4\n2\n",
      "COMP40 Compressed image format 2\n 4 2\n", "COMP40 Compressed image format 2\n-4 2\n",
      "COMP40 Compressed image format 2\n4 2\r\n", "COMP40 Compressed image format 2\n4 2 \n",
      "COMP40 Compressed image format 2\n4 x\n", "COMP40 Compressed image format 2\n5 x\n"].map
        (fun s => fault? (exec .frHdrr (reading (text s)))) = List.replicate 10 (some 5#3) := by
  decide +kernel

/-- P3, and P7 run a: the fields a truncated read leaves alone. -/
theorem test_get :
    (after? (exec .frGet receiving)).map (fun t => (t.response, t.inPos, t.frRem, t.frMode)) =
      some (some ⟨0#3, some (.quantized (quantized 257 0 0 0 8 8))⟩, 41, 1, .rx) ∧
    (after? (exec .frGet (receiving.setInPos 42))).map (fun t => (t.fault, t.response, t.frRem, t.frMode)) =
      some (4#3, some ⟨4#3, none⟩, 2, .rx) ∧
    refusal? (exec .frGet fresh) = some (.wrongFramerMode .idle) := by
  decide +kernel

/-- V95: a halted block answers with its code; reset clears it and takes the new input. -/
theorem test_halt_and_reset :
    after? (exec (.bfFitsu 0 0) halted) = some (halted.setResponse (some ⟨2#3, none⟩)) ∧
    after? (step (halted.setHost [.reset [1#8]])) = some (reading [1#8]) := by
  decide +kernel

/-! ### Witnesses: states and operands that meet the hypotheses of each statement, its boundary values among them -/

theorem fresh_inv : MachineInv fresh := by
  constructor <;> simp [FaultInv, GridsInv, FramerInv, OutInv, InInv, ResponseInv, fresh, State.reset, State.resetWith,
    Memory.wf, Store.rising]

theorem gridded_inv : GridsInv gridded := ⟨by decide +kernel, by decide⟩

theorem sending_inv : MachineInv sending := by
  constructor
  · exact (by decide : (0#3).toNat ≤ 5)
  · exact ⟨by decide, by decide⟩
  · simp [FramerInv, sending, State.setFramer, State.setOut, fresh, State.reset, State.resetWith, Config.default,
      Framer.blockCount]
  · refine ⟨fun h => ?_, fun _ => ⟨[], by decide +kernel, by decide⟩, fun h => ?_⟩
    · rcases h with h | h <;> exact absurd h (by decide)
    · exact absurd h (by decide)
  · simp [InInv, sending, State.setFramer, State.setOut, fresh, State.reset, State.resetWith]
  · simp [ResponseInv, sending, State.setFramer, State.setOut, fresh, State.reset, State.resetWith]

theorem receiving_inv : InInv receiving := by
  refine ⟨by decide +kernel, fun h => absurd h (by decide), fun _ _ => ⟨by decide +kernel, by decide +kernel⟩⟩

theorem witness_ResetPutsEveryPieceOfStateAtItsValue :
    (halted.setHost [.reset [1#8]]).host = .reset [1#8] :: [] ∧ halted.fault ≠ 0#3 := by decide

theorem witness_HaltedBlockOnlyAnswersItsCode :
    halted.fault ≠ 0#3 ∧ (pushCommand halted (encode .frGet)).host = .issue (encode .frGet) :: [] ∧
    decode (encode .frGet) = .ok .frGet ∧ Instr.frGet.wf halted.cfg = true ∧
    (after? (step (pushCommand halted (encode .frGet)))).isSome ∧
    (after? (step (halted.setHost [.reset []]))).map State.fault = some 0#3 := by
  decide +kernel

/-- For an instruction with operands and for one whose operands are at the ends of their ports. -/
theorem witness_StepExecutesTheDecodedInstruction :
    decode (encode (.bfGetu 5 3 0)) = .ok (.bfGetu 5 3 0) ∧ (Instr.bfGetu 5 3 0).wf fresh.cfg = true ∧
    decode (encode (.cwDec [1, 2, 3, 4])) = .ok (.cwDec [1, 2, 3, 4]) ∧ (Instr.cwDec [1, 2, 3, 4]).wf fresh.cfg = true ∧
    (pushCommand fresh (encode (.bfGetu 5 3 0))).host = .issue (encode (.bfGetu 5 3 0)) :: [] := by
  refine ⟨rfl, by decide, rfl, by decide, rfl⟩

theorem witness_ReservedCodesAreRefused :
    (pushCommand halted ⟨0x06#8, Ports.idle⟩).host = .issue ⟨0x06#8, Ports.idle⟩ :: [] ∧ opOfCode 0x06#8 = none ∧ opOfCode 0xFF#8 = none ∧
    opOfCode 0x0F#8 = none ∧ opOfCode 0x64#8 = none ∧ opOfCode 0x1A#8 = none := by
  decide

theorem witness_FaultsArePrecise :
    fresh.fault = 0#3 ∧ fault? (exec (.gridNew 1 1 0 1) fresh) = some 1#3 ∧ fault? (exec .frHdrr fresh) = some 4#3 ∧
    fault? (exec .frGet (receiving.setInPos 44)) = some 4#3 := by
  decide +kernel

/-- One for each of the five kinds. -/
theorem witness_FaultsAreRaisedExactlyForTheirCauses :
    FaultCause (.gridNewdef 1 1 0) fresh .invalidArgument ∧ FaultCause (.bfGetu 0 64 1) fresh .rangeError ∧
    FaultCause (.gridAtRd 0 5 0) gridded .rangeError ∧ FaultCause (.bfNewu 0 0 0 1) fresh .overflowError ∧
    FaultCause (.cwDec [1, 2, 3]) fresh .truncatedStreamError ∧ FaultCause .frHdrr (reading [0#8]) .formatError := by
  refine ⟨⟨rfl, rfl⟩, ⟨rfl, by decide⟩, ⟨rfl, _, rfl, .inl (by decide)⟩, .inr ⟨rfl, by decide, by decide⟩, ⟨rfl, by decide⟩,
    rfl, .inr ⟨rfl, by decide +kernel⟩⟩

theorem witness_OperationsAreRefusedExactlyWhereListed :
    fresh.fault = 0#3 ∧ RefusalCause (.gridFree 0) fresh ∧ RefusalCause (.cscInv ⟨0, 0, 0⟩ 0) fresh ∧
    RefusalCause (.frPut (quantized 0 0 0 0 0 0)) fresh := by
  exact ⟨rfl, rfl, .inl rfl, by simp [RefusalCause, fresh, State.reset, State.resetWith]⟩

theorem witness_FitsPredicatesTestTheRange :
    fresh.fault = 0#3 ∧ result? (exec (.bfFitsu 0 0) fresh) = some (.fits true) ∧
    result? (exec (.bfFitss 0x8000000000000000#64 63) fresh) = some (.fits false) ∧
    result? (exec (.bfFitsu 0x7FFFFFFFFFFFFFFF#64 63) fresh) = some (.fits true) ∧
    fault? (exec (.bfFitss 0 65) fresh) = some 2#3 := by
  decide

theorem witness_ExtractionDeliversTheField :
    fresh.fault = 0#3 ∧ result? (exec (.bfGetu 0x8000000000000000#64 1 63) fresh) = some (.value 1) ∧
    result? (exec (.bfGets 0x8000000000000000#64 1 63) fresh) = some (.value (-1)) ∧
    result? (exec (.bfGets 7 0 64) fresh) = some (.value 0) ∧ fault? (exec (.bfGets 7 0 65) fresh) = some 2#3 := by
  decide

theorem witness_InsertionReplacesTheField :
    fresh.fault = 0#3 ∧ result? (exec (.bfNewu 0 63 1 0x7FFFFFFFFFFFFFFF#64) fresh) = some (.word 0xFFFFFFFFFFFFFFFE#64) ∧
    fault? (exec (.bfNewu 0 63 1 0x8000000000000000#64) fresh) = some 3#3 ∧
    FitsSigned (-16) 5 ∧ ¬ FitsSigned 16 5 ∧ FitsSigned 0 0 ∧ ¬ FitsSigned 1 0 ∧ 64 < 57 + 8 := by
  simp only [FitsSigned]
  decide

theorem witness_ExtractionAfterInsertionGivesTheValue :
    after? (exec (.bfNewu 0xDEADBEEFCAFEF00D#64 16 24 0x1234) fresh) = some (fresh.delivering (.word 0xDEADBE1234FEF00D#64)) ∧
    after? (exec (.bfNews 0 5 18 (-16)) fresh) = some (fresh.delivering (.word 0x400000)) ∧ sending.fault = 0#3 := by
  decide +kernel

theorem witness_InsertionLeavesOtherBitsAlone :
    after? (exec (.bfNewu 0xFFFFFFFFFFFFFFFF#64 9 23 0) fresh) = some (fresh.delivering (.word 0xFFFFFFFF007FFFFF#64)) ∧
    after? (exec (.bfNews 0xFFFFFFFFFFFFFFFF#64 5 8 0) fresh) = some (fresh.delivering (.word 0xFFFFFFFFFFFFE0FF#64)) := by
  decide +kernel

/-- Widths 0, 63 and 64 (T3 of 95_test_vectors.md). -/
theorem witness_OverflowBoundaryOfTheSetters :
    fault? (exec (.bfNewu 0 0 0 1) fresh) = some 3#3 ∧ result? (exec (.bfNewu 5 0 64 0) fresh) = some (.word 5) ∧
    result? (exec (.bfNewu 0 64 0 0xFFFFFFFFFFFFFFFF#64) fresh) = some (.word 0xFFFFFFFFFFFFFFFF#64) ∧
    result? (exec (.bfNews 0 1 63 (-1)) fresh) = some (.word 0x8000000000000000#64) ∧
    fault? (exec (.bfNews 0 63 1 0x4000000000000000#64) fresh) = some 3#3 := by
  decide

/-- V47. -/
theorem witness_DisjointInsertionsCommute :
    (BitField.setUnsigned 0 9 23 511).toOption = some 0xFF800000 ∧ (BitField.setSigned 0 5 18 (-15)).toOption = some 0x440000 ∧
    18 + 5 ≤ 23 := by
  decide

theorem witness_GridNewCreatesAFreshUnwrittenGrid :
    gridded.fault = 0#3 ∧ GridsInv gridded ∧ result? (exec (.gridNew 0 0 1 1) gridded) = some (.grid 1) ∧
    fault? (exec (.gridNew 0 0 0 1) gridded) = some 1#3 ∧ fault? (exec (.gridNew 0 0 1 0) gridded) = some 1#3 :=
  ⟨rfl, gridded_inv, by decide +kernel, by decide +kernel, by decide +kernel⟩

theorem witness_DefaultBlockingIsTheLargestThatFits :
    fault? (exec (.gridNewdef 1 1 0) fresh) = some 1#3 ∧ result? (exec (.gridNewdef 1 1 1) fresh) = some (.grid 0) ∧
    result? (exec (.gridNewdef 1 1 65537) fresh) = some (.grid 0) := by
  decide +kernel

/-- Column 5 of 5 and row 3 of 3 are out, (4,2) is in and unwritten, (0,0) is written, and grid 1 is not live. -/
theorem witness_GridReadDeliversTheWrittenElement :
    gridded.fault = 0#3 ∧ Store.find 0 gridded.grids = some ⟨5, 3, 24, 2, [(0, .word 7)]⟩ ∧
    Store.find 1 gridded.grids = none ∧ (Grid.mk 5 3 24 2 [(0, .word 7)]).memRead 0 0 = some (.word 7) ∧
    (Grid.mk 5 3 24 2 [(0, .word 7)]).memRead 4 2 = none ∧ fault? (exec (.gridAtRd 0 4 3) gridded) = some 2#3 := by
  decide +kernel

theorem witness_GridWriteChangesOnePosition :
    gridded.fault = 0#3 ∧ GridsInv gridded ∧ Store.find 0 gridded.grids = some ⟨5, 3, 24, 2, [(0, .word 7)]⟩ ∧
    Store.find 1 gridded.grids = none ∧ result? (exec (.gridAtWr 0 4 2 (.word 1)) gridded) = some (.grid 0) ∧
    fault? (exec (.gridAtWr 0 5 2 (.word 1)) gridded) = some 2#3 :=
  ⟨rfl, gridded_inv, rfl, rfl, by decide +kernel, by decide +kernel⟩

theorem witness_SlotIndexIsInjectiveAndInsideTheStore :
    0 < (Grid.mk 5 3 24 2 []).blockSize ∧ (Grid.mk 5 3 24 2 []).slotIndex 4 2 = 20 ∧ (Grid.mk 5 3 24 2 []).nslots = 24 := by
  decide

theorem witness_TraversalVisitsEveryPositionOnce :
    gridded.fault = 0#3 ∧ Store.find 0 gridded.grids = some ⟨5, 3, 24, 2, [(0, .word 7)]⟩ ∧ 0 < 2 ∧
    (Grid.mk 5 3 24 2 []).traversal[0]? = some (0, 0) ∧ (Grid.mk 5 3 24 2 []).traversal[1]? = some (1, 0) ∧
    (Grid.mk 5 3 24 2 []).traversal[3]? = some (1, 1) := by
  decide +kernel

theorem witness_TraversalGoesInSlotOrder :
    gridded.fault = 0#3 ∧ (Store.find 0 gridded.grids).map Grid.blockSize = some 2 := by decide +kernel

theorem witness_QueriesDeliverTheDescriptor :
    gridded.fault = 0#3 ∧ (Store.find 0 gridded.grids).isSome ∧ Store.find 1 gridded.grids = none := by decide +kernel

theorem witness_FreeEndsTheLifeOfAGrid :
    gridded.fault = 0#3 ∧ (Store.find 0 gridded.grids).isSome ∧ Store.find 1 gridded.grids = none := by decide +kernel

/-- Channels at the denominator, one above it, and denominator 0. -/
theorem witness_ColorForwardDeliversTheTriple :
    fresh.fault = 0#3 ∧ fresh.cfg.num = .exact ∧ refusal? (exec (.cscFwd ⟨0, 0, 2⟩ 1) fresh) = some .pixelOutsideRange ∧
    refusal? (exec (.cscFwd ⟨0, 0, 0⟩ 0) fresh) = some .pixelOutsideRange ∧
    ColorSpace.forward .exact ⟨1, 1, 1⟩ 1 = some ⟨1, 0, 0⟩ := by
  decide +kernel

theorem witness_ColorInverseDeliversThePixel :
    fresh.fault = 0#3 ∧ fresh.cfg.num = .exact ∧ ColorSpace.inverse .exact ⟨2, 0, 0⟩ 1 = some ⟨1, 1, 1⟩ ∧
    (under .b64).fault = 0#3 ∧ ColorSpace.inverse .b64 ⟨1 / 2, 0, 0⟩ 255 = some ⟨128, 128, 128⟩ := by
  decide +kernel

/-- White meets the premises of the first part, lumas 0 and 1 with chromas -1/2 and 1/2 those of the second. -/
theorem witness_TransformsStayInTheirRanges :
    (0 < 255 ∧ (⟨255, 255, 255⟩ : Pixel).red ≤ 255) ∧
    ∀ p ∈ [(⟨0, -1 / 2, 1 / 2⟩ : ColorPixel), ⟨1, 1 / 2, -1 / 2⟩, ⟨1, 0, 0⟩, ⟨1, 0, 0⟩],
      (0 ≤ p.y ∧ p.y ≤ 1) ∧ -1 / 2 ≤ p.pb ∧ p.pb ≤ 1 / 2 ∧ -1 / 2 ≤ p.pr ∧ p.pr ≤ 1 / 2 := by
  decide +kernel

/-- Denominators 1 and 434027. -/
theorem witness_ColorRoundTripIsExact :
    fresh.fault = 0#3 ∧ fresh.cfg.num = .exact ∧ 0 < 1 ∧ 434027 ≤ 434027 ∧
    ((ColorSpace.forward .exact ⟨434027, 0, 1⟩ 434027).bind fun cp => ColorSpace.inverse .exact cp 434027) =
      some ⟨434027, 0, 1⟩ := by
  decide +kernel

theorem witness_BlockTransformDeliversItsFormulas :
    fresh.fault = 0#3 ∧ fresh.cfg.num = .exact ∧
    (BlockTransform.forward .b32 (gray 0) (gray 0) (gray 1) (gray 1)) = some ⟨1 / 2, 1 / 2, 0, 0, 0, 0⟩ ∧
    (BlockTransform.inverse .b32 ⟨1 / 2, 1 / 2, 0, 0, 0, 0⟩) = some (gray 0, gray 0, gray 1, gray 1) := by
  decide +kernel

/-- Under `B32`, with a luma whose triple is no binary32 value. -/
theorem witness_EqualPixelsHaveNoDetail :
    (under .b32).fault = 0#3 ∧
    (Instr.btFwd (gray 0.999999940395355224609375) (gray 0.999999940395355224609375) (gray 0.999999940395355224609375)
      (gray 0.999999940395355224609375)).wf (under .b32).cfg = true ∧
    (coeffs? (result? (exec (.btFwd (gray 0.999999940395355224609375) (gray 0.999999940395355224609375)
      (gray 0.999999940395355224609375) (gray 0.999999940395355224609375)) (under .b32)))).isSome := by
  decide +kernel

/-- The largest denominator and the largest operands. -/
theorem witness_TransformsCompleteOnModerateOperands :
    (under .b32).fault = 0#3 ∧ (0 < 2 ^ 64 - 1 ∧ 2 ^ 64 - 1 < 2 ^ 64) ∧
    (∀ x ∈ [(2 ^ 100 : FVal), -2 ^ 100, 0], -2 ^ 100 ≤ x ∧ x ≤ 2 ^ 100) ∧
    (ColorSpace.forward .b32 ⟨2 ^ 64 - 1, 0, 2 ^ 64 - 1⟩ (2 ^ 64 - 1)).isSome ∧
    (BlockTransform.forward .b32 (gray (2 ^ 100)) (gray (2 ^ 100)) (gray (2 ^ 100)) (gray (2 ^ 100))).isSome ∧
    (BlockTransform.inverse .b32 ⟨2 ^ 100, 2 ^ 100, 2 ^ 100, 2 ^ 100, 0, 0⟩).isSome := by
  decide +kernel

theorem witness_QuantizerOutputIsInTheDeclaredRange :
    (under .b64).fault = 0#3 ∧ lumas? (result? (exec (.qQuant ⟨2, 1, -1, 0, 0, 0⟩) (under .b64))) = some (511, 15, -15, 0) := by
  decide +kernel

/-- A tie on each side of zero. -/
theorem witness_QuantizerRoundsTheClampedCoefficient :
    fresh.fault = 0#3 ∧ fresh.cfg.num = .exact ∧ (0 : FVal) ≤ max (-3 / 10) (min (3 / 10) (1 / 100)) * 50 ∧
    max (-3 / 10) (min (3 / 10) (-1 / 100)) * 50 < (0 : FVal) ∧
    lumas? (result? (exec (.qQuant ⟨1, 1 / 100, -1 / 100, 0, 0, 0⟩) fresh)) = some (511, 1, -1, 0) := by
  decide +kernel

/-- Indices 15 and 16. -/
theorem witness_DequantizerDeliversItsFormulas :
    fresh.fault = 0#3 ∧ fresh.cfg.num = .exact ∧ (quantized 0 0 0 0 15 15).indexPb.toNat ≤ 15 ∧
    (quantized 0 0 0 0 15 15).indexPr.toNat ≤ 15 ∧ 15 < (quantized 0 0 0 0 15 16).indexPr.toNat ∧
    refusal? (exec (.qDequant (quantized 0 0 0 0 15 16)) fresh) = some .indexOutsideDomain := by
  decide +kernel

/-- The ends of the ranges: 0 and 1 for `a`, 3/10 and beyond for the others, -16 for the way back. -/
theorem witness_QuantizationErrorIsBounded :
    ((0 : FVal) ≤ 0 ∧ (1 : FVal) ≤ 1) ∧ |(3 / 10 : FVal)| ≤ 3 / 10 ∧ (3 / 10 : FVal) < |(-1 / 2)| ∧
    (quantized 511 (-16) 15 0 0 0).a.toNat ≤ 511 ∧ -16 ≤ (quantized 511 (-16) 15 0 0 0).b.toInt ∧
    (quantized 511 (-16) 15 0 0 0).c.toInt ≤ 15 := by
  refine ⟨by decide +kernel, ?_, ?_, by decide, by decide, by decide⟩ <;> rw [abs] <;> decide +kernel

/-- The ends of every field, -16 among them, and the first value outside each. -/
theorem witness_EncodingFollowsTheLayoutOrOverflows :
    fresh.fault = 0#3 ∧ FitsCodeword (quantized 511 (-16) 15 (-16) 15 15) ∧ FitsCodeword (quantized 0 15 (-16) 15 0 0) ∧
    fault? (exec (.cwEnc (quantized 512 0 0 0 0 0)) fresh) = some 3#3 ∧
    fault? (exec (.cwEnc (quantized 0 0 0 (-17) 0 0)) fresh) = some 3#3 := by
  simp only [FitsCodeword]
  decide +kernel

theorem witness_DecodingIsTotalOnFourBytes :
    fresh.fault = 0#3 ∧ ([1, 2, 3] : List Byte).length < 4 ∧ ([] : List Byte).length < 4 := by decide

theorem witness_CodecRoundTripsBothWays :
    fresh.fault = 0#3 ∧ sending.fault = 0#3 ∧ FitsCodeword (quantized 511 (-16) 15 0 15 0) ∧
    ([0x00, 0x40, 0x00, 0x00] : List Byte).length = 4 := by
  simp only [FitsCodeword]
  decide +kernel

theorem witness_HeaderTextIsItsLineAndShortestNumerals :
    (Framer.dec 0).head? = some 0x30#8 ∧ Framer.dec 0 = [0x30#8] ∧ Framer.dec 100 = [0x31#8, 0x30#8, 0x30#8] := by
  decide +kernel

/-- An empty image, the smallest other one, and the refused forms. -/
theorem witness_HeaderWriteStartsTheBody :
    fresh.fault = 0#3 ∧ fresh.frMode = .idle ∧ (after? (exec (.frHdrw 0 0) fresh)).map State.frMode = some .done ∧
    (after? (exec (.frHdrw 2 2) fresh)).map State.frMode = some .tx ∧ sending.frMode ≠ .idle ∧ 5 % 2 = 1 := by
  decide +kernel

theorem witness_PutAppendsOneCodeword :
    sending.fault = 0#3 ∧ sending.frMode = .tx ∧ FitsCodeword (quantized 511 (-16) 15 0 15 0) ∧
    ¬ FitsCodeword (quantized 512 0 0 0 0 0) ∧ fresh.frMode ≠ .tx := by
  simp only [FitsCodeword]
  decide +kernel

/-- Dimensions 0 and `2^32 - 2`, and bytes after the header. -/
theorem witness_HeaderReadAcceptsWhatTheWriterWrites :
    (reading (Framer.header 4294967294 0 ++ [1#8])).fault = 0#3 ∧ (reading (Framer.header 4294967294 0 ++ [1#8])).frMode = .idle ∧
    4294967294 % 2 = 0 ∧ 4294967294 < 2 ^ Config.default.dimBits ∧ 0 < 2 ^ Config.default.dimBits ∧
    (reading (Framer.header 4294967294 0 ++ [1#8])).input.drop 0 = Framer.header 4294967294 0 ++ [1#8] := by
  decide +kernel

theorem witness_HeaderReadAcceptsNothingElse :
    fresh.fault = 0#3 ∧ (after? (exec .frHdrr (reading (Framer.header 4 2)))).map State.response =
      some (some ⟨0#3, some (.dims 4 2)⟩) := by
  decide +kernel

/-- An empty stream, one that ends before the last newline, one that ends inside a width of `2^32` or more; a wrong first and
a wrong last byte of the first line; a wrong byte where a digit must stand, and after the numeral of each dimension. -/
theorem witness_HeaderReadFaultsByTheFirstDeparture :
    (reading []).input.drop 0 = (Framer.header 4 2).take 0 ∧
    (reading ((Framer.header 4 3).take 36)).input.drop 0 = (Framer.header 4 3).take 36 ∧ 36 < (Framer.header 4 3).length ∧
    4 < 2 ^ Config.default.dimBits ∧ 43 ≤ 33 + (Framer.dec 4294967296).length ∧
    fault? (exec .frHdrr (reading ((Framer.header 4294967296 2).take 43))) = some 4#3 ∧
    Framer.line1[0]? ≠ some 0x63#8 ∧ Framer.line1[32]? ≠ some 0x0D#8 ∧ ¬ (0x30 ≤ 0x3A ∧ 0x3A ≤ 0x39) ∧
    ¬ (0x30 ≤ 0x2F ∧ 0x2F ≤ 0x39) ∧ fault? (exec .frHdrr (reading (Framer.line1 ++ [0x2F#8]))) = some 5#3 ∧
    fault? (exec .frHdrr (reading (Framer.line1 ++ Framer.dec 5 ++ 0x20#8 :: (Framer.dec 2 ++ [0x20#8])))) = some 5#3 := by
  decide +kernel

/-- Digits 0 and 9 after a leading zero, the numeral of `2^32`, and each dimension odd. -/
theorem witness_HeaderReadRefusesWhatHasNoMeaning :
    fresh.fault = 0#3 ∧ fresh.frMode = .idle ∧ (0x30 ≤ (0x39#8).toNat ∧ (0x39#8).toNat ≤ 0x39) ∧
    2 ^ Config.default.dimBits ≤ 4294967296 ∧ (1 < 2 ^ Config.default.dimBits ∧ 1 % 2 = 1) ∧ sending.frMode ≠ .idle ∧
    refusal? (exec .frHdrr (reading (Framer.header 2 1))) = some .oddDimension ∧
    refusal? (exec .frHdrr (reading (Framer.header 2 4294967296))) = some .numeralTooWide := by
  decide +kernel

/-- Four bytes left, three left, and another mode. -/
theorem witness_GetTakesOneCodeword :
    receiving.fault = 0#3 ∧ receiving.frMode = .rx ∧
    (receiving.setInPos 41).input.drop 41 = 0x80#8 :: 0x80#8 :: 0x00#8 :: 0x88#8 :: [] ∧
    ((receiving.setInPos 42).input.drop 42).length < 4 ∧ fresh.frMode ≠ .rx := by
  decide +kernel

/-- The whole count in each direction, and one more: a block that does not fit, and a read where `IN` ends with the last
codeword. -/
theorem witness_FramerAcceptsExactlyTheCount :
    (sending.fault = 0#3 ∧ 0 < sending.frRem ∧ sending.frMode = .tx ∧ FitsCodeword (quantized 0 0 0 0 0 0)) ∧
    (receiving.fault = 0#3 ∧ receiving.frMode = .rx ∧ 0 < receiving.frRem ∧ receiving.frRem < 3 ∧
      4 * min 3 receiving.frRem ≤ (receiving.input.drop receiving.inPos).length) ∧
    ((after? (execAll [.frPut (quantized 0 0 0 0 0 0), .frPut (quantized 0 0 0 0 0 0)] sending)).map State.frMode = some .done) ∧
    refusal? (execAll [.frPut (quantized 0 0 0 0 0 0), .frPut (quantized 0 0 0 0 0 0), .frPut (quantized 512 0 0 0 0 0)]
      sending) = some (.wrongFramerMode .done) ∧
    refusal? (execAll [.frGet, .frGet, .frGet] receiving) = some (.wrongFramerMode .done) := by
  simp only [FitsCodeword]
  decide +kernel

theorem witness_OnlyTheFramerTouchesStreamsAndRegisters :
    usesFramer (.gridFree 0) = false ∧ (after? (exec (.gridFree 0) gridded)).isSome := by decide +kernel

theorem witness_PureOperationsChangeOnlyFaultAndPorts :
    usesFramer (.cwEnc (quantized 512 0 0 0 0 0)) = false ∧ writesGrids (.cwEnc (quantized 512 0 0 0 0 0)) = false ∧
    (after? (exec (.cwEnc (quantized 512 0 0 0 0 0)) fresh)).isSome := by
  decide +kernel

theorem witness_OutputIsAppendOnly :
    (after? (exec (.frHdrw 0 0) fresh)).map (fun t => decide (t.out ≠ fresh.out)) = some true ∧
    (after? (step (sending.setHost [.reset []]))).map State.out = some [] := by
  decide +kernel

theorem witness_InputIsReadForwardOnly :
    receiving.inPos ≤ receiving.input.length ∧ (after? (exec .frGet receiving)).map State.inPos = some 41 := by decide +kernel

theorem witness_ParametersAreNeverWritten : (after? (step fresh)).isSome := by decide +kernel

theorem witness_EveryStepKeepsTheInvariants :
    MachineInv (pushCommand fresh (encode (.frHdrw 4 2))) ∧ (after? (step (pushCommand fresh (encode (.frHdrw 4 2))))).isSome ∧
    MachineInv (pushCommand sending (encode (.frPut (quantized 0 0 0 0 0 0)))) ∧
    (after? (step (pushCommand sending (encode (.frPut (quantized 0 0 0 0 0 0)))))).isSome :=
  ⟨⟨fresh_inv.fault, fresh_inv.grids, fresh_inv.framer, fresh_inv.out, fresh_inv.input, fresh_inv.response⟩, by decide +kernel,
    ⟨sending_inv.fault, sending_inv.grids, sending_inv.framer, sending_inv.out, sending_inv.input, sending_inv.response⟩,
    by decide +kernel⟩

/-- The committed state after the header of an empty image. -/
theorem witness_CommittedOutputIsAWholeStream :
    MachineInv ((fresh.setOut (Framer.header 0 0)).setFramer .done 0 0 0) ∧
    Committed ((fresh.setOut (Framer.header 0 0)).setFramer .done 0 0 0) := by
  refine ⟨⟨(by decide : (0#3).toNat ≤ 5), ⟨by decide, by decide⟩, ?_, ⟨?_, ?_, ?_⟩, ?_, ?_⟩, rfl, rfl⟩
  · simp [FramerInv, State.setFramer, State.setOut, fresh, State.reset, State.resetWith, Config.default, Framer.blockCount]
  · rintro (h | h) <;> cases h
  · rintro h
    cases h
  · exact fun _ => .inr ⟨[], by decide +kernel, by decide⟩
  · simp [InInv, State.setFramer, State.setOut, fresh, State.reset, State.resetWith]
  · simp [ResponseInv, State.setFramer, State.setOut, fresh, State.reset, State.resetWith]

/-- The 4 by 2 gray image of T7 (95_test_vectors.md). -/
def grayImage : Image := ⟨⟨4, 2, List.replicate 8 ⟨128, 128, 128⟩⟩, 255⟩

theorem grayImage_valid : grayImage.valid := by
  simp only [Image.valid]
  decide +kernel

theorem witness_CompressionWritesTheStreamOfTheImage :
    fresh.fault = 0#3 ∧ fresh.frMode = .idle ∧ fresh.cfg.num = .exact ∧ grayImage.valid ∧
    grayImage.pixels.width < 2 ^ fresh.cfg.dimBits ∧ grayImage.pixels.height < 2 ^ fresh.cfg.dimBits ∧
    grayImage.denominator < 2 ^ fresh.cfg.chBits :=
  ⟨rfl, rfl, rfl, grayImage_valid, by decide, by decide, by decide⟩

theorem witness_StagedCompressionEqualsTheFusedForm :
    fresh.fault = 0#3 ∧ GridsInv fresh ∧ grayImage.valid ∧ grayImage.pixels.width < 2 ^ fresh.cfg.argBits ∧
    0 < fresh.cfg.sizeofColorPixel ∧ fresh.cfg.sizeofColorPixel < 2 ^ fresh.cfg.argBits :=
  ⟨rfl, fresh_inv.grids, grayImage_valid, by decide, by decide, by decide⟩

/-- The stream of program P2, and a byte after it. -/
theorem witness_DecompressionRebuildsTheImage :
    let body : List Byte := [0x80, 0x80, 0x00, 0x88, 0x80, 0x80, 0x00, 0x88]
    let s := reading (Framer.header 4 2 ++ body ++ [1])
    s.fault = 0#3 ∧ s.frMode = .idle ∧ s.cfg.num = .exact ∧ GridsInv s ∧ 4 < 2 ^ s.cfg.dimBits ∧ 4 < 2 ^ s.cfg.argBits ∧
      0 < s.cfg.sizeofColorPixel ∧ s.cfg.sizeofColorPixel < 2 ^ s.cfg.argBits ∧ 0 < s.cfg.decompDenom ∧
      s.cfg.decompDenom < 2 ^ s.cfg.chBits ∧ s.inPos ≤ s.input.length ∧
      s.input.drop s.inPos = Framer.header 4 2 ++ body ++ [1] ∧ body.length = 4 * (4 / 2 * (2 / 2)) :=
  ⟨rfl, rfl, rfl, fresh_inv.grids, by decide, by decide, by decide, by decide, by decide, by decide, by decide +kernel, rfl,
    rfl⟩

end Sys2Proof.Tests
end

section
/-! PROOFS. Which values of `F` stay finite (rule R15, decision D29): how far each operator of `F` can carry a magnitude
in any `NUM`, and from that the transforms' completion on operands of moderate size. -/

namespace Sys2Proof.Machine

/-- A computation on values of `F` completes, and its result has the property `P`. -/
def Gives {α : Type} (P : α → Prop) (r : Option α) : Prop := ∃ a, r = some a ∧ P a

/-- A value that is finite in `F`, of a magnitude of at most `2^k`. -/
abbrev Within (k : ℕ) (r : Option FVal) : Prop := Gives (fun x => |x| ≤ 2 ^ k) r

section Gives

variable {α β : Type} {P : α → Prop} {Q : β → Prop} {r : Option α} {f : α → Option β}

theorem Gives.bind (h : Gives P r) (hf : ∀ a, P a → Gives Q (f a)) : Gives Q (r >>= f) := by
  obtain ⟨a, rfl, ha⟩ := h
  exact hf a ha

/-- `Gives.bind` where only completion is asked for. -/
theorem Gives.bind_some (h : Gives P r) (hf : ∀ a, P a → ∃ b, f a = some b) : ∃ b, (r >>= f) = some b := by
  obtain ⟨a, rfl, ha⟩ := h
  exact hf a ha

end Gives

theorem abs_le_two_pow_mono {x : FVal} {j k : ℕ} (hjk : j ≤ k) (h : |x| ≤ 2 ^ j) : |x| ≤ 2 ^ k :=
  h.trans (pow_le_pow_right₀ (by norm_num) hjk)

/-! ### One operator -/

section Operators

variable {num : NumFormat} {j k : ℕ} {x y c : FVal}

theorem lit_within (hk : k ≤ 127) (h : |c| ≤ 2 ^ k) : Within k (lit num c) := roundF_of_abs_le hk h

theorem i2f_within {n m : ℕ} (hk : k ≤ 127) (hnm : n ≤ m) (hm : m < 2 ^ k) : Within k (i2f num n) := by
  have h : |((n : ℤ) : FVal)| ≤ 2 ^ k := by
    rw [Int.cast_natCast, Nat.abs_cast]
    exact_mod_cast hnm.trans hm.le
  exact roundF_of_abs_le hk h

/-- A positive integer is a divisor of at least 1 in `F` too. -/
theorem i2f_positive {n : ℕ} (hk : k ≤ 127) (hn : 0 < n) (hnk : n < 2 ^ k) :
    Gives (fun x => 1 ≤ x ∧ |x| ≤ 2 ^ k) (i2f num n) := by
  obtain ⟨x, hx, hxk⟩ := i2f_within (num := num) hk le_rfl hnk
  have hone : roundF num ((1 : ℕ) : FVal) = some ((1 : ℕ) : FVal) := roundF_natCast num (by norm_num)
  have hle : ((1 : ℕ) : FVal) ≤ ((n : ℤ) : FVal) := by exact_mod_cast hn
  exact ⟨x, hx, by simpa using roundF_mono hle hone hx, hxk⟩

theorem fmul_within (hjk : j + k ≤ 127) (hx : |x| ≤ 2 ^ j) (hy : |y| ≤ 2 ^ k) : Within (j + k) (fmul num x y) := by
  refine roundF_of_abs_le hjk ?_
  rw [abs_mul, pow_add]
  exact mul_le_mul hx hy (abs_nonneg y) (by positivity)

/-- A divisor of at least 1 carries no magnitude further. -/
theorem fdiv_within (hk : k ≤ 127) (hx : |x| ≤ 2 ^ k) (hy : 1 ≤ y) : Within k (fdiv num x y) := by
  refine roundF_of_abs_le hk ?_
  rw [abs_div, abs_of_nonneg (by linarith : 0 ≤ y)]
  exact (div_le_self (abs_nonneg x) hy).trans hx

/-- An operator of `F` that carries operands of at most `2^k` to a finite value of at most `2^(k+1)`. -/
def Doubling (op : FVal → FVal → Option FVal) : Prop :=
  ∀ (k : ℕ) (x y : FVal), k < 127 → |x| ≤ 2 ^ k → |y| ≤ 2 ^ k → Within (k + 1) (op x y)

theorem fadd_doubling (num : NumFormat) : Doubling (fadd num) := fun k x y hk hx hy =>
  roundF_of_abs_le hk (by linarith [abs_add_le x y, pow_succ (2 : FVal) k])

theorem fsub_doubling (num : NumFormat) : Doubling (fsub num) := fun k x y hk hx hy =>
  roundF_of_abs_le hk (by linarith [abs_sub x y, pow_succ (2 : FVal) k])

end Operators

/-! ### Sums and differences of several terms, in the printed order -/

/-- Three terms under two operators, from the left. -/
def chain3 (op₁ op₂ : FVal → FVal → Option FVal) (x y z : FVal) : Option FVal := do op₂ (← op₁ x y) z

/-- Four terms under three operators, from the left. -/
def chain4 (op₁ op₂ op₃ : FVal → FVal → Option FVal) (w x y z : FVal) : Option FVal := do op₃ (← chain3 op₁ op₂ w x y) z

section Chains

variable {op₁ op₂ op₃ : FVal → FVal → Option FVal} {k : ℕ} {w x y z : FVal}

theorem chain3_within (h₁ : Doubling op₁) (h₂ : Doubling op₂) (hk : k + 2 ≤ 127) (hx : |x| ≤ 2 ^ k) (hy : |y| ≤ 2 ^ k)
    (hz : |z| ≤ 2 ^ k) : Within (k + 2) (chain3 op₁ op₂ x y z) :=
  (h₁ k x y (by omega) hx hy).bind fun t ht => h₂ (k + 1) t z (by omega) ht (abs_le_two_pow_mono (by omega) hz)

theorem chain4_within (h₁ : Doubling op₁) (h₂ : Doubling op₂) (h₃ : Doubling op₃) (hk : k + 3 ≤ 127) (hw : |w| ≤ 2 ^ k)
    (hx : |x| ≤ 2 ^ k) (hy : |y| ≤ 2 ^ k) (hz : |z| ≤ 2 ^ k) : Within (k + 3) (chain4 op₁ op₂ op₃ w x y z) :=
  (chain3_within h₁ h₂ (by omega) hw hx hy).bind fun t ht =>
    h₃ (k + 2) t z (by omega) ht (abs_le_two_pow_mono (by omega) hz)

end Chains

/-! ### The block transform -/

namespace BlockTransform

variable (num : NumFormat)

/-- A quarter of a chain of four terms: each of the six coefficients is one (R180). -/
def quarter (op₁ op₂ op₃ : FVal → FVal → Option FVal) (w x y z : FVal) : Option FVal := do
  fdiv num (← chain4 op₁ op₂ op₃ w x y z) 4

/-- The forward transform as its six quarters. -/
theorem forward_eq (p1 p2 p3 p4 : ColorPixel) : forward num p1 p2 p3 p4 = (do
    let a ← quarter num (fadd num) (fadd num) (fadd num) p1.y p2.y p3.y p4.y
    let b ← quarter num (fadd num) (fsub num) (fsub num) p4.y p3.y p2.y p1.y
    let c ← quarter num (fsub num) (fadd num) (fsub num) p4.y p3.y p2.y p1.y
    let d ← quarter num (fsub num) (fsub num) (fadd num) p4.y p3.y p2.y p1.y
    let pbAvg ← quarter num (fadd num) (fadd num) (fadd num) p1.pb p2.pb p3.pb p4.pb
    let prAvg ← quarter num (fadd num) (fadd num) (fadd num) p1.pr p2.pr p3.pr p4.pr
    return ⟨a, b, c, d, pbAvg, prAvg⟩) := by
  simp only [forward, mean4, quarter, chain4, chain3, bind_assoc]

/-- The four lumas as chains of the four coefficients. -/
theorem lumas_eq (co : BlockCoefficients) : lumas num co = (do
    let y1 ← chain4 (fsub num) (fsub num) (fadd num) co.a co.b co.c co.d
    let y2 ← chain4 (fsub num) (fadd num) (fsub num) co.a co.b co.c co.d
    let y3 ← chain4 (fadd num) (fsub num) (fsub num) co.a co.b co.c co.d
    let y4 ← chain4 (fadd num) (fadd num) (fadd num) co.a co.b co.c co.d
    return (y1, y2, y3, y4)) := by
  simp only [lumas, chain4, chain3, bind_assoc]

theorem quarter_within {op₁ op₂ op₃ : FVal → FVal → Option FVal} {k : ℕ} {w x y z : FVal} (h₁ : Doubling op₁)
    (h₂ : Doubling op₂) (h₃ : Doubling op₃) (hk : k + 3 ≤ 127) (hw : |w| ≤ 2 ^ k) (hx : |x| ≤ 2 ^ k) (hy : |y| ≤ 2 ^ k)
    (hz : |z| ≤ 2 ^ k) : Within (k + 3) (quarter num op₁ op₂ op₃ w x y z) :=
  (chain4_within h₁ h₂ h₃ hk hw hx hy hz).bind fun _ ht => fdiv_within hk ht (by norm_num)

/-- The forward transform completes on operands of moderate size. -/
theorem forward_some {k : ℕ} (hk : k + 3 ≤ 127) (p1 p2 p3 p4 : ColorPixel)
    (h : ∀ p ∈ [p1, p2, p3, p4], |p.y| ≤ 2 ^ k ∧ |p.pb| ≤ 2 ^ k ∧ |p.pr| ≤ 2 ^ k) :
    ∃ co, forward num p1 p2 p3 p4 = some co := by
  obtain ⟨y1, pb1, pr1⟩ := h p1 (by simp)
  obtain ⟨y2, pb2, pr2⟩ := h p2 (by simp)
  obtain ⟨y3, pb3, pr3⟩ := h p3 (by simp)
  obtain ⟨y4, pb4, pr4⟩ := h p4 (by simp)
  have add := fadd_doubling num
  have sub := fsub_doubling num
  rw [forward_eq]
  exact (quarter_within num add add add hk y1 y2 y3 y4).bind_some fun a _ =>
    (quarter_within num add sub sub hk y4 y3 y2 y1).bind_some fun b _ =>
    (quarter_within num sub add sub hk y4 y3 y2 y1).bind_some fun c _ =>
    (quarter_within num sub sub add hk y4 y3 y2 y1).bind_some fun d _ =>
    (quarter_within num add add add hk pb1 pb2 pb3 pb4).bind_some fun pb _ =>
    (quarter_within num add add add hk pr1 pr2 pr3 pr4).bind_some fun pr _ => ⟨⟨a, b, c, d, pb, pr⟩, rfl⟩

/-- The inverse transform completes on coefficients of moderate size, whatever the chroma averages, which it copies. -/
theorem inverse_some {k : ℕ} (hk : k + 3 ≤ 127) (co : BlockCoefficients) (h : ∀ x ∈ [co.a, co.b, co.c, co.d], |x| ≤ 2 ^ k) :
    ∃ p, inverse num co = some p := by
  have ha := h co.a (by simp)
  have hb := h co.b (by simp)
  have hc := h co.c (by simp)
  have hd := h co.d (by simp)
  have add := fadd_doubling num
  have sub := fsub_doubling num
  have hlumas : ∃ y, lumas num co = some y := by
    rw [lumas_eq]
    exact (chain4_within sub sub add hk ha hb hc hd).bind_some fun y1 _ =>
      (chain4_within sub add sub hk ha hb hc hd).bind_some fun y2 _ =>
      (chain4_within add sub sub hk ha hb hc hd).bind_some fun y3 _ =>
      (chain4_within add add add hk ha hb hc hd).bind_some fun y4 _ => ⟨(y1, y2, y3, y4), rfl⟩
  obtain ⟨y, hy⟩ := hlumas
  rw [inverse, hy]
  exact ⟨_, rfl⟩

end BlockTransform

/-! ### The color-space transform -/

namespace ColorSpace

variable (num : NumFormat)

/-- A literal's multiple of a value, `lit(c) * x`. -/
def scaled (c x : FVal) : Option FVal := do fmul num (← lit num c) x

/-- A chain of three multiples. -/
def linear3 (op₁ op₂ : FVal → FVal → Option FVal) (k1 x1 k2 x2 k3 x3 : FVal) : Option FVal := do
  chain3 op₁ op₂ (← scaled num k1 x1) (← scaled num k2 x2) (← scaled num k3 x3)

/-- A channel as a fraction of the denominator. -/
def fraction (n : ℕ) (den : FVal) : Option FVal := do fdiv num (← i2f num n) den

theorem sum3_eq : sum3 num = linear3 num (fadd num) (fadd num) := by
  funext k1 x1 k2 x2 k3 x3
  simp only [sum3, linear3, scaled, chain3, bind_assoc]

theorem diff3_eq : diff3 num = linear3 num (fsub num) (fsub num) := by
  funext k1 x1 k2 x2 k3 x3
  simp only [diff3, linear3, scaled, chain3, bind_assoc]

/-- The forward transform as three fractions and three linear forms of them. -/
theorem forward_eq (px : Pixel) (denominator : ℕ) : forward num px denominator = (do
    let den ← i2f num denominator
    let r ← fraction num px.red den
    let g ← fraction num px.green den
    let b ← fraction num px.blue den
    let y ← linear3 num (fadd num) (fadd num) 0.299 r 0.587 g 0.114 b
    let pb ← linear3 num (fsub num) (fsub num) 0.5 b 0.168736 r 0.331264 g
    let pr ← linear3 num (fsub num) (fsub num) 0.5 r 0.418688 g 0.081312 b
    return ⟨y, pb, pr⟩) := by
  simp only [forward, sum3_eq, diff3_eq, fraction, bind_assoc]

/-- The inverse transform in terms of the four multiples of the chromas. -/
theorem inverse_eq (cp : ColorPixel) (denominator : ℕ) : inverse num cp denominator = (do
    let r ← fadd num cp.y (← scaled num 1.402 cp.pr)
    let g1 ← fsub num cp.y (← scaled num 0.344136 cp.pb)
    let g ← fsub num g1 (← scaled num 0.714136 cp.pr)
    let b ← fadd num cp.y (← scaled num 1.772 cp.pb)
    let den ← i2f num denominator
    return ⟨← channel num r den, ← channel num g den, ← channel num b den⟩) := by
  simp only [inverse, scaled, bind_assoc]

theorem scaled_within {j k : ℕ} (hjk : j + k ≤ 127) {c x : FVal} (hc : |c| ≤ 2 ^ j) (hx : |x| ≤ 2 ^ k) :
    Within (j + k) (scaled num c x) :=
  (lit_within (by omega) hc).bind fun _ hl => fmul_within hjk hl hx

/-- Three multiples by literals of at most 1. -/
theorem linear3_within {op₁ op₂ : FVal → FVal → Option FVal} {k : ℕ} {k1 x1 k2 x2 k3 x3 : FVal} (h₁ : Doubling op₁)
    (h₂ : Doubling op₂) (hk : k + 2 ≤ 127) (hc : ∀ c ∈ [k1, k2, k3], |c| ≤ 1) (hx1 : |x1| ≤ 2 ^ k) (hx2 : |x2| ≤ 2 ^ k)
    (hx3 : |x3| ≤ 2 ^ k) : Within (k + 2) (linear3 num op₁ op₂ k1 x1 k2 x2 k3 x3) := by
  have multiple : ∀ {c x : FVal}, c ∈ [k1, k2, k3] → |x| ≤ 2 ^ k → Within k (scaled num c x) := by
    intro c x hmem hx
    simpa using scaled_within num (j := 0) (by omega) (by simpa using hc c hmem) hx
  exact (multiple (by simp) hx1).bind fun _ ht1 =>
    (multiple (by simp) hx2).bind fun _ ht2 =>
    (multiple (by simp) hx3).bind fun _ ht3 => chain3_within h₁ h₂ hk ht1 ht2 ht3

theorem fraction_within {k n m : ℕ} (hk : k ≤ 127) (hnm : n ≤ m) (hm : m < 2 ^ k) {den : FVal} (hden : 1 ≤ den) :
    Within k (fraction num n den) :=
  (i2f_within hk hnm hm).bind fun _ hx => fdiv_within hk hx hden

theorem channel_some {k : ℕ} (hk : k ≤ 127) (x : FVal) {den : FVal} (hden : |den| ≤ 2 ^ k) :
    ∃ n, channel num x den = some n := by
  obtain ⟨h0, h1⟩ := clamp_mem (lo := 0) (hi := 1) (by norm_num) x
  have hclamp : |clamp x 0 1| ≤ 2 ^ 0 := by rw [abs_of_nonneg h0]; simpa using h1
  exact (fmul_within (num := num) (by omega) hclamp hden).bind_some fun y _ => ⟨(roundHaz y).toNat, rfl⟩

/-- The forward transform completes on a pixel in range with a denominator of moderate size. -/
theorem forward_some {k : ℕ} (hk : k + 2 ≤ 127) (px : Pixel) (denominator : ℕ) (h0 : 0 < denominator)
    (hd : denominator < 2 ^ k) (hr : px.red ≤ denominator) (hg : px.green ≤ denominator) (hb : px.blue ≤ denominator) :
    ∃ cp, forward num px denominator = some cp := by
  have add := fadd_doubling num
  have sub := fsub_doubling num
  rw [forward_eq]
  exact (i2f_positive (by omega) h0 hd).bind_some fun _ ⟨hone, _⟩ =>
    (fraction_within num (by omega) hr hd hone).bind_some fun _ hr =>
    (fraction_within num (by omega) hg hd hone).bind_some fun _ hg =>
    (fraction_within num (by omega) hb hd hone).bind_some fun _ hb =>
    (linear3_within num add add hk (by norm_num [abs_of_pos]) hr hg hb).bind_some fun y _ =>
    (linear3_within num sub sub hk (by norm_num [abs_of_pos]) hb hr hg).bind_some fun pb _ =>
    (linear3_within num sub sub hk (by norm_num [abs_of_pos]) hr hg hb).bind_some fun pr _ => ⟨⟨y, pb, pr⟩, rfl⟩

/-- The inverse transform completes on operands of moderate size. -/
theorem inverse_some {k m : ℕ} (hk : k + 3 ≤ 127) (hm : m ≤ 127) (cp : ColorPixel) (denominator : ℕ)
    (hd : denominator < 2 ^ m) (hcp : ∀ x ∈ [cp.y, cp.pb, cp.pr], |x| ≤ 2 ^ k) :
    ∃ px, inverse num cp denominator = some px := by
  have hy : |cp.y| ≤ 2 ^ k := hcp cp.y (by simp)
  have hpb : |cp.pb| ≤ 2 ^ k := hcp cp.pb (by simp)
  have hpr : |cp.pr| ≤ 2 ^ k := hcp cp.pr (by simp)
  have hy' : |cp.y| ≤ 2 ^ (1 + k) := abs_le_two_pow_mono (by omega) hy
  have multiple : ∀ {c x : FVal}, |c| ≤ 2 → |x| ≤ 2 ^ k → Within (1 + k) (scaled num c x) := fun hc hx =>
    scaled_within num (by omega) (by simpa using hc) hx
  have add := fadd_doubling num (1 + k)
  have sub := fsub_doubling num (1 + k)
  rw [inverse_eq]
  exact (multiple (by norm_num [abs_of_pos]) hpr).bind_some fun _ ht =>
    (add _ _ (by omega) hy' ht).bind_some fun r _ =>
    (multiple (by norm_num [abs_of_pos]) hpb).bind_some fun _ ht =>
    (sub _ _ (by omega) hy' ht).bind_some fun _ hg1 =>
    (multiple (by norm_num [abs_of_pos]) hpr).bind_some fun _ ht =>
    (fsub_doubling num (1 + k + 1) _ _ (by omega) hg1 (abs_le_two_pow_mono (by omega) ht)).bind_some fun g _ =>
    (multiple (by norm_num [abs_of_pos]) hpb).bind_some fun _ ht =>
    (add _ _ (by omega) hy' ht).bind_some fun b _ =>
    (i2f_within hm le_rfl hd).bind_some fun den hden => by
      obtain ⟨r', hr⟩ := channel_some num hm r hden
      obtain ⟨g', hg⟩ := channel_some num hm g hden
      obtain ⟨b', hb⟩ := channel_some num hm b hden
      exact ⟨⟨r', g', b'⟩, by rw [hr, hg, hb]; rfl⟩

end ColorSpace

/-! ### The four operations -/

theorem pixelInRange_iff {px : Pixel} {den : ℕ} : ColorSpace.pixelInRange px den = true ↔
    den ≠ 0 ∧ px.red ≤ den ∧ px.green ≤ den ∧ px.blue ≤ den := by
  simp [ColorSpace.pixelInRange, and_assoc]

/-- An operation on values of `F` that computes its result delivers it. -/
theorem finishF_delivers {α : Type} {s : State} (hs : s.fault = 0#3) {r : Option α} {a : α} (h : r = some a)
    (result : α → Result) : finishF (r.map result) s = .next (s.delivering (result a)) := by
  rw [h, Option.map_some, finishF_some, deliver_running hs]

section Transforms

variable {s : State} (hs : s.fault = 0#3)
include hs

theorem exec_cscFwd_of_forward {px : Pixel} {den : ℕ} {cp : ColorPixel} (hpx : ColorSpace.pixelInRange px den = true)
    (h : ColorSpace.forward s.cfg.num px den = some cp) : exec (.cscFwd px den) s = .next (s.delivering (.color cp)) := by
  rw [exec, execCscFwd, issue_running hs, if_pos hpx, finishF_delivers hs h]

theorem exec_cscInv_of_inverse {cp : ColorPixel} {den : ℕ} {px : Pixel} (hden : den ≠ 0)
    (h : ColorSpace.inverse s.cfg.num cp den = some px) : exec (.cscInv cp den) s = .next (s.delivering (.pixel px)) := by
  rw [exec, execCscInv, issue_running hs, if_neg hden, finishF_delivers hs h]

theorem exec_btFwd_of_forward {p1 p2 p3 p4 : ColorPixel} {co : BlockCoefficients}
    (h : BlockTransform.forward s.cfg.num p1 p2 p3 p4 = some co) :
    exec (.btFwd p1 p2 p3 p4) s = .next (s.delivering (.coeffs co)) := by
  rw [exec, execBtFwd, issue_running hs, finishF_delivers hs h]

theorem exec_btInv_of_inverse {co : BlockCoefficients} {p : ColorPixel × ColorPixel × ColorPixel × ColorPixel}
    (h : BlockTransform.inverse s.cfg.num co = some p) :
    exec (.btInv co) s = .next (s.delivering (.block p.1 p.2.1 p.2.2.1 p.2.2.2)) := by
  rw [exec, execBtInv, issue_running hs, finishF_delivers hs h]

end Transforms

/-- Settles O33, from the completion of each transform within its bounds, which are far below the largest value of
`B32`. -/
theorem transformsCompleteOnModerateOperands : Obligations.TransformsCompleteOnModerateOperands := by
  intro s hs
  refine ⟨fun px den h0 hd hr hg hb => ?_, fun cp den h0 hd hcp => ?_, fun p1 p2 p3 p4 hp => ?_, fun co hco => ?_⟩
  · obtain ⟨cp, h⟩ := ColorSpace.forward_some s.cfg.num (by norm_num) px den h0 hd hr hg hb
    exact ⟨cp, exec_cscFwd_of_forward hs (pixelInRange_iff.2 ⟨h0.ne', hr, hg, hb⟩) h⟩
  · obtain ⟨px, h⟩ := ColorSpace.inverse_some s.cfg.num (by norm_num) (by norm_num) cp den hd hcp
    exact ⟨px, exec_cscInv_of_inverse hs h0.ne' h⟩
  · obtain ⟨co, h⟩ := BlockTransform.forward_some s.cfg.num (by norm_num) p1 p2 p3 p4 hp
    exact ⟨co, exec_btFwd_of_forward hs h⟩
  · obtain ⟨p, h⟩ := BlockTransform.inverse_some s.cfg.num (by norm_num) co hco
    exact ⟨_, _, _, _, exec_btInv_of_inverse hs h⟩

end Sys2Proof.Machine
end

section
/-! PROOFS. When an operation is refused: once for each shared operation, and from that for every instruction. -/

namespace Sys2Proof.Machine

/-- The step has no successor (R12). -/
def Refuses (x : StepResult) : Prop := ∃ r, x = .refused r

/-! ### Answers -/

@[simp] theorem refuses_refused (r : Refusal) : Refuses (.refused r) := ⟨r, rfl⟩

@[simp] theorem not_refuses_next (s : State) : ¬ Refuses (.next s) := fun ⟨_, h⟩ => nomatch h

@[simp] theorem not_refuses_deliver (r : Result) (s : State) : ¬ Refuses (deliver r s) := not_refuses_next _

@[simp] theorem not_refuses_complete (s : State) : ¬ Refuses (complete s) := not_refuses_next _

@[simp] theorem not_refuses_raise (e : ErrorKind) (s : State) : ¬ Refuses (raise e s) := not_refuses_next _

@[simp] theorem not_refuses_raiseTruncated (s : State) : ¬ Refuses (raiseTruncated s) := not_refuses_raise _ _

@[simp] theorem not_refuses_newGrid (w h es bs : Nat) (s : State) : ¬ Refuses (newGrid w h es bs s) := not_refuses_deliver _ _

@[simp] theorem not_refuses_finish (r : Except ErrorKind Result) (s : State) : ¬ Refuses (finish r s) := by
  cases r with
  | ok v => exact not_refuses_deliver v s
  | error e => exact not_refuses_raise e s

/-- An operation on values of `F` is refused exactly where a value would not be finite (decision D29). -/
@[simp] theorem refuses_finishF (r : Option Result) (s : State) : Refuses (finishF r s) ↔ r = none := by
  cases r with
  | none => simp [finishF_none]
  | some v => simp [finishF_some]

/-! ### Guards -/

/-- The halt refuses nothing; a running block is refused what the operation is (R283). -/
theorem refuses_issue {s : State} (hs : s.fault = 0#3) (k : State → StepResult) : Refuses (issue s k) ↔ Refuses (k s) := by
  rw [issue_running hs]

@[simp] theorem refuses_withLive (g : Handle) (s : State) (k : Grid → StepResult) :
    Refuses (withLive g s k) ↔ Store.find g s.grids = none ∨ ∃ d, Store.find g s.grids = some d ∧ Refuses (k d) := by
  cases hd : Store.find g s.grids with
  | none => simp [withLive_none hd]
  | some d => simp [withLive_some hd]

@[simp] theorem refuses_inMode (m : FrMode) (s : State) (x : StepResult) :
    Refuses (Framer.inMode m s x) ↔ s.frMode ≠ m ∨ Refuses x := by
  by_cases hm : s.frMode = m
  · simp [Framer.inMode_pos hm, hm]
  · simp [Framer.inMode_neg hm, hm]

@[simp] theorem refuses_ite (c : Prop) [Decidable c] (x y : StepResult) :
    Refuses (if c then x else y) ↔ (c ∧ Refuses x) ∨ (¬ c ∧ Refuses y) := by
  by_cases hc : c <;> simp [hc]

@[simp] theorem refuses_queryGrid (g : Handle) (f : Grid → Nat) (s : State) :
    Refuses (queryGrid g f s) ↔ Store.find g s.grids = none := by simp [queryGrid]

/-! ### Instructions that look at what an accessor gave -/

section

variable {s : State} (hs : s.fault = 0#3)
include hs

theorem refuses_gridAtRd (g : Handle) (col row : Nat) : Refuses (exec (.gridAtRd g col row) s) ↔
    Store.find g s.grids = none ∨
      ∃ d, Store.find g s.grids = some d ∧ col < d.width ∧ row < d.height ∧ d.memRead col row = none := by
  rw [exec, execGridAtRd, refuses_issue hs, refuses_withLive]
  refine or_congr_right (exists_congr fun d => and_congr_right fun _ => ?_)
  cases hread : d.memRead col row <;> simp [Grid.inBounds_iff]

theorem refuses_cscFwd (px : Pixel) (den : Nat) : Refuses (exec (.cscFwd px den) s) ↔
    den = 0 ∨ den < px.red ∨ den < px.green ∨ den < px.blue ∨ ColorSpace.forward s.cfg.num px den = none := by
  rw [exec, execCscFwd, refuses_issue hs, refuses_ite, pixelInRange_iff, refuses_finishF, Option.map_eq_none_iff]
  simp only [refuses_refused, and_true, ← not_le]
  tauto

theorem refuses_qDequant (q : QuantizedBlock) : Refuses (exec (.qDequant q) s) ↔
    15 < q.indexPb.toNat ∨ 15 < q.indexPr.toNat := by
  rw [exec, execQDequant, refuses_issue hs]
  by_cases hb : q.indexPb.toNat < 16
  · by_cases hr : q.indexPr.toNat < 16
    · obtain ⟨_, _, _, _, -, -, -, -, hq⟩ :=
        Quantizer.dequantize_some s.cfg.num (indexToChroma s.cfg) q ⟨_, hb⟩ ⟨_, hr⟩
      simp only [hb, hr, dif_pos, refuses_finishF, Option.map_eq_none_iff, hq, reduceCtorEq, false_iff]
      omega
    · simp only [hb, hr, dif_pos, dif_neg, not_false_iff, refuses_refused, true_iff]
      omega
  · simp only [hb, dif_neg, not_false_iff, refuses_refused, true_iff]
    omega

theorem not_refuses_qQuant (co : BlockCoefficients) : ¬ Refuses (exec (.qQuant co) s) := by
  obtain ⟨q, hq, -⟩ := Quantizer.quantize_inRange s.cfg.num s.cfg.c2i co
  simp [exec, execQQuant, refuses_issue hs, hq]

theorem refuses_frPut (q : QuantizedBlock) : Refuses (exec (.frPut q) s) ↔ s.frMode ≠ .tx := by
  rw [exec, execFrPut, refuses_issue hs, refuses_inMode]
  cases Codec.encode q <;> simp

theorem refuses_frHdrr : Refuses (exec .frHdrr s) ↔
    s.frMode ≠ .idle ∨ ∃ r, Framer.scanHeader (2 ^ s.cfg.dimBits) (remaining s) = .refused r := by
  rw [exec, execFrHdrr, refuses_issue hs, refuses_inMode]
  cases Framer.scanHeader (2 ^ s.cfg.dimBits) (remaining s) <;> simp

theorem refuses_frGet : Refuses (exec .frGet s) ↔ s.frMode ≠ .rx := by
  rw [exec, execFrGet, refuses_issue hs, refuses_inMode]
  cases Codec.decode (streamGet 4 s).1 <;> simp

end

/-- A running block refuses an instruction exactly for its cause. -/
theorem refuses_exec_iff {s : State} (hs : s.fault = 0#3) (i : Instr) : Refuses (exec i s) ↔ RefusalCause i s := by
  have issued := refuses_issue hs
  cases i with
  | bfFitsu v w => simp [exec, execBfFitsu, issued, RefusalCause]
  | bfFitss v w => simp [exec, execBfFitss, issued, RefusalCause]
  | bfGetu a w l => simp [exec, execBfGetu, issued, RefusalCause]
  | bfGets a w l => simp [exec, execBfGets, issued, RefusalCause]
  | bfNewu a w l v => simp [exec, execBfNewu, issued, RefusalCause]
  | bfNews a w l v => simp [exec, execBfNews, issued, RefusalCause]
  | gridNew w h es bs => simp [exec, execGridNew, issued, RefusalCause]
  | gridNewdef w h es => simp [exec, execGridNewdef, issued, RefusalCause]
  | gridAtRd g c r => exact refuses_gridAtRd hs g c r
  | gridAtWr g c r e => simp [exec, execGridAtWr, issued, RefusalCause]
  | gridForeach g => simp [exec, execGridForeach, issued, RefusalCause]
  | gridWidth g => simp [exec, execGridWidth, issued, RefusalCause]
  | gridHeight g => simp [exec, execGridHeight, issued, RefusalCause]
  | gridEsize g => simp [exec, execGridEsize, issued, RefusalCause]
  | gridBsize g => simp [exec, execGridBsize, issued, RefusalCause]
  | gridFree g => simp [exec, execGridFree, issued, RefusalCause]
  | cscFwd px den => exact refuses_cscFwd hs px den
  | cscInv cp den =>
    simp only [exec, execCscInv, issued, refuses_ite, refuses_refused, refuses_finishF, Option.map_eq_none_iff, RefusalCause]
    tauto
  | btFwd p1 p2 p3 p4 => simp [exec, execBtFwd, issued, RefusalCause]
  | btInv co => simp [exec, execBtInv, issued, RefusalCause]
  | qQuant co => exact iff_of_false (not_refuses_qQuant hs co) id
  | qDequant q => exact refuses_qDequant hs q
  | cwEnc q => simp [exec, execCwEnc, issued, RefusalCause]
  | cwDec bs => simp [exec, execCwDec, issued, RefusalCause]
  | frHdrw w h => simp [exec, execFrHdrw, issued, RefusalCause]
  | frPut q => exact refuses_frPut hs q
  | frHdrr => exact refuses_frHdrr hs
  | frGet => exact refuses_frGet hs

/-- Settles O7, instruction by instruction. -/
theorem operationsAreRefusedExactlyWhereListed : Obligations.OperationsAreRefusedExactlyWhereListed := fun i _ hs =>
  refuses_exec_iff hs i

end Sys2Proof.Machine
end

section
/-! PROOFS. The step of a command that can be presented. -/

namespace Sys2Proof.Machine

/-- A command that decodes to an instruction with its operands in their ports' types is run (R101, R102). -/
theorem present_of_wf {c : Command} {i : Instr} {s : State} (hd : decode c = .ok i) (hw : i.wf s.cfg = true) :
    present c s = .run i s := by
  simp [present, hd, hw]

/-- The host's next command is presented in the state without it, with empty result ports (R10, R95). -/
theorem fetch_issue {s : State} {c : Command} {rest : List HostAction} (h : s.host = .issue c :: rest) :
    fetch s = present c ((s.setHost rest).setResponse none) := by
  simp [fetch, h]

/-- Settles O3: the command is fetched, presented and executed. -/
theorem stepExecutesTheDecodedInstruction : Obligations.StepExecutesTheDecodedInstruction := by
  intro s c rest i hhost hdecode hwf
  have hrun : fetch s = .run i ((s.setHost rest).setResponse none) := by
    rw [fetch_issue hhost, present_of_wf hdecode (by simpa using hwf)]
  rw [step, hrun]

end Sys2Proof.Machine
end

section
/-! PROOFS. What every operation and every step leave alone (10_state.md section 1): frames of the operations, the
streams' growth, the parameters; and the values after reset. -/

namespace Sys2Proof.Machine

/-- An operation that goes to a next state is answered by the halt, or runs with one of the effects of `Effect`. -/
theorem exec_next {i : Instr} {s t : State} (h : exec i s = .next t) :
    (s.fault ≠ 0#3 ∧ t = answerHalted s) ∨ (s.fault = 0#3 ∧ Effect i s t) := by
  by_cases hs : s.fault = 0#3
  · exact .inr ⟨hs, exec_effect hs h⟩
  · rw [exec_halted hs] at h
    exact .inl ⟨hs, (Host.Outcome.next.inj h).symm⟩

/-! ### What a read of `IN` takes (R30, R65) -/

/-- A codeword is read from four bytes that stand in `IN` (R239). -/
theorem streamGet_of_decode {s : State} {q : QuantizedBlock} (h : Codec.decode (streamGet 4 s).1 = .ok q) :
    (streamGet 4 s).2 = s.setInPos (s.inPos + 4) ∧ s.inPos + 4 ≤ s.input.length := by
  have hlen : (streamGet 4 s).1.length = min 4 (s.input.length - s.inPos) := by simp [streamGet, remaining]
  have hfour : ¬ (streamGet 4 s).1.length < 4 := fun hshort => by
    rw [Codec.decode_short hshort] at h
    cases h
  refine ⟨?_, by omega⟩
  have hstate : (streamGet 4 s).2 = s.setInPos (s.inPos + (streamGet 4 s).1.length) := rfl
  rw [hstate, show (streamGet 4 s).1.length = 4 by omega]

/-- Reading a header moves `IN.pos` past the text of the header (R236). -/
theorem inPos_of_scanHeader {s : State} {bound w h : Nat} {rest : List Byte}
    (scanned : Framer.scanHeader bound (remaining s) = .ok (w, h) rest) :
    s.input.length - rest.length = s.inPos + (Framer.header w h).length ∧
      s.inPos + (Framer.header w h).length ≤ s.input.length := by
  have hlen := Framer.scanHeader_length scanned
  have hpos := Framer.header_length w h
  rw [remaining, List.length_drop] at hlen
  omega

/-- A truncated read leaves `IN.pos` inside `IN` (R65). -/
theorem inPos_add_truncatedTake_le {s : State} (h : s.inPos ≤ s.input.length) (n : Nat) :
    s.inPos + Config.truncatedTake n % ((remaining s).length + 1) ≤ s.input.length := by
  have hlt : Config.truncatedTake n % ((remaining s).length + 1) < (remaining s).length + 1 := Nat.mod_lt _ (Nat.succ_pos _)
  have hlen : (remaining s).length = s.input.length - s.inPos := List.length_drop
  omega

/-! ### Frames of the effects -/

namespace Effect

variable {i : Instr} {s t : State}

theorem cfg_eq (he : Effect i s t) : t.cfg = s.cfg := by cases he <;> rfl

theorem input_eq (he : Effect i s t) : t.input = s.input := by cases he <;> rfl

/-- An operation outside the framer writes buffer memory, the next handle, `FAULT` and the result ports at most. -/
theorem frame_of_not_usesFramer (hi : usesFramer i = false) (he : Effect i s t) :
    t = (((s.setGrids t.grids).setNextHandle t.nextHandle).setFault t.fault).setResponse t.response := by
  cases he with
  | delivered | faulted | created | written | freed => rfl
  | truncated reads => obtain rfl | rfl := reads <;> cases hi
  | headerOut _ _ is | put _ is | headerIn _ _ _ is | get _ is => subst is; cases hi

/-- An operation that uses neither the framer nor writes buffer memory writes `FAULT` and the result ports at most. -/
theorem frame_of_pure (hf : usesFramer i = false) (hg : writesGrids i = false) (he : Effect i s t) :
    t = (s.setFault t.fault).setResponse t.response := by
  cases he with
  | delivered | faulted => rfl
  | truncated reads => obtain rfl | rfl := reads <;> cases hf
  | created _ _ _ _ writes => rw [writes.1] at hg; cases hg
  | written _ _ _ _ is | freed _ is => subst is; cases hg
  | headerOut _ _ is | put _ is | headerIn _ _ _ is | get _ is => subst is; cases hf

/-- `OUT` stays, or `FR.HDRW` or `FR.PUT` appends to it (R31). -/
theorem out_cases (he : Effect i s t) :
    t.out = s.out ∨ (((∃ w h, i = .frHdrw w h) ∨ ∃ q, i = .frPut q) ∧ ∃ bytes, t.out = s.out ++ bytes) := by
  cases he with
  | headerOut w h is => exact .inr ⟨.inl ⟨w, h, is⟩, _, rfl⟩
  | put q is => exact .inr ⟨.inr ⟨q, is⟩, _, rfl⟩
  | _ => exact .inl rfl

/-- `IN.pos` stays, or `FR.HDRR` or `FR.GET` moves it forward inside `IN` (R30, R46). -/
theorem inPos_cases (hs : s.inPos ≤ s.input.length) (he : Effect i s t) :
    t.inPos = s.inPos ∨ ((i = .frHdrr ∨ i = .frGet) ∧ s.inPos ≤ t.inPos ∧ t.inPos ≤ s.input.length) := by
  cases he with
  | truncated reads => exact .inr ⟨reads, Nat.le_add_right _ _, inPos_add_truncatedTake_le hs _⟩
  | headerIn w h rest is mode scanned =>
    obtain ⟨hpos, hle⟩ := inPos_of_scanHeader scanned
    refine .inr ⟨.inl is, ?_⟩
    change s.inPos ≤ s.input.length - rest.length ∧ s.input.length - rest.length ≤ s.input.length
    omega
  | get q is mode decoded =>
    obtain ⟨hstate, hle⟩ := streamGet_of_decode decoded
    rw [hstate]
    exact .inr ⟨.inr is, Nat.le_add_right _ _, hle⟩
  | _ => exact .inl rfl

end Effect

/-! ### Frames of the operations, a halted block's included -/

section

variable {i : Instr} {s t : State}

theorem exec_cfg (h : exec i s = .next t) : t.cfg = s.cfg := by
  obtain ⟨-, rfl⟩ | ⟨-, he⟩ := exec_next h
  · rfl
  · exact he.cfg_eq

theorem exec_input (h : exec i s = .next t) : t.input = s.input := by
  obtain ⟨-, rfl⟩ | ⟨-, he⟩ := exec_next h
  · rfl
  · exact he.input_eq

theorem exec_out (h : exec i s = .next t) :
    t.out = s.out ∨ (((∃ w h, i = .frHdrw w h) ∨ ∃ q, i = .frPut q) ∧ ∃ bytes, t.out = s.out ++ bytes) := by
  obtain ⟨-, rfl⟩ | ⟨-, he⟩ := exec_next h
  · exact .inl rfl
  · exact he.out_cases

theorem exec_inPos (hs : s.inPos ≤ s.input.length) (h : exec i s = .next t) :
    t.inPos = s.inPos ∨ ((i = .frHdrr ∨ i = .frGet) ∧ s.inPos ≤ t.inPos ∧ t.inPos ≤ s.input.length) := by
  obtain ⟨-, rfl⟩ | ⟨-, he⟩ := exec_next h
  · exact .inl rfl
  · exact he.inPos_cases hs

theorem exec_out_isPrefix (h : exec i s = .next t) : s.out <+: t.out := by
  obtain hout | ⟨-, bytes, hout⟩ := exec_out h
  · rw [hout]
  · exact ⟨bytes, hout.symm⟩

end

/-! ### The statements -/

/-- Settles O50, from the frame of an operation outside the framer. -/
theorem onlyTheFramerTouchesStreamsAndRegisters : Obligations.OnlyTheFramerTouchesStreamsAndRegisters := by
  intro i s t hi h
  obtain ⟨-, rfl⟩ | ⟨-, he⟩ := exec_next h
  · exact ⟨rfl, rfl, rfl, rfl, rfl, rfl, rfl⟩
  · rw [he.frame_of_not_usesFramer hi]
    exact ⟨rfl, rfl, rfl, rfl, rfl, rfl, rfl⟩

/-- Settles O51, from the frame of an operation that neither frames nor writes buffer memory. -/
theorem pureOperationsChangeOnlyFaultAndPorts : Obligations.PureOperationsChangeOnlyFaultAndPorts := by
  intro i s t hf hg h
  obtain ⟨-, rfl⟩ | ⟨-, he⟩ := exec_next h
  · rfl
  · exact he.frame_of_pure hf hg

/-- Settles O52: an operation appends at most, and a step is a wait, a reset or an operation. -/
theorem outputIsAppendOnly : Obligations.OutputIsAppendOnly := by
  refine ⟨fun i s t h => ⟨exec_out_isPrefix h, fun hne => ?_⟩, fun s t h => ?_⟩
  · exact ((exec_out h).resolve_left hne).1
  · obtain ⟨-, rfl⟩ | ⟨input, rest, hhost, -⟩ | ⟨c, rest, i, -, -, -, hexec⟩ := step_cases h
    · exact .inl ⟨[], List.append_nil _⟩
    · exact .inr ⟨input, rest, hhost⟩
    · exact .inl (exec_out_isPrefix (s := (s.setHost rest).setResponse none) hexec)

/-- Settles O53, from what a header read, a codeword read and a truncated read take of `IN`. -/
theorem inputIsReadForwardOnly : Obligations.InputIsReadForwardOnly := by
  intro i s t hs h
  have hinput := exec_input h
  rw [hinput]
  obtain hpos | ⟨reads, hforward, hinside⟩ := exec_inPos hs h
  · exact ⟨rfl, hpos.ge, hpos.trans_le hs, fun hne => absurd hpos hne⟩
  · exact ⟨rfl, hforward, hinside, fun _ => reads⟩

/-- Settles O54: neither a wait nor a reset nor an operation writes a parameter. -/
theorem parametersAreNeverWritten : Obligations.ParametersAreNeverWritten := by
  intro s t h
  obtain ⟨-, rfl⟩ | ⟨_, _, -, rfl⟩ | ⟨_, rest, _, -, -, -, hexec⟩ := step_cases h
  · rfl
  · rfl
  · exact exec_cfg (s := (s.setHost rest).setResponse none) hexec

/-- A step takes an assertion of reset that is the host's next action (R320). -/
theorem step_reset {s : State} {input : List Byte} {rest : List HostAction} (h : s.host = .reset input :: rest) :
    step s = .next (assertReset (s.setHost rest) input) := by
  simp [step, fetch, h]

/-- Settles O1: each value is the one `State.resetWith` writes, which an assertion of reset puts in place. -/
theorem resetPutsEveryPieceOfStateAtItsValue : Obligations.ResetPutsEveryPieceOfStateAtItsValue := by
  refine ⟨fun cfg input => ?_, fun s input rest hhost => ⟨_, step_reset hhost, ?_⟩, rfl⟩
  · exact ⟨rfl, rfl, rfl, rfl, rfl, rfl, rfl, rfl, rfl, Store.find_nil, rfl, rfl⟩
  · exact ⟨rfl, rfl, rfl, rfl, rfl, rfl, rfl, rfl, rfl, rfl, Store.find_nil, rfl⟩

end Sys2Proof.Machine
end

section
/-! PROOFS. Every step keeps the invariants of the machine: once for what the framer's registers and streams come to
after a header or a codeword, then for each invariant over the effects of an operation, then for a step. -/

namespace Sys2Proof.Machine

/-! ### The number of codewords (R34, R89) -/

/-- The count of the codewords of a body fits in `FR_REM` (R34). -/
theorem Framer.blockCount_lt {w h d : Nat} (hw : w < 2 ^ d) (hh : h < 2 ^ d) : Framer.blockCount w h < 2 ^ (2 * d - 2) := by
  cases d with
  | zero =>
    obtain ⟨rfl, rfl⟩ : w = 0 ∧ h = 0 := by omega
    decide
  | succ d =>
    have hw2 : w / 2 < 2 ^ d := Nat.div_lt_of_lt_mul (by rwa [pow_succ'] at hw)
    have hh2 : h / 2 < 2 ^ d := Nat.div_lt_of_lt_mul (by rwa [pow_succ'] at hh)
    calc w / 2 * (h / 2) < 2 ^ d * 2 ^ d := Nat.mul_lt_mul'' hw2 hh2
      _ = 2 ^ (2 * (d + 1) - 2) := by rw [← pow_add]; congr 1; omega

/-- `FR_MODE` after a header or a codeword: running with codewords left, or `DONE` with none (R242). -/
theorem modeAfter_cases (running : FrMode) (k : Nat) :
    (0 < k ∧ modeAfter running k = running) ∨ (k = 0 ∧ modeAfter running k = .done) := by
  cases k with
  | zero => exact .inr ⟨rfl, rfl⟩
  | succ k => exact .inl ⟨k.succ_pos, rfl⟩

/-! ### Before the header: the registers and the streams at their reset values (R43) -/

section

variable {s : State}

theorem framerInv_of_idle (hmode : s.frMode = .idle) (hw : s.frW = 0) (hh : s.frH = 0) (hrem : s.frRem = 0) :
    FramerInv s := by
  unfold FramerInv
  rw [hmode, hw, hh, hrem]
  exact ⟨Nat.two_pow_pos _, Nat.two_pow_pos _, Nat.two_pow_pos _, rfl, rfl, Nat.zero_le _, fun _ => ⟨rfl, rfl, rfl⟩, nofun,
    nofun⟩

theorem outInv_of_idle (hmode : s.frMode = .idle) (hout : s.out = []) : OutInv s := by
  unfold OutInv
  rw [hmode]
  exact ⟨fun _ => hout, nofun, nofun⟩

theorem inInv_of_idle (hmode : s.frMode = .idle) (hpos : s.inPos = 0) : InInv s := by
  unfold InInv
  rw [hmode, hpos]
  exact ⟨Nat.zero_le _, fun _ _ => rfl, nofun⟩

end

/-! ### A body on its way: the mode is the one that the count left asks for -/

section

variable {s : State}

/-- The registers while a body is framed, and after it (R32 to R34, R242). -/
theorem framerInv_of_body {running : FrMode} (hrun : running = .tx ∨ running = .rx)
    (hmode : s.frMode = modeAfter running s.frRem) (hw : s.frW < 2 ^ s.cfg.dimBits) (hh : s.frH < 2 ^ s.cfg.dimBits)
    (evenW : s.frW % 2 = 0) (evenH : s.frH % 2 = 0) (hrem : s.frRem ≤ Framer.blockCount s.frW s.frH) : FramerInv s := by
  refine ⟨hw, hh, hrem.trans_lt (Framer.blockCount_lt hw hh), evenW, evenH, hrem, ?_⟩
  obtain ⟨hpos, hafter⟩ | ⟨hzero, hafter⟩ := modeAfter_cases running s.frRem <;> rw [hmode, hafter]
  · obtain rfl | rfl := hrun <;> exact ⟨nofun, fun _ => hpos, nofun⟩
  · exact ⟨nofun, nofun, fun _ => hzero⟩

/-- `OUT` while a body is written, and after it: the header and the codewords framed (R89). -/
theorem outInv_of_tx {body : List Byte} {n : Nat} (hmode : s.frMode = modeAfter .tx s.frRem) (hframed : framed s = n)
    (hout : s.out = Framer.header s.frW s.frH ++ body) (hbody : body.length = 4 * n) : OutInv s := by
  rw [← hframed] at hbody
  unfold OutInv
  obtain ⟨-, hafter⟩ | ⟨hzero, hafter⟩ := modeAfter_cases .tx s.frRem <;> rw [hmode, hafter]
  · exact ⟨nofun, fun _ => ⟨body, hout, hbody⟩, nofun⟩
  · exact ⟨nofun, nofun, fun _ => .inr ⟨body, hout, by rw [hbody, framed, hzero, Nat.sub_zero]⟩⟩

/-- `OUT` while a body is read, and after it. -/
theorem outInv_of_rx (hmode : s.frMode = modeAfter .rx s.frRem) (hout : s.out = []) : OutInv s := by
  unfold OutInv
  obtain ⟨-, hafter⟩ | ⟨-, hafter⟩ := modeAfter_cases .rx s.frRem <;> rw [hmode, hafter]
  · exact ⟨fun _ => hout, nofun, nofun⟩
  · exact ⟨nofun, nofun, fun _ => .inl hout⟩

/-- `IN` while a body is written, and after it. -/
theorem inInv_of_tx (hmode : s.frMode = modeAfter .tx s.frRem) (hpos : s.inPos ≤ s.input.length) : InInv s := by
  unfold InInv
  obtain ⟨-, hafter⟩ | ⟨-, hafter⟩ := modeAfter_cases .tx s.frRem <;> rw [hmode, hafter] <;> exact ⟨hpos, nofun, nofun⟩

/-- `IN` while a body is read, and after it: `IN.pos` stands after the header and the codewords framed (R61). -/
theorem inInv_of_rx {n : Nat} (hmode : s.frMode = modeAfter .rx s.frRem) (hframed : framed s = n)
    (hpos : s.inPos ≤ s.input.length) (hheader : Framer.header s.frW s.frH <+: s.input)
    (hstands : s.inPos = (Framer.header s.frW s.frH).length + 4 * n) : InInv s := by
  rw [← hframed] at hstands
  unfold InInv
  obtain ⟨-, hafter⟩ | ⟨-, hafter⟩ := modeAfter_cases .rx s.frRem <;> rw [hmode, hafter]
  · exact ⟨hpos, nofun, fun _ _ => ⟨hheader, hstands⟩⟩
  · exact ⟨hpos, nofun, nofun⟩

/-- After the header no codeword is framed. -/
theorem framed_startBody (running : FrMode) (w h : Nat) (s : State) : framed (Framer.startBody running w h s) = 0 :=
  Nat.sub_self _

/-- A codeword is one more framed (R242). -/
theorem framed_countCodeword (hi : FramerInv s) (hmode : s.frMode = .tx ∨ s.frMode = .rx) (running : FrMode) :
    framed (Framer.countCodeword running s) = framed s + 1 := by
  obtain ⟨-, -, -, -, -, hrem, -, hpos, -⟩ := hi
  have hpos := hpos hmode
  change Framer.blockCount s.frW s.frH - (s.frRem - 1) = Framer.blockCount s.frW s.frH - s.frRem + 1
  omega

end

/-- After a fault only the bound of `IN.pos` is asked for (R65). -/
theorem inInv_of_fault {s : State} (hf : s.fault ≠ 0#3) (hpos : s.inPos ≤ s.input.length) : InInv s :=
  ⟨hpos, fun _ h => absurd h hf, fun _ h => absurd h hf⟩

/-! ### Answers (R280, R283) -/

theorem responseInv_delivering {s : State} (hs : s.fault = 0#3) (r : Result) : ResponseInv (s.delivering r) := by
  rintro _ ⟨⟩
  exact ⟨hs.symm, fun hf => absurd hs hf⟩

theorem responseInv_of_no_result {s : State} (hr : s.response = some ⟨s.fault, none⟩) : ResponseInv s := by
  intro r h
  obtain rfl := Option.some.inj (hr.symm.trans h)
  exact ⟨rfl, fun _ => rfl⟩

theorem responseInv_of_none {s : State} (hr : s.response = none) : ResponseInv s := fun r h => by
  rw [hr] at h
  cases h

theorem responseInv_completing {s : State} (hs : s.fault = 0#3) : ResponseInv s.completing :=
  responseInv_of_no_result (by simp [hs])

/-! ### Each invariant over the effects of an operation -/

namespace Effect

variable {i : Instr} {s t : State}

theorem faultInv (hi : FaultInv s) (he : Effect i s t) : FaultInv t := by
  cases he with
  | faulted e => exact e.code_le_five
  | truncated => exact ErrorKind.code_le_five _
  | _ => exact hi

/-- Buffer memory: a new grid gets the next handle, a write and a release stay among the live handles (R140, R141). -/
theorem gridsInv (hi : GridsInv s) (he : Effect i s t) : GridsInv t := by
  obtain ⟨hwf, hbelow⟩ := hi
  cases he with
  | created d slots block elem =>
    refine ⟨Memory.wf_created hwf _ slots block elem, fun e hmem => ?_⟩
    obtain rfl | hmem := Store.mem_insert hmem
    · exact Nat.lt_succ_self _
    · exact Nat.lt_succ_of_lt (hbelow e hmem)
  | written g col row e is d live bounds =>
    refine ⟨Memory.wf_written hwf live bounds e, fun x hmem => ?_⟩
    obtain rfl | hmem := Store.mem_insert hmem
    · exact hbelow (g, d) (Store.mem_of_find live)
    · exact hbelow x hmem
  | freed g => exact ⟨Memory.wf_erase hwf g, fun e hmem => hbelow e (Store.mem_of_mem_erase hmem)⟩
  | _ => exact ⟨hwf, hbelow⟩

/-- The framer's registers: a header's dimensions fit by its port (R102) or by the reader (R88), a codeword counts one. -/
theorem framerInv (hi : FramerInv s) (hwf : i.wf s.cfg = true) (he : Effect i s t) : FramerInv t := by
  have ⟨hw, hh, _, evenW, evenH, hrem, _⟩ := hi
  have hrem : s.frRem - 1 ≤ Framer.blockCount s.frW s.frH := (Nat.sub_le _ _).trans hrem
  cases he with
  | headerOut w h is mode evenW evenH =>
    subst is
    simp only [Instr.wf, presentsDim, Bool.and_eq_true, decide_eq_true_eq] at hwf
    exact framerInv_of_body (.inl rfl) rfl hwf.1 hwf.2 evenW evenH le_rfl
  | headerIn w h rest is mode scanned =>
    obtain ⟨-, hw, hh, evenW, evenH⟩ := Framer.scanHeader_ok scanned
    exact framerInv_of_body (.inr rfl) rfl hw hh evenW evenH le_rfl
  | put => exact framerInv_of_body (.inl rfl) rfl hw hh evenW evenH hrem
  | get => exact framerInv_of_body (.inr rfl) rfl hw hh evenW evenH hrem
  | _ => exact hi

/-- `OUT`: `FR.HDRW` writes the header, `FR.PUT` four bytes (R89). -/
theorem outInv (hf : FramerInv s) (hi : OutInv s) (he : Effect i s t) : OutInv t := by
  have ⟨hempty, htx, _⟩ := hi
  cases he with
  | headerOut w h is mode =>
    refine outInv_of_tx (body := []) rfl (framed_startBody .tx w h (streamPut (Framer.header w h) s)) ?_ rfl
    change s.out ++ Framer.header w h = Framer.header w h ++ []
    rw [hempty (.inl mode), List.nil_append, List.append_nil]
  | put q is mode w bytes encoded =>
    obtain ⟨body, hout, hbody⟩ := htx mode
    have hfour : bytes.length = 4 := by rw [(Prod.mk.inj (Codec.encode_ok encoded).2).2, Codec.toBytes_length]
    refine outInv_of_tx (body := body ++ bytes) rfl (framed_countCodeword (s := streamPut bytes s) hf (.inl mode) .tx) ?_ ?_
    · change s.out ++ bytes = Framer.header s.frW s.frH ++ (body ++ bytes)
      rw [hout, List.append_assoc]
    · rw [List.length_append, hbody, hfour]
      rfl
  | headerIn w h rest is mode => exact outInv_of_rx rfl (hempty (.inl mode))
  | get q is mode => exact outInv_of_rx rfl (hempty (.inr mode))
  | _ => exact hi

/-- `IN`: `FR.HDRR` takes the header, `FR.GET` four bytes (R61, R65). -/
theorem inInv (hs : s.fault = 0#3) (hf : FramerInv s) (hi : InInv s) (he : Effect i s t) : InInv t := by
  have ⟨hpos, hidle, hrx⟩ := hi
  cases he with
  | faulted e => exact inInv_of_fault e.code_ne_zero hpos
  | truncated => exact inInv_of_fault ErrorKind.truncatedStreamError.code_ne_zero (inPos_add_truncatedTake_le hpos _)
  | headerOut => exact inInv_of_tx rfl hpos
  | put => exact inInv_of_tx rfl hpos
  | headerIn w h rest is mode scanned =>
    have hzero := hidle mode hs
    obtain ⟨htext, -⟩ := Framer.scanHeader_ok scanned
    obtain ⟨hmoved, hinside⟩ := inPos_of_scanHeader scanned
    rw [hzero, Nat.zero_add] at hmoved hinside
    rw [remaining, hzero, List.drop_zero] at htext
    rw [hmoved]
    exact inInv_of_rx rfl (framed_startBody .rx w h s) hinside ⟨rest, htext.symm⟩ rfl
  | get q is mode decoded =>
    obtain ⟨hheader, hstands⟩ := hrx mode hs
    obtain ⟨hstate, hinside⟩ := streamGet_of_decode decoded
    rw [hstate]
    refine inInv_of_rx rfl (framed_countCodeword (s := s) hf (.inr mode) .rx) hinside hheader ?_
    change s.inPos + 4 = (Framer.header s.frW s.frH).length + 4 * (framed s + 1)
    rw [hstands, Nat.mul_succ, Nat.add_assoc]
  | _ => exact hi

theorem responseInv (hs : s.fault = 0#3) (he : Effect i s t) : ResponseInv t := by
  cases he with
  | faulted | truncated => exact responseInv_of_no_result rfl
  | freed | headerOut | put => exact responseInv_completing hs
  | delivered | created | written | headerIn | get => exact responseInv_delivering hs _

theorem machineInv (hs : s.fault = 0#3) (hi : MachineInv s) (hwf : i.wf s.cfg = true) (he : Effect i s t) :
    MachineInv t where
  fault := he.faultInv hi.fault
  grids := he.gridsInv hi.grids
  framer := he.framerInv hi.framer hwf
  out := he.outInv hi.framer hi.out
  input := he.inInv hs hi.framer hi.input
  response := he.responseInv hs

end Effect

/-! ### The machine -/

section

variable {s t : State}

/-- Only the invariant of the response speaks of the result ports, and none of the host's actions. -/
theorem MachineInv.setHost_setResponse (hi : MachineInv s) (l : List HostAction) {r : Option Response}
    (hr : ResponseInv (s.setResponse r)) : MachineInv ((s.setHost l).setResponse r) :=
  ⟨hi.fault, hi.grids, hi.framer, hi.out, hi.input, hr⟩

theorem exec_machineInv {i : Instr} (hi : MachineInv s) (hwf : i.wf s.cfg = true) (h : exec i s = .next t) :
    MachineInv t := by
  obtain ⟨-, rfl⟩ | ⟨hs, he⟩ := exec_next h
  · exact hi.setHost_setResponse s.host (responseInv_of_no_result rfl)
  · exact he.machineInv hs hi hwf

/-- The invariants hold where every piece of state has its reset value (R43), whatever the host still has to do. -/
theorem assertReset_machineInv (s : State) (input : List Byte) : MachineInv (assertReset s input) where
  fault := Nat.zero_le _
  grids := ⟨Memory.wf_nil, nofun⟩
  framer := framerInv_of_idle rfl rfl rfl rfl
  out := outInv_of_idle rfl rfl
  input := inInv_of_idle rfl rfl
  response := responseInv_of_none rfl

end

/-- Settles O56: a wait and the taking of a command empty the result ports, a reset restores the values of R43, and an
operation keeps each invariant by its effect. -/
theorem everyStepKeepsTheInvariants : Obligations.EveryStepKeepsTheInvariants := by
  intro s t hi h
  have hports : ResponseInv (s.setResponse none) := responseInv_of_none rfl
  obtain ⟨-, rfl⟩ | ⟨input, rest, -, rfl⟩ | ⟨c, rest, i, -, -, hwf, hexec⟩ := step_cases h
  · exact hi.setHost_setResponse s.host hports
  · exact assertReset_machineInv _ input
  · exact exec_machineInv (hi.setHost_setResponse rest hports) hwf hexec

/-- Settles O57, from what the invariant of `OUT` says in `DONE`. -/
theorem committedOutputIsAWholeStream : Obligations.CommittedOutputIsAWholeStream := by
  intro s hi hc
  refine ⟨s.out, if_pos hc, ?_⟩
  obtain ⟨-, -, hdone⟩ := hi.out
  refine (hdone hc.1).imp_right fun ⟨body, hout, hbody⟩ => ⟨body, hout, ?_⟩
  rw [hout, List.length_append, Framer.header_length, hbody, Framer.blockCount]

end Sys2Proof.Machine
end

section
/-! PROOFS. The text of the header: what each part of it comes to in the reader (R86 to R88), what `FR.HDRR` then does
(R236), and the codec's reader of four bytes (R224). -/

namespace Sys2Proof.Machine

namespace Framer

/-! ### Numerals (R87) -/

theorem IsDigit.range {b : Byte} (h : IsDigit b) : 0x30 ≤ b.toNat ∧ b.toNat ≤ 0x39 := by
  obtain ⟨d, hd, rfl⟩ := h
  rw [digit_toNat hd]
  omega

theorem dec_ne_nil (n : Nat) : dec n ≠ [] := by
  obtain ⟨-, -, d, ds, hdec, -, -⟩ := dec_spec n
  simp [hdec]

/-- A numeral that begins with the digit 0 is the one digit of the number 0. -/
theorem dec_eq_zero_of_head {n : Nat} (h : (dec n).head? = some 0x30#8) : n = 0 ∧ dec n = [0x30#8] := by
  obtain ⟨-, -, d, ds, hdec, hd, hzero⟩ := dec_spec n
  rw [hdec, List.head?_cons, Option.some.injEq] at h
  have hd0 : d = 0 := by
    have hval := digit_toNat hd
    rw [h] at hval
    simpa using hval.symm
  obtain ⟨hn, rfl⟩ := hzero hd0
  exact ⟨hn, by rw [hdec, h]⟩

/-! ### The reader where a numeral departs from the grammar (R88) -/

section Departures

variable {bound : Nat} {bs : List Byte}

/-- Where a numeral must stand: after no digit, or after a numeral, a byte that is neither a digit nor the ending byte of
the numeral. -/
theorem scanNumeral_wrong_byte {ending b : Byte} {ds : List Byte} (hds : ds = [] ∨ ∃ n, ds = dec n)
    (hb : ¬ (0x30 ≤ b.toNat ∧ b.toNat ≤ 0x39)) (hne : ds = [] ∨ b ≠ ending) (rest : List Byte) :
    scanNumeral ending bound (ds ++ b :: rest) = .format := by
  have hvalue : digitValue b = none := if_neg hb
  obtain rfl | ⟨n, rfl⟩ := hds
  · exact scanNumeral_first hvalue rest
  · exact scanNumeral_dec_wrong hvalue (hne.resolve_left (dec_ne_nil n)) n rest

theorem scanNumeral_tooWide {ending : Byte} {n : Nat} (he : digitValue ending = none) (hn : bound ≤ n) (rest : List Byte) :
    scanNumeral ending bound (dec n ++ ending :: rest) = .refused .numeralTooWide := by
  rw [scanNumeral_dec he, closeNumeral, if_neg hn.not_gt]

theorem scanHeader_format_at_width (h : scanNumeral space bound bs = .format) : scanHeader bound (line1 ++ bs) = .format := by
  rw [scanHeader_line1, h]; rfl

theorem scanHeader_refused_at_width {r : Refusal} (h : scanNumeral space bound bs = .refused r) :
    scanHeader bound (line1 ++ bs) = .refused r := by
  rw [scanHeader_line1, h]; rfl

variable {w : Nat} (hw : w < bound)
include hw

theorem scanHeader_format_at_height (h : scanNumeral newline bound bs = .format) :
    scanHeader bound (line1 ++ dec w ++ space :: bs) = .format := by
  rw [List.append_assoc, scanHeader_width hw, h]; rfl

theorem scanHeader_refused_at_height {r : Refusal} (h : scanNumeral newline bound bs = .refused r) :
    scanHeader bound (line1 ++ dec w ++ space :: bs) = .refused r := by
  rw [List.append_assoc, scanHeader_width hw, h]; rfl

end Departures

end Framer

/-! ### `FR.HDRR` by what the reader comes to (R236) -/

/-- The reader read the dimensions that `FR.HDRR` delivers. -/
theorem Effect.scanned_of_dims {s t : State} {w h : Nat} (he : Effect .frHdrr s t)
    (hr : t.response = some ⟨0#3, some (.dims w h)⟩) :
    ∃ rest, Framer.scanHeader (2 ^ s.cfg.dimBits) (remaining s) = .ok (w, h) rest := by
  cases he with
  | headerIn w h rest is mode scanned =>
    cases hr
    exact ⟨rest, scanned⟩
  | delivered r pure => exact nomatch pure.1
  | _ => simp at hr

/-- Settles O45: dimensions are delivered only as the reader's, which accepts the writer's text alone. -/
theorem headerReadAcceptsNothingElse : Obligations.HeaderReadAcceptsNothingElse := by
  intro s t w h hs hexec hresponse
  obtain ⟨rest, scanned⟩ := (exec_effect hs hexec).scanned_of_dims hresponse
  obtain ⟨htext, hw, hh, evenW, evenH⟩ := Framer.scanHeader_ok scanned
  exact ⟨evenW, evenH, hw, hh, rest, htext.symm⟩

section

variable {s : State} {bs : List Byte} (hs : s.fault = 0#3) (hmode : s.frMode = .idle) (hbs : remaining s = bs)
include hs hmode hbs

theorem exec_frHdrr_of_truncated (h : Framer.scanHeader (2 ^ s.cfg.dimBits) bs = .truncated) :
    exec .frHdrr s = raiseTruncated s := by
  rw [exec, execFrHdrr, issue_running hs, Framer.inMode_pos hmode, hbs, h]

theorem exec_frHdrr_of_format (h : Framer.scanHeader (2 ^ s.cfg.dimBits) bs = .format) :
    exec .frHdrr s = .next (s.faulting .formatError) := by
  rw [exec, execFrHdrr, issue_running hs, Framer.inMode_pos hmode, hbs, h]
  exact raise_running hs _

theorem exec_frHdrr_of_refused {r : Refusal} (h : Framer.scanHeader (2 ^ s.cfg.dimBits) bs = .refused r) :
    exec .frHdrr s = .refused r := by
  rw [exec, execFrHdrr, issue_running hs, Framer.inMode_pos hmode, hbs, h]

end

theorem exec_frHdrr_of_not_idle {s : State} (hs : s.fault = 0#3) (hmode : s.frMode ≠ .idle) :
    exec .frHdrr s = .refused (.wrongFramerMode s.frMode) := by
  rw [exec, execFrHdrr, issue_running hs, Framer.inMode_neg hmode]

/-- Raising `TruncatedStreamError` in a running block moves `IN.pos` and takes the fault (R65, R280). -/
theorem raiseTruncated_running {s : State} (hs : s.fault = 0#3) :
    ∃ pos, raiseTruncated s =
      .next (((s.setInPos pos).setFreeCount (s.freeCount + 1)).faulting .truncatedStreamError) :=
  ⟨_, raise_running (by simpa using hs) _⟩

/-- Settles O46: the reader's answer to each text, by where the text departs from the grammar. -/
theorem headerReadFaultsByTheFirstDeparture : Obligations.HeaderReadFaultsByTheFirstDeparture := by
  intro s hs hmode
  refine ⟨fun w h k hw hk hin => ?_, fun k b rest hk hb hin => ?_, fun ds b rest hds hb => ⟨fun hne hin => ?_, ?_⟩⟩
  · obtain ⟨pos, hraise⟩ := raiseTruncated_running hs
    exact ⟨_, (exec_frHdrr_of_truncated hs hmode hin (Framer.scanHeader_take hw hk)).trans hraise, rfl, rfl, hmode, rfl⟩
  · exact exec_frHdrr_of_format hs hmode hin (Framer.scanHeader_wrong_line hk hb rest)
  · rw [List.append_assoc] at hin
    exact exec_frHdrr_of_format hs hmode hin
      (Framer.scanHeader_format_at_width (Framer.scanNumeral_wrong_byte hds hb hne rest))
  · intro w hw hne hin
    exact exec_frHdrr_of_format hs hmode hin
      (Framer.scanHeader_format_at_height hw (Framer.scanNumeral_wrong_byte hds hb hne rest))

/-- Settles O47: the reader's refusal of each text, at either numeral or after both, and the refusal of the mode. -/
theorem headerReadRefusesWhatHasNoMeaning : Obligations.HeaderReadRefusesWhatHasNoMeaning := by
  intro s hs
  refine ⟨fun hmode => ⟨fun c rest hc hc' => ⟨fun hin => ?_, fun w hw hin => ?_⟩,
    fun n rest hn => ⟨fun hin => ?_, fun w hw hin => ?_⟩, fun w h rest hw hh hodd hin => ?_⟩,
    exec_frHdrr_of_not_idle hs⟩
  · exact exec_frHdrr_of_refused hs hmode hin
      (Framer.scanHeader_refused_at_width (Framer.scanNumeral_leadingZero hc hc' rest))
  · exact exec_frHdrr_of_refused hs hmode hin
      (Framer.scanHeader_refused_at_height hw (Framer.scanNumeral_leadingZero hc hc' rest))
  · rw [List.append_assoc] at hin
    exact exec_frHdrr_of_refused hs hmode hin
      (Framer.scanHeader_refused_at_width (Framer.scanNumeral_tooWide Framer.digitValue_space hn rest))
  · exact exec_frHdrr_of_refused hs hmode hin
      (Framer.scanHeader_refused_at_height hw (Framer.scanNumeral_tooWide Framer.digitValue_newline hn rest))
  · exact exec_frHdrr_of_refused hs hmode hin ((Framer.scanHeader_header hw hh rest).trans (if_pos hodd))

/-- Settles O41, from what a numeral is made of. -/
theorem headerTextIsItsLineAndShortestNumerals : Obligations.HeaderTextIsItsLineAndShortestNumerals := by
  refine ⟨rfl, fun _ _ => rfl, fun n => ?_⟩
  obtain ⟨hdigits, hvalue, -⟩ := Framer.dec_spec n
  exact ⟨Framer.dec_ne_nil n, fun b hb => (hdigits b hb).range, Framer.dec_eq_zero_of_head, hvalue⟩

/-! ### `CW.DEC` (R224, R225) -/

section

variable {s : State} (hs : s.fault = 0#3)
include hs

theorem exec_cwDec_four (b0 b1 b2 b3 : Byte) : exec (.cwDec [b0, b1, b2, b3]) s =
    .next (s.delivering (.quantized (Codec.unpacked (Codec.ofBytes b0 b1 b2 b3)))) := by
  rw [exec, execCwDec, issue_running hs, Codec.decode_four]
  exact deliver_running hs _

theorem exec_cwDec_short {bs : List Byte} (h : bs.length < 4) :
    exec (.cwDec bs) s = .next (s.faulting .truncatedStreamError) := by
  rw [exec, execCwDec, issue_running hs, Codec.decode_short h]
  exact raise_running hs _

end

/-- Settles O39: four bytes unpack to a block that fits a codeword, and fewer are a truncated stream. -/
theorem decodingIsTotalOnFourBytes : Obligations.DecodingIsTotalOnFourBytes := fun _ hs =>
  ⟨fun b0 b1 b2 b3 => ⟨_, exec_cwDec_four hs b0 b1 b2 b3, Codec.unpacked_fits _⟩, fun _ => exec_cwDec_short hs⟩

end Sys2Proof.Machine
end

section
/-! PROOFS. The encoding of operations (30_encoding.md Part B): the decoder by the row its code selects, and that it
undoes the encoder. -/

namespace Sys2Proof

theorem decode_of_reserved {c : Command} (h : opOfCode c.op = none) : decode c = .error (.reservedOp c.op) := by
  rw [decode, h]

/-- The code the encoder gives an operation selects that operation (R100). -/
theorem opOfCode_codeOfOp (op : Op) : opOfCode (codeOfOp op) = some op := by
  cases op <;> rfl

/-- The decoder reads an operation's operands from the ports of its format (R96, R100). -/
theorem decode_codeOfOp (op : Op) (p : Ports) : decode ⟨codeOfOp op, p⟩ = .ok (readPorts p op) := by
  rw [decode, opOfCode_codeOfOp]

/-- Each operand is read from the port it was written to (R96). -/
theorem readPorts_writePorts (i : Instr) : readPorts (writePorts i) i.op = i := by
  cases i <;> rfl

/-- Settles O8: the code selects the operation, and the ports give its operands back. -/
theorem decodingAnEncodedInstructionGivesItBack : Obligations.DecodingAnEncodedInstructionGivesItBack := by
  intro i
  calc decode (encode i) = .ok (readPorts (writePorts i) i.op) := decode_codeOfOp i.op (writePorts i)
    _ = .ok i := by rw [readPorts_writePorts]

/-- Settles O9: each code selects its row, whose format names the operands. -/
theorem tableWordsDecodeToTheirOperations : Obligations.TableWordsDecodeToTheirOperations := fun p =>
  ⟨decode_codeOfOp .bfFitsu p, decode_codeOfOp .bfNews p, decode_codeOfOp .gridNew p, decode_codeOfOp .gridFree p,
    decode_codeOfOp .cscInv p, decode_codeOfOp .btFwd p, decode_codeOfOp .qDequant p, decode_codeOfOp .cwEnc p,
    decode_codeOfOp .frHdrr p⟩

namespace Machine

/-- A command with a reserved code has no successor (R101). -/
theorem present_of_reserved {c : Command} (h : opOfCode c.op = none) (s : State) :
    present c s = .stop (.reservedOp c.op) := by
  rw [present, decode_of_reserved h]

/-- Settles O4: the fetch stops at a reserved code, whatever the state; the codes are counted over the table. -/
theorem reservedCodesAreRefused : Obligations.ReservedCodesAreRefused := by
  refine ⟨fun s c rest hhost hreserved => ?_, by decide +kernel⟩
  rw [step, fetch_issue hhost, present_of_reserved hreserved]

end Machine

end Sys2Proof
end

section
/-! PROOFS. The BitField unit (40_bitfield.md): when its operations deliver and when they fault, what a setter inserts
whatever the word, and from that the laws of insertion and extraction. -/

namespace Sys2Proof.Machine

/-! ### What a running block answers -/

section

variable {s : State} (hs : s.fault = 0#3)
include hs

/-- A result delivered is the result computed. -/
theorem finish_delivers_iff {r : Except ErrorKind Result} {v : Result} :
    finish r s = .next (s.delivering v) ↔ r = .ok v := by
  refine ⟨fun h => ?_, fun h => by rw [h, finish_ok, deliver_running hs]⟩
  obtain ⟨v', hr, ht⟩ | ⟨e, -, ht⟩ := finish_next hs h
  · have hv : v = v' := by simpa using congrArg State.response ht
    rw [hr, hv]
  · simpa using congrArg State.response ht

/-- A fault taken is the error computed (R280). -/
theorem finish_faults_iff {r : Except ErrorKind Result} {e : ErrorKind} :
    finish r s = .next (s.faulting e) ↔ r = .error e := by
  refine ⟨fun h => ?_, fun h => by rw [h, finish_error, raise_running hs]⟩
  obtain ⟨v, -, ht⟩ | ⟨e', hr, ht⟩ := finish_next hs h
  · simpa using congrArg State.response ht
  · rw [hr, ErrorKind.code_injective (congrArg State.fault ht)]

theorem finish_value_delivers_iff {r : Except ErrorKind Word} {v : Word} :
    finish (r.map .value) s = .next (s.delivering (.value v)) ↔ r = .ok v := by
  rw [finish_delivers_iff hs]
  cases r <;> simp [Except.map]

theorem finish_word_delivers_iff {r : Except ErrorKind Word} {w : Word} :
    finish (r.map .word) s = .next (s.delivering (.word w)) ↔ r = .ok w := by
  rw [finish_delivers_iff hs]
  cases r <;> simp [Except.map]

theorem finish_map_faults_iff {α : Type} {r : Except ErrorKind α} {result : α → Result} {e : ErrorKind} :
    finish (r.map result) s = .next (s.faulting e) ↔ r = .error e := by
  rw [finish_faults_iff hs]
  cases r <;> simp [Except.map]

variable (word value : Word) (width lsb : Nat)

theorem exec_bfFitsu : exec (.bfFitsu value width) s =
    finish (BitField.checked width 0 (.ok (.fits (BitField.fitsUnsigned value width)))) s := issue_running hs _

theorem exec_bfFitss : exec (.bfFitss value width) s =
    finish (BitField.checked width 0 (.ok (.fits (BitField.fitsSigned value width)))) s := issue_running hs _

theorem exec_bfGetu : exec (.bfGetu word width lsb) s =
    finish ((BitField.getUnsigned word width lsb).map .value) s := issue_running hs _

theorem exec_bfGets : exec (.bfGets word width lsb) s =
    finish ((BitField.getSigned word width lsb).map .value) s := issue_running hs _

theorem exec_bfNewu : exec (.bfNewu word width lsb value) s =
    finish ((BitField.setUnsigned word width lsb value).map .word) s := issue_running hs _

theorem exec_bfNews : exec (.bfNews word width lsb value) s =
    finish ((BitField.setSigned word width lsb value).map .word) s := issue_running hs _

end

namespace BitField

/-! ### Fitting (R112, R113) -/

theorem fitsUnsigned_iff_le {value : Word} {width : Nat} (h : width ≤ 64) :
    fitsUnsigned value width = true ↔ value.toNat ≤ 2 ^ width - 1 := by
  rw [fitsUnsigned_iff_lt h, ← Nat.le_sub_one_iff_lt (Nat.two_pow_pos width)]

theorem fitsSigned_zero {value : Word} : FitsSigned value 0 ↔ value.toInt = 0 := by simp [FitsSigned]

theorem fitsSigned_pos {value : Word} {width : Nat} (h : 0 < width) :
    FitsSigned value width ↔ -(2 ^ (width - 1) : Int) ≤ value.toInt ∧ value.toInt ≤ 2 ^ (width - 1) - 1 := by
  rw [FitsSigned, if_neg h.ne']

/-- Which numbers near the signed range of at most 63 bits fit it; the numbers one beyond it are still `i64`s (R126). -/
theorem fitsSigned_ofInt {width : Nat} (hpos : 0 < width) (h : width ≤ 63) {x : Int}
    (hlow : -(2 ^ (width - 1) : Int) - 1 ≤ x) (hhigh : x ≤ 2 ^ (width - 1)) :
    FitsSigned (BitVec.ofInt 64 x) width ↔ -(2 ^ (width - 1) : Int) ≤ x ∧ x ≤ 2 ^ (width - 1) - 1 := by
  have hpow : (2 ^ (width - 1) : Int) ≤ 2 ^ 62 := pow_le_pow_right₀ (by norm_num) (by omega)
  rw [fitsSigned_pos hpos, toInt_ofInt_of_range (by omega) (by omega)]

/-! ### What a setter inserts (R116, R117) -/

/-- The setter `set` puts the bits `p` into the field for `value`, whatever the word. -/
structure Inserts (set : Word → Nat → Nat → Word → Except ErrorKind Word) (width lsb : Nat) (value p : Word) : Prop where
  inRange : width + lsb ≤ 64
  fits : p.toNat < 2 ^ width
  bits : ∀ i, i < width → p.getLsbD i = value.getLsbD i
  set_eq : ∀ word, set word width lsb value = .ok (insertField word width lsb p)

theorem setUnsigned_inserts {width lsb : Nat} {value : Word} (h : width + lsb ≤ 64) (hv : value.toNat < 2 ^ width) :
    Inserts setUnsigned width lsb value value :=
  ⟨h, hv, fun _ _ => rfl, fun _ => setUnsigned_ok.2 ⟨h, hv, rfl⟩⟩

theorem setSigned_inserts {width lsb : Nat} {value : Word} (h : width + lsb ≤ 64) (hv : FitsSigned value width) :
    Inserts setSigned width lsb value (pattern value width) :=
  ⟨h, pattern_fits (by omega), fun _ => pattern_getLsbD (by omega), fun _ => setSigned_ok.2 ⟨h, hv, rfl⟩⟩

/-- A setter that delivers a word has inserted bits that depend on the value alone. -/
theorem inserts_of_ok {set : Word → Nat → Nat → Word → Except ErrorKind Word}
    (hset : set = setUnsigned ∨ set = setSigned) {word value r : Word} {width lsb : Nat}
    (h : set word width lsb value = .ok r) :
    ∃ p, Inserts set width lsb value p ∧ r = insertField word width lsb p := by
  obtain rfl | rfl := hset
  · obtain ⟨hrange, hv, hr⟩ := setUnsigned_ok.1 h
    exact ⟨_, setUnsigned_inserts hrange hv, hr⟩
  · obtain ⟨hrange, hv, hr⟩ := setSigned_ok.1 h
    exact ⟨_, setSigned_inserts hrange hv, hr⟩

namespace Inserts

variable {set : Word → Nat → Nat → Word → Except ErrorKind Word} {width lsb : Nat} {value p : Word}

/-- The word after an insertion, bit by bit (R116). -/
theorem getLsbD (hins : Inserts set width lsb value p) (word : Word) {i : Nat} (hi : i < 64) :
    (insertField word width lsb p).getLsbD i =
      if lsb ≤ i ∧ i < lsb + width then value.getLsbD (i - lsb) else word.getLsbD i := by
  rw [insertField_getLsbD hins.inRange hins.fits hi]
  split_ifs with hfield
  · exact hins.bits _ (by omega)
  · rfl

/-- A field that does not overlap the inserted one is extracted as before (R127). -/
theorem getUnsigned_of_disjoint (hins : Inserts set width lsb value p) {w l : Nat} (hl : w + l ≤ 64)
    (hd : l + w ≤ lsb ∨ lsb + width ≤ l) (word : Word) :
    getUnsigned (insertField word width lsb p) w l = getUnsigned word w l := by
  rw [getUnsigned_pos hl, getUnsigned_pos hl, fieldOf_insertField_of_disjoint hins.inRange hins.fits hd hl]

end Inserts

/-- Insertions into fields that do not overlap commute (R127). -/
theorem insertField_comm {w1 l1 w2 l2 : Nat} {p1 p2 : Word} (h1 : w1 + l1 ≤ 64) (h2 : w2 + l2 ≤ 64)
    (hp1 : p1.toNat < 2 ^ w1) (hp2 : p2.toNat < 2 ^ w2) (hd : l1 + w1 ≤ l2 ∨ l2 + w2 ≤ l1) (word : Word) :
    insertField (insertField word w1 l1 p1) w2 l2 p2 = insertField (insertField word w2 l2 p2) w1 l1 p1 := by
  refine BitVec.eq_of_getLsbD_eq fun i hi => ?_
  simp only [insertField_getLsbD h1 hp1 hi, insertField_getLsbD h2 hp2 hi]
  by_cases hfield : l1 ≤ i ∧ i < l1 + w1
  · rw [if_neg (by omega), if_pos hfield, if_pos hfield]
  · rw [if_neg hfield, if_neg hfield]

/-! ### Extraction after insertion (R124) -/

theorem getUnsigned_setUnsigned {word value r : Word} {width lsb : Nat} (h : setUnsigned word width lsb value = .ok r) :
    getUnsigned r width lsb = .ok value := by
  obtain ⟨hrange, hv, rfl⟩ := setUnsigned_ok.1 h
  rw [getUnsigned_pos hrange, fieldOf_insertField hrange hv, BitVec.ofNat_toNat, BitVec.setWidth_eq]

theorem getSigned_setSigned {word value r : Word} {width lsb : Nat} (h : setSigned word width lsb value = .ok r) :
    getSigned r width lsb = .ok value := by
  obtain ⟨hrange, hv, rfl⟩ := setSigned_ok.1 h
  have hwidth : width ≤ 64 := by omega
  rw [getSigned_pos hrange, fieldOf_insertField hrange (pattern_fits hwidth)]
  obtain rfl | hpos := Nat.eq_zero_or_pos width
  · have hzero : value = 0 := BitVec.eq_of_toInt_eq (fitsSigned_zero.1 hv)
    rw [if_pos rfl, hzero]
  · rw [if_neg hpos.ne', sext_pattern hpos hwidth hv, BitVec.ofInt_toInt]

end BitField

/-! ### The statements -/

open BitField

/-- Settles O12, from what the setters insert and when they overflow. -/
theorem insertionReplacesTheField : Obligations.InsertionReplacesTheField := by
  intro s word width lsb value hs
  simp only [exec_bfNewu hs, exec_bfNews hs, finish_word_delivers_iff hs, finish_map_faults_iff hs]
  refine ⟨fun hrange => ⟨fun hv => ?_, fun hv => ?_, fun hv => ?_, fun hv => ?_⟩, fun hrange => ⟨?_, ?_⟩⟩
  · have hins := setUnsigned_inserts hrange hv
    exact ⟨_, hins.set_eq word, fun _ => hins.getLsbD word⟩
  · exact setUnsigned_error.2 (.inr ⟨rfl, hrange, hv⟩)
  · have hins := setSigned_inserts hrange hv
    exact ⟨_, hins.set_eq word, fun _ => hins.getLsbD word⟩
  · exact setSigned_error.2 (.inr ⟨rfl, hrange, hv⟩)
  · exact setUnsigned_error.2 (.inl ⟨rfl, hrange⟩)
  · exact setSigned_error.2 (.inl ⟨rfl, hrange⟩)

/-- Settles O16: both orders insert the same bits, and neither insertion touches the other's field. -/
theorem disjointInsertionsCommute : Obligations.DisjointInsertionsCommute := by
  intro set1 set2 hset1 hset2 word a b w1 l1 w2 l2 v1 v2 hd ha hb
  obtain ⟨p1, hins1, rfl⟩ := inserts_of_ok hset1 ha
  obtain ⟨p2, hins2, rfl⟩ := inserts_of_ok hset2 hb
  have hcomm := insertField_comm hins1.inRange hins2.inRange hins1.fits hins2.fits hd word
  refine ⟨_, hins2.set_eq _, ?_, hins2.getUnsigned_of_disjoint hins1.inRange hd _, ?_⟩
  · rw [hins1.set_eq, hcomm]
  · rw [hcomm, hins1.getUnsigned_of_disjoint hins2.inRange hd.symm]

/-- Settles O15: each boundary value is a word of 64 bits, so it stands for itself in the test of the range. -/
theorem overflowBoundaryOfTheSetters : Obligations.OverflowBoundaryOfTheSetters := by
  intro s word width lsb hs hrange
  simp only [exec_bfNewu hs, exec_bfNews hs, finish_word_delivers_iff hs, finish_map_faults_iff hs]
  refine ⟨fun hwidth => setUnsigned_error.2 (.inr ⟨rfl, hrange, ?_⟩),
    ⟨_, (setUnsigned_inserts hrange ?_).set_eq word⟩, fun hpos hwidth => ?_⟩
  · rw [BitVec.toNat_ofNat, Nat.mod_eq_of_lt (Nat.pow_lt_pow_right (by norm_num) hwidth)]
  · have hpow := Nat.two_pow_pos width
    have hlast : 2 ^ width - 1 < 2 ^ 64 := (Nat.sub_one_lt hpow.ne').trans_le (two_pow_le_64 (by omega))
    rw [BitVec.toNat_ofNat, Nat.mod_eq_of_lt hlast]
    omega
  · have hhalf : (0 : Int) < 2 ^ (width - 1) := by positivity
    refine ⟨⟨_, (setSigned_inserts hrange ?_).set_eq word⟩, ⟨_, (setSigned_inserts hrange ?_).set_eq word⟩,
      setSigned_error.2 (.inr ⟨rfl, hrange, ?_⟩), setSigned_error.2 (.inr ⟨rfl, hrange, ?_⟩)⟩ <;>
    · rw [fitsSigned_ofInt hpos hwidth (by omega) (by omega)]
      omega

/-- Settles O13: the getter undoes the setter. -/
theorem extractionAfterInsertionGivesTheValue : Obligations.ExtractionAfterInsertionGivesTheValue := by
  intro s t word r width lsb value hs
  rw [exec_bfNewu hs, exec_bfNews hs, finish_word_delivers_iff hs, finish_word_delivers_iff hs]
  refine ⟨fun hset ht => ?_, fun hset ht => ?_⟩
  · rw [exec_bfGetu ht, finish_value_delivers_iff ht]
    exact getUnsigned_setUnsigned hset
  · rw [exec_bfGets ht, finish_value_delivers_iff ht]
    exact getSigned_setSigned hset

/-- Settles O14, from the bits of the word after either insertion. -/
theorem insertionLeavesOtherBitsAlone : Obligations.InsertionLeavesOtherBitsAlone := by
  intro s word r width lsb value hs hexec i hi houtside
  rw [exec_bfNewu hs, exec_bfNews hs, finish_word_delivers_iff hs, finish_word_delivers_iff hs] at hexec
  obtain ⟨set, p, hins, rfl⟩ : ∃ set p, Inserts set width lsb value p ∧ r = insertField word width lsb p :=
    hexec.elim (fun h => ⟨_, inserts_of_ok (.inl rfl) h⟩) (fun h => ⟨_, inserts_of_ok (.inr rfl) h⟩)
  rw [hins.getLsbD word hi, if_neg (by omega)]

/-- Settles O11: the getters read the field, which as a number is a quotient's remainder. -/
theorem extractionDeliversTheField : Obligations.ExtractionDeliversTheField := by
  intro s word width lsb hs
  simp only [exec_bfGetu hs, exec_bfGets hs, finish_value_delivers_iff hs, finish_map_faults_iff hs, ← fieldOf_eq]
  refine ⟨fun hrange => ⟨_, _, getUnsigned_pos hrange word, getUnsigned_toNat hrange word, getSigned_pos hrange word, ?_⟩,
    fun hrange => ⟨checked_neg hrange _, checked_neg hrange _⟩⟩
  by_cases hwidth : width = 0
  · rw [if_pos hwidth, if_pos hwidth]
    rfl
  · rw [if_neg hwidth, if_neg hwidth]
    exact sext_toInt (by omega) (by omega) (fieldOf_lt ..)

/-- Settles O10: the parameter check passes the predicate's answer up to width 64 and no further. -/
theorem fitsPredicatesTestTheRange : Obligations.FitsPredicatesTestTheRange := by
  intro s value width hs
  simp only [exec_bfFitsu hs, exec_bfFitss hs, finish_delivers_iff hs, finish_faults_iff hs]
  refine ⟨fun hwidth => ⟨_, _, checked_pos hwidth _, fitsUnsigned_iff_le hwidth, checked_pos hwidth _, ?_⟩,
    fun hwidth => ⟨checked_neg hwidth _, checked_neg hwidth _⟩⟩
  rw [fitsSigned_iff]
  obtain rfl | hpos := Nat.eq_zero_or_pos width
  · simp [fitsSigned_zero]
  · simp [fitsSigned_pos hpos, hpos, hpos.ne']

end Sys2Proof.Machine
end

section
/-! PROOFS. The blocked layout (20_memory.md rules R54 to R56): a slot index as a storage block and a slot inside it, the
order of the slots, and that the traversal lists the valid positions in that order (R146, R150, R151). -/

namespace Sys2Proof.Machine.Grid

/-! ### Numbers in mixed radix -/

theorem mixed_lt_mixed {n x x' y y' : Nat} (hx : x < n) (h : y < y' ∨ y = y' ∧ x < x') : y * n + x < y' * n + x' := by
  obtain hy | ⟨rfl, hlt⟩ := h
  · calc y * n + x < (y + 1) * n := by rw [Nat.add_one_mul]; omega
      _ ≤ y' * n := Nat.mul_le_mul_right n hy
      _ ≤ y' * n + x' := Nat.le_add_right _ _
  · omega

theorem mixed_injective {n x x' y y' : Nat} (hx : x < n) (hx' : x' < n) (h : y * n + x = y' * n + x') :
    y = y' ∧ x = x' := by
  obtain hy | rfl | hy := lt_trichotomy y y'
  · exact absurd h (mixed_lt_mixed hx (.inl hy)).ne
  · exact ⟨rfl, Nat.add_left_cancel h⟩
  · exact absurd h (mixed_lt_mixed hx' (.inl hy)).ne'

theorem mixed_div {n x : Nat} (hx : x < n) (y : Nat) : (y * n + x) / n = y :=
  Nat.div_eq_of_lt_le (Nat.le_add_right _ _) (by rw [Nat.add_one_mul]; omega)

/-! ### The slot index by storage block and slot inside it (R55) -/

/-- The storage block of a position, numbered in row-major order. -/
def blockIndex (d : Grid) (p : Nat × Nat) : Nat := p.2 / d.blockSize * d.blocksWide + p.1 / d.blockSize

/-- The slot of a position inside its storage block. -/
def slotInBlock (d : Grid) (p : Nat × Nat) : Nat := p.2 % d.blockSize * d.blockSize + p.1 % d.blockSize

/-- The slot of `p` comes before the slot of `q`. -/
def SlotBefore (d : Grid) (p q : Nat × Nat) : Prop := d.slotIndex p.1 p.2 < d.slotIndex q.1 q.2

theorem slotIndex_eq (d : Grid) (p : Nat × Nat) :
    d.slotIndex p.1 p.2 = d.blockIndex p * (d.blockSize * d.blockSize) + d.slotInBlock p := by
  rw [slotIndex, blockIndex, slotInBlock, Nat.mul_assoc, Nat.add_assoc]

/-- Inside a storage block the slots go row by row (R55). -/
theorem slotBefore_within_block {d : Grid} {bc br c r c' r' : Nat} (hc : c < d.blockSize) (hr : r < d.blockSize)
    (hc' : c' < d.blockSize) (hr' : r' < d.blockSize) (h : r < r' ∨ r = r' ∧ c < c') :
    d.SlotBefore (bc * d.blockSize + c, br * d.blockSize + r) (bc * d.blockSize + c', br * d.blockSize + r') := by
  rw [SlotBefore, slotIndex_eq, slotIndex_eq]
  simp only [blockIndex, slotInBlock, mixed_div, hc, hr, hc', hr', Nat.mul_add_mod_of_lt]
  exact Nat.add_lt_add_left (mixed_lt_mixed hc h) _

theorem blockPositions_pairwise (d : Grid) (bc br : Nat) : (d.blockPositions bc br).Pairwise d.SlotBefore := by
  refine List.pairwise_flatMap.2 ⟨fun r hr => ?_, List.pairwise_lt_range.imp_of_mem fun hr hr' hlt p hp q hq => ?_⟩
  · refine (List.pairwise_map.2 (List.pairwise_lt_range.imp_of_mem fun hc hc' hlt => ?_)).filter _
    rw [List.mem_range] at hr hc hc'
    exact slotBefore_within_block hc hr hc' hr (.inr ⟨rfl, hlt⟩)
  · simp only [List.mem_filter, List.mem_map, List.mem_range] at hr hr' hp hq
    obtain ⟨⟨c, hc, rfl⟩, -⟩ := hp
    obtain ⟨⟨c', hc', rfl⟩, -⟩ := hq
    exact slotBefore_within_block hc hr hc' hr' (.inl hlt)

section

variable {d : Grid} (hb : 0 < d.blockSize) {p q : Nat × Nat}
include hb

theorem slotInBlock_lt (p : Nat × Nat) : d.slotInBlock p < d.blockSize * d.blockSize :=
  mixed_lt_mixed (x' := 0) (Nat.mod_lt _ hb) (.inl (Nat.mod_lt _ hb))

theorem slotBefore_of_block (h : d.blockIndex p < d.blockIndex q) : d.SlotBefore p q := by
  rw [SlotBefore, slotIndex_eq, slotIndex_eq]
  exact mixed_lt_mixed (slotInBlock_lt hb p) (.inl h)

theorem SlotBefore.blockIndex_le (h : d.SlotBefore p q) : d.blockIndex p ≤ d.blockIndex q :=
  Nat.le_of_not_lt fun hlt => Nat.lt_asymm h (slotBefore_of_block hb hlt)

theorem blockIndex_lt (hp : p.1 < d.width) (h : p.2 / d.blockSize < q.2 / d.blockSize ∨
      p.2 / d.blockSize = q.2 / d.blockSize ∧ p.1 / d.blockSize < q.1 / d.blockSize) :
    d.blockIndex p < d.blockIndex q :=
  mixed_lt_mixed (div_lt_ceilDiv hb hp) h

theorem block_eq_of_blockIndex_eq (hp : p.1 < d.width) (hq : q.1 < d.width) (h : d.blockIndex p = d.blockIndex q) :
    p.2 / d.blockSize = q.2 / d.blockSize ∧ p.1 / d.blockSize = q.1 / d.blockSize :=
  mixed_injective (div_lt_ceilDiv hb hp) (div_lt_ceilDiv hb hq) h

/-- Valid positions with one slot index are one position (R151): the index gives the storage block and the slot inside it,
and these give the quotients and the remainders of the coordinates. -/
theorem slotIndex_injective (hp : p.1 < d.width) (hq : q.1 < d.width) (h : d.slotIndex p.1 p.2 = d.slotIndex q.1 q.2) :
    p = q := by
  rw [slotIndex_eq, slotIndex_eq] at h
  obtain ⟨hblock, hslot⟩ := mixed_injective (slotInBlock_lt hb p) (slotInBlock_lt hb q) h
  obtain ⟨hrowDiv, hcolDiv⟩ := block_eq_of_blockIndex_eq hb hp hq hblock
  obtain ⟨hrowMod, hcolMod⟩ := mixed_injective (Nat.mod_lt p.1 hb) (Nat.mod_lt q.1 hb) hslot
  exact Prod.ext (Nat.ext_div_mod hcolDiv hcolMod) (Nat.ext_div_mod hrowDiv hrowMod)

/-! ### The traversal (R146) -/

theorem mem_blockPositions {bc br : Nat} : p ∈ d.blockPositions bc br ↔
    (p.1 / d.blockSize = bc ∧ p.2 / d.blockSize = br) ∧ p.1 < d.width ∧ p.2 < d.height := by
  simp only [blockPositions, List.mem_flatMap, List.mem_filter, List.mem_map, List.mem_range, inBounds_iff]
  constructor
  · rintro ⟨r, hr, ⟨c, hc, rfl⟩, hin⟩
    exact ⟨⟨mixed_div hc bc, mixed_div hr br⟩, hin⟩
  · rintro ⟨⟨rfl, rfl⟩, hin⟩
    exact ⟨_, Nat.mod_lt _ hb, ⟨_, Nat.mod_lt _ hb, Prod.ext (Nat.div_add_mod' ..) (Nat.div_add_mod' ..)⟩, hin⟩

/-- The traversal lists the valid positions and no others. -/
theorem mem_traversal : p ∈ d.traversal ↔ p.1 < d.width ∧ p.2 < d.height := by
  simp only [traversal, List.mem_flatMap, List.mem_range, mem_blockPositions hb]
  constructor
  · rintro ⟨br, -, bc, -, -, hin⟩
    exact hin
  · intro hin
    exact ⟨_, div_lt_ceilDiv hb hin.2, _, div_lt_ceilDiv hb hin.1, ⟨rfl, rfl⟩, hin⟩

/-- The traversal goes in the order of the slots: storage blocks in row-major order, then the slots of a block (D17). -/
theorem traversal_pairwise : d.traversal.Pairwise d.SlotBefore := by
  refine List.pairwise_flatMap.2 ⟨fun br _ => List.pairwise_flatMap.2 ⟨fun bc _ => blockPositions_pairwise d bc br,
    List.pairwise_lt_range.imp fun hlt p hp q hq => ?_⟩, List.pairwise_lt_range.imp fun hlt p hp q hq => ?_⟩
  · obtain ⟨⟨rfl, hrow⟩, hin⟩ := (mem_blockPositions hb).1 hp
    obtain ⟨⟨rfl, rfl⟩, -⟩ := (mem_blockPositions hb).1 hq
    exact slotBefore_of_block hb (blockIndex_lt hb hin.1 (.inr ⟨hrow, hlt⟩))
  · obtain ⟨bc, -, hp⟩ := List.mem_flatMap.1 hp
    obtain ⟨bc', -, hq⟩ := List.mem_flatMap.1 hq
    obtain ⟨⟨-, rfl⟩, hin⟩ := (mem_blockPositions hb).1 hp
    obtain ⟨⟨-, rfl⟩, -⟩ := (mem_blockPositions hb).1 hq
    exact slotBefore_of_block hb (blockIndex_lt hb hin.1 (.inl hlt))

theorem traversal_nodup : d.traversal.Nodup := (traversal_pairwise hb).imp <| by
  rintro p _ h rfl
  exact Nat.lt_irrefl _ h

theorem traversal_slotBefore {i j : Nat} (hij : i < j) (hi : d.traversal[i]? = some p) (hj : d.traversal[j]? = some q) :
    d.SlotBefore p q := by
  obtain ⟨hilen, rfl⟩ := List.getElem?_eq_some_iff.1 hi
  obtain ⟨hjlen, rfl⟩ := List.getElem?_eq_some_iff.1 hj
  exact List.pairwise_iff_getElem.1 (traversal_pairwise hb) i j hilen hjlen hij

/-- A visit between two visits of one storage block is in that block (R150), since the slots of a block are consecutive. -/
theorem traversal_between {i j k : Nat} {r : Nat × Nat} (hij : i < j) (hjk : j < k) (hi : d.traversal[i]? = some p)
    (hj : d.traversal[j]? = some q) (hk : d.traversal[k]? = some r)
    (h : p.1 / d.blockSize = r.1 / d.blockSize ∧ p.2 / d.blockSize = r.2 / d.blockSize) :
    q.1 / d.blockSize = p.1 / d.blockSize ∧ q.2 / d.blockSize = p.2 / d.blockSize := by
  have hpq := (traversal_slotBefore hb hij hi hj).blockIndex_le hb
  have hqr := (traversal_slotBefore hb hjk hj hk).blockIndex_le hb
  have hpr : d.blockIndex p = d.blockIndex r := by rw [blockIndex, blockIndex, h.1, h.2]
  have hp := (mem_traversal hb).1 (List.mem_of_getElem? hi)
  have hq := (mem_traversal hb).1 (List.mem_of_getElem? hj)
  exact (block_eq_of_blockIndex_eq hb hq.1 hp.1 (by omega)).symm

end

/-- The number of storage blocks of a dimension is the quotient rounded up (R36, R54). -/
theorem ceilDiv_eq_ceil {b : Nat} (hb : 0 < b) (a : Nat) : ceilDiv a b = ⌈(a : ℚ) / b⌉₊ := by
  refine eq_of_forall_ge_iff fun c => ?_
  have hq : (0 : ℚ) < b := by exact_mod_cast hb
  rw [Nat.ceil_le, div_le_iff₀ hq, ceilDiv, ← Nat.lt_add_one_iff, Nat.div_lt_iff_lt_mul hb, Nat.add_one_mul]
  norm_cast
  omega

end Sys2Proof.Machine.Grid
end

section
/-! PROOFS. The default blocking factor (R142). -/

namespace Sys2Proof.Machine

/-- The digits found so far are a root of `n` to within the digits still to come. -/
theorem isqrtBits_spec {k n s : Nat} (hlow : s * s ≤ n) (hhigh : n < (s + 2 ^ k) * (s + 2 ^ k)) :
    isqrtBits k n s = n.sqrt := by
  induction k generalizing s with
  | zero => exact Nat.eq_sqrt.2 ⟨hlow, hhigh⟩
  | succ k ih =>
    rw [isqrtBits]
    split
    · rename_i hbit
      exact ih hbit (by rwa [pow_succ, Nat.mul_two, ← Nat.add_assoc] at hhigh)
    · rename_i hbit
      exact ih hlow (Nat.lt_of_not_le hbit)

theorem isqrt_eq_sqrt (n : Nat) : isqrt n = n.sqrt := by
  refine isqrtBits_spec (Nat.zero_le n) ?_
  calc n < 2 ^ (n.log2 + 1) := Nat.lt_log2_self
    _ ≤ 2 ^ ((n.log2 / 2 + 1) + (n.log2 / 2 + 1)) := Nat.pow_le_pow_right (by norm_num) (by omega)
    _ = (0 + 2 ^ (n.log2 / 2 + 1)) * (0 + 2 ^ (n.log2 / 2 + 1)) := by rw [Nat.zero_add, pow_add]

/-- D0's formula in integers: a factor is within the root exactly when its block fits in 64 KiB (R142). -/
theorem le_isqrt_div_iff {es : Nat} (hes : 0 < es) (b : Nat) : b ≤ isqrt (65536 / es) ↔ b * b * es ≤ 65536 := by
  rw [isqrt_eq_sqrt, Nat.le_sqrt, Nat.le_div_iff_mul_le hes]

theorem defaultBlocking_fits {es : Nat} (hes : 0 < es) :
    defaultBlocking es * defaultBlocking es * es ≤ 65536 ∨ defaultBlocking es = 1 := by
  rw [defaultBlocking]
  obtain hmax | hmax := max_choice 1 (isqrt (65536 / es)) <;> rw [hmax]
  · exact .inr rfl
  · exact .inl ((le_isqrt_div_iff hes _).1 le_rfl)

theorem lt_block_of_defaultBlocking_lt {es b : Nat} (hes : 0 < es) (h : defaultBlocking es < b) : 65536 < b * b * es :=
  Nat.lt_of_not_le fun hfits => Nat.not_le_of_lt h (((le_isqrt_div_iff hes b).2 hfits).trans (le_max_right _ _))

end Sys2Proof.Machine
end

section
/-! PROOFS. The BlockedGrid unit (41_blockedgrid.md): what its operations come to in a running block, and the statements. -/

namespace Sys2Proof.Machine

/-- The handle an operation takes (R96), if it takes one. -/
def handleOf : Instr → Option Handle
  | .gridAtRd g _ _ => some g
  | .gridAtWr g _ _ _ => some g
  | .gridForeach g => some g
  | .gridWidth g => some g
  | .gridHeight g => some g
  | .gridEsize g => some g
  | .gridBsize g => some g
  | .gridFree g => some g
  | _ => none

/-- The next handle is not live, since every live handle is below it (R141). -/
theorem find_nextHandle {s : State} (hi : GridsInv s) : Store.find s.nextHandle s.grids = none :=
  Option.eq_none_iff_forall_ne_some.2 fun _ hd => Nat.lt_irrefl _ (hi.2 _ (Store.mem_of_find hd))

/-- A live grid has a positive blocking factor (R141). -/
theorem GridsInv.blockSize_pos {s : State} (hi : GridsInv s) {g : Handle} {d : Grid} (hd : Store.find g s.grids = some d) :
    0 < d.blockSize := by
  obtain ⟨-, -, hb, -⟩ := Grid.wf_iff.1 (Memory.wf_find hi.1 hd)
  exact hb

section

variable {s : State} (hs : s.fault = 0#3)
include hs

/-! ### Creation -/

theorem exec_gridNew (w h es bs : Nat) : exec (.gridNew w h es bs) s =
    if es = 0 ∨ bs = 0 then raise .invalidArgument s else newGrid w h es bs s := by
  rw [exec, execGridNew, issue_running hs]

theorem exec_gridNewdef (w h es : Nat) : exec (.gridNewdef w h es) s =
    if es = 0 then raise .invalidArgument s else newGrid w h es (defaultBlocking es) s := by
  rw [exec, execGridNewdef, issue_running hs]

theorem newGrid_running (w h es bs : Nat) : newGrid w h es bs s =
    .next (((s.setGrids (Store.insert s.nextHandle ⟨w, h, es, bs, []⟩ s.grids)).setNextHandle
      (s.nextHandle + 1)).delivering (.grid s.nextHandle)) := deliver_running (by simpa using hs) _

/-! ### Operations on a handle -/

/-- Every operation that takes a handle is refused when the handle is not live (R140). -/
theorem exec_deadHandle {g : Handle} (hd : Store.find g s.grids = none) {i : Instr} (hi : handleOf i = some g) :
    exec i s = .refused (.deadHandle g) := by
  cases i with
  | gridAtRd | gridAtWr | gridForeach | gridWidth | gridHeight | gridEsize | gridBsize | gridFree =>
    cases hi
    simp only [exec, execGridAtRd, execGridAtWr, execGridForeach, execGridWidth, execGridHeight, execGridEsize,
      execGridBsize, execGridFree, queryGrid, issue_running hs, withLive_none hd]
  | _ => cases hi

/-- A released grid is dead to every operation on its handle (R148). -/
theorem exec_released {g : Handle} {i : Instr} (hi : handleOf i = some g) :
    exec i (s.setGrids (Store.erase g s.grids)).completing = .refused (.deadHandle g) :=
  exec_deadHandle (by simpa using hs) (Store.find_erase_self g s.grids) hi

variable {g : Handle} {d : Grid} (hd : Store.find g s.grids = some d)
include hd

theorem exec_gridAtRd_written {col row : Nat} (hin : d.inBounds col row = true) {e : Elem}
    (hread : d.memRead col row = some e) : exec (.gridAtRd g col row) s = .next (s.delivering (.elem e)) := by
  rw [exec, execGridAtRd, issue_running hs, withLive_some hd, if_pos hin, hread]
  exact deliver_running hs _

theorem exec_gridAtRd_unwritten {col row : Nat} (hin : d.inBounds col row = true) (hread : d.memRead col row = none) :
    exec (.gridAtRd g col row) s = .refused .unwrittenSlot := by
  rw [exec, execGridAtRd, issue_running hs, withLive_some hd, if_pos hin, hread]

theorem exec_gridAtRd_outOfBounds {col row : Nat} (hout : d.inBounds col row = false) :
    exec (.gridAtRd g col row) s = .next (s.faulting .rangeError) := by
  rw [exec, execGridAtRd, issue_running hs, withLive_some hd, hout]
  exact raise_running hs _

theorem exec_gridAtWr {col row : Nat} (hin : d.inBounds col row = true) (e : Elem) : exec (.gridAtWr g col row e) s =
    .next ((s.setGrids (Store.insert g (d.memWrite col row e) s.grids)).delivering (.grid g)) := by
  rw [exec, execGridAtWr, issue_running hs, withLive_some hd, if_pos hin]
  exact deliver_running (by simpa using hs) _

theorem exec_gridAtWr_outOfBounds {col row : Nat} (hout : d.inBounds col row = false) (e : Elem) :
    exec (.gridAtWr g col row e) s = .next (s.faulting .rangeError) := by
  rw [exec, execGridAtWr, issue_running hs, withLive_some hd, hout]
  exact raise_running hs _

theorem exec_gridForeach : exec (.gridForeach g) s = .next (s.delivering (.seq d.traversal)) := by
  rw [exec, execGridForeach, issue_running hs, withLive_some hd, deliver_running hs]

theorem issue_queryGrid (field : Grid → Nat) :
    issue s (queryGrid g field) = .next (s.delivering (.n (field d))) := by
  rw [issue_running hs, queryGrid, withLive_some hd, deliver_running hs]

theorem exec_gridFree : exec (.gridFree g) s = .next (s.setGrids (Store.erase g s.grids)).completing := by
  rw [exec, execGridFree, issue_running hs, withLive_some hd]
  exact complete_running hs

end

/-! ### The statements -/

/-- Settles O17: the grid is put at the next handle. -/
theorem gridNewCreatesAFreshUnwrittenGrid : Obligations.GridNewCreatesAFreshUnwrittenGrid := by
  intro s w h es bs hs
  rw [exec_gridNew hs]
  refine ⟨fun hzero => ?_, fun hes hbs => ⟨s.nextHandle, _, (if_neg (by omega)).trans (newGrid_running hs w h es bs), rfl,
    Store.find_insert_self _ _ _, find_nextHandle, fun g' hne => Store.find_insert_of_ne hne _ _, rfl, ?_⟩⟩
  · rw [if_pos hzero, raise_running hs]
  · rw [← Grid.ceilDiv_eq_ceil hbs, ← Grid.ceilDiv_eq_ceil hbs]
    rfl

/-- Settles O18: the factor is the root of 65536 over the element size, or 1. -/
theorem defaultBlockingIsTheLargestThatFits : Obligations.DefaultBlockingIsTheLargestThatFits := by
  intro s w h es hs
  rw [exec_gridNewdef hs]
  refine ⟨fun hzero => by rw [if_pos hzero, raise_running hs], fun hes => ?_⟩
  have hpos := defaultBlocking_pos es
  rw [if_neg hes.ne']
  refine ⟨defaultBlocking es, _, ?_, newGrid_running hs .., hs, hpos, defaultBlocking_fits hes,
    fun b => lt_block_of_defaultBlocking_lt hes⟩
  rw [exec_gridNew hs, if_neg (by omega)]

/-- Settles O20: the written slot reads as the element, and every other valid position has another slot. -/
theorem gridWriteChangesOnePosition : Obligations.GridWriteChangesOnePosition := by
  intro s g col row e hs hi
  refine ⟨fun hdead => exec_deadHandle hs hdead rfl, fun d hd =>
    ⟨fun hout => exec_gridAtWr_outOfBounds hs hd (Grid.inBounds_eq_false.2 hout) e, fun hcol hrow =>
      ⟨_, d.memWrite col row e, exec_gridAtWr hs hd (Grid.inBounds_iff.2 ⟨hcol, hrow⟩) e, rfl,
        Store.find_insert_self _ _ _, ⟨rfl, rfl, rfl, rfl⟩, Grid.memRead_memWrite_self .., fun c r hc _ hne => ?_,
        fun g' hne => Store.find_insert_of_ne hne _ _⟩⟩⟩
  exact Grid.memRead_memWrite_of_ne _ _ _ _ fun hslot =>
    hne (Grid.slotIndex_injective (hi.blockSize_pos hd) (p := (c, r)) (q := (col, row)) hc hcol hslot)

/-- Settles O21, from the bound of a slot index and from what it determines. -/
theorem slotIndexIsInjectiveAndInsideTheStore : Obligations.SlotIndexIsInjectiveAndInsideTheStore := fun _ hb =>
  ⟨fun _ _ hcol hrow => Grid.slotIndex_lt hb hcol hrow, fun c r c' r' hc _ hc' _ hslot =>
    Prod.mk.inj (Grid.slotIndex_injective hb (p := (c, r)) (q := (c', r')) hc hc' hslot)⟩

/-- Settles O22: the traversal lists the valid positions in the order of their slots, so without repetition. -/
theorem traversalVisitsEveryPositionOnce : Obligations.TraversalVisitsEveryPositionOnce := by
  intro s g d hs hd hb
  refine ⟨d.traversal, exec_gridForeach hs hd, fun col row => ?_, fun i j k p q r => Grid.traversal_between hb⟩
  simp only [(Grid.traversal_nodup hb).count, Grid.mem_traversal hb]

/-- Settles O23, from the order of the traversal. -/
theorem traversalGoesInSlotOrder : Obligations.TraversalGoesInSlotOrder := fun _ _ d hs hd hb =>
  ⟨d.traversal, exec_gridForeach hs hd, Grid.traversal_pairwise hb⟩

/-- Settles O25: the handle is erased, so every operation that takes it finds it dead. -/
theorem freeEndsTheLifeOfAGrid : Obligations.FreeEndsTheLifeOfAGrid := by
  intro s g hs
  refine ⟨fun hdead => exec_deadHandle hs hdead rfl, fun d hd => ?_⟩
  have hdead {i : Instr} := exec_released hs (g := g) (i := i)
  exact ⟨_, exec_gridFree hs hd, rfl, Store.find_erase_self _ _, fun g' hne => Store.find_erase_of_ne hne _,
    fun _ _ _ => ⟨hdead rfl, hdead rfl⟩, hdead rfl, hdead rfl, hdead rfl, hdead rfl, hdead rfl, hdead rfl⟩

/-- Settles O19, by the slot of the position. -/
theorem gridReadDeliversTheWrittenElement : Obligations.GridReadDeliversTheWrittenElement := by
  intro s g col row hs
  refine ⟨fun hdead => exec_deadHandle hs hdead rfl, fun d hd =>
    ⟨fun hout => exec_gridAtRd_outOfBounds hs hd (Grid.inBounds_eq_false.2 hout), fun hcol hrow => ?_⟩⟩
  have hin := Grid.inBounds_iff.2 ⟨hcol, hrow⟩
  exact ⟨fun e => exec_gridAtRd_written hs hd hin, exec_gridAtRd_unwritten hs hd hin⟩

/-- Settles O24: each query delivers its field of the descriptor. -/
theorem queriesDeliverTheDescriptor : Obligations.QueriesDeliverTheDescriptor := fun _ _ hs =>
  ⟨fun _ hd => ⟨issue_queryGrid hs hd _, issue_queryGrid hs hd _, issue_queryGrid hs hd _, issue_queryGrid hs hd _⟩,
    fun hdead => ⟨exec_deadHandle hs hdead rfl, exec_deadHandle hs hdead rfl, exec_deadHandle hs hdead rfl,
      exec_deadHandle hs hdead rfl⟩⟩

end Sys2Proof.Machine
end

section
/-! PROOFS. The color and block transforms under `EXACT`: the formulas they come to, the ranges of those, and the color
round trip (R160 to R167, R186). -/

namespace Sys2Proof.Machine

/-! ### The operators of `F` under `EXACT` round nothing (R15) -/

section Exact

variable (x y : FVal)

@[simp] theorem lit_exact : lit .exact x = some x := rfl

@[simp] theorem i2f_exact (n : ℕ) : i2f .exact n = some (n : FVal) := by simp [i2f]

@[simp] theorem fadd_exact : fadd .exact x y = some (x + y) := rfl

@[simp] theorem fsub_exact : fsub .exact x y = some (x - y) := rfl

@[simp] theorem fmul_exact : fmul .exact x y = some (x * y) := rfl

@[simp] theorem fdiv_exact : fdiv .exact x y = some (x / y) := rfl

end Exact

/-! ### The block transform -/

namespace BlockTransform

theorem forward_exact (p1 p2 p3 p4 : ColorPixel) : forward .exact p1 p2 p3 p4 = some
    ⟨(p1.y + p2.y + p3.y + p4.y) / 4, (p4.y + p3.y - p2.y - p1.y) / 4, (p4.y - p3.y + p2.y - p1.y) / 4,
      (p4.y - p3.y - p2.y + p1.y) / 4, (p1.pb + p2.pb + p3.pb + p4.pb) / 4, (p1.pr + p2.pr + p3.pr + p4.pr) / 4⟩ := by
  simp [forward, mean4]

theorem inverse_exact (co : BlockCoefficients) : inverse .exact co = some
    (⟨co.a - co.b - co.c + co.d, co.pbAvg, co.prAvg⟩, ⟨co.a - co.b + co.c - co.d, co.pbAvg, co.prAvg⟩,
      ⟨co.a + co.b - co.c - co.d, co.pbAvg, co.prAvg⟩, ⟨co.a + co.b + co.c + co.d, co.pbAvg, co.prAvg⟩) := by
  simp [inverse, lumas]

end BlockTransform

/-! ### The color transform -/

namespace ColorSpace

/-- R160 under `EXACT`, of the three fractions of the denominator. -/
def exactTriple (r g b : ℚ) : ColorPixel :=
  ⟨299 / 1000 * r + 587 / 1000 * g + 114 / 1000 * b,
    1 / 2 * b - 168736 / 1000000 * r - 331264 / 1000000 * g,
    1 / 2 * r - 418688 / 1000000 * g - 81312 / 1000000 * b⟩

/-- A channel of R162 under `EXACT`: clamped, scaled, rounded. -/
def exactChannel (x : ℚ) (den : ℕ) : ℕ := ⌊max 0 (min 1 x) * den + 1 / 2⌋₊

/-- R162 under `EXACT`. -/
def exactPixel (cp : ColorPixel) (den : ℕ) : Pixel :=
  ⟨exactChannel (cp.y + 1402 / 1000 * cp.pr) den,
    exactChannel (cp.y - 344136 / 1000000 * cp.pb - 714136 / 1000000 * cp.pr) den,
    exactChannel (cp.y + 1772 / 1000 * cp.pb) den⟩

theorem forward_exact (px : Pixel) (den : ℕ) :
    forward .exact px den = some (exactTriple (px.red / den) (px.green / den) (px.blue / den)) := by
  simp only [forward, sum3, diff3, lit_exact, i2f_exact, fadd_exact, fsub_exact, fmul_exact, fdiv_exact,
    Option.bind_eq_bind, Option.bind_some, Option.pure_def, exactTriple]
  norm_num

theorem channel_exact (x : FVal) (den : ℕ) : channel .exact x den = some (exactChannel x den) := by
  have hmem := (clamp_mem (lo := 0) (hi := 1) zero_le_one x).1
  simp only [channel, fmul_exact, Option.bind_eq_bind, Option.bind_some, Option.pure_def]
  rw [roundHaz_of_nonneg (by positivity), Int.floor_toNat, clamp_eq zero_le_one]
  rfl

theorem inverse_exact (cp : ColorPixel) (den : ℕ) : inverse .exact cp den = some (exactPixel cp den) := by
  simp only [inverse, lit_exact, i2f_exact, fadd_exact, fsub_exact, fmul_exact, channel_exact,
    Option.bind_eq_bind, Option.bind_some, Option.pure_def, exactPixel]
  norm_num

/-! ### A channel of the inverse -/

theorem fraction_mem {n den : ℕ} (hn : n ≤ den) : (0 : ℚ) ≤ n / den ∧ (n : ℚ) / den ≤ 1 :=
  ⟨by positivity, div_le_one_of_le₀ (by exact_mod_cast hn) den.cast_nonneg⟩

theorem exactChannel_le (x : ℚ) (den : ℕ) : exactChannel x den ≤ den := by
  have hle : max 0 (min 1 x) * (den : ℚ) ≤ den :=
    mul_le_of_le_one_left den.cast_nonneg (max_le zero_le_one (min_le_left 1 x))
  exact Nat.lt_succ_iff.1 (Nat.floor_lt' den.succ_ne_zero |>.2 (by push_cast; linarith))

/-- The clamp brings a value no further from one of its own range. -/
theorem abs_clamp_sub_le {x f : ℚ} (h0 : 0 ≤ f) (h1 : f ≤ 1) : |max 0 (min 1 x) - f| ≤ |x - f| := by
  have hmax : |max 0 (min 1 x) - max 0 f| ≤ |min 1 x - f| := by simpa using abs_max_sub_max_le_max 0 (min 1 x) 0 f
  have hmin : |min 1 x - min 1 f| ≤ |x - f| := by simpa using abs_min_sub_min_le_max 1 x 1 f
  rw [max_eq_right h0] at hmax
  rw [min_eq_right h1] at hmin
  exact hmax.trans hmin

/-- A value nearer than half a step to a fraction of the denominator comes back as its numerator. -/
theorem exactChannel_eq {x : ℚ} {n den : ℕ} (h0 : 0 < den) (hn : n ≤ den) (h : |x - n / den| * den < 1 / 2) :
    exactChannel x den = n := by
  have hd : (0 : ℚ) < den := by exact_mod_cast h0
  obtain ⟨hf0, hf1⟩ := fraction_mem hn
  have hnear : |max 0 (min 1 x) * den - n| < 1 / 2 := by
    calc |max 0 (min 1 x) * den - n| = |(max 0 (min 1 x) - n / den) * den| := by rw [sub_mul, div_mul_cancel₀ _ hd.ne']
      _ = |max 0 (min 1 x) - n / den| * den := by rw [abs_mul, abs_of_pos hd]
      _ ≤ |x - n / den| * den := mul_le_mul_of_nonneg_right (abs_clamp_sub_le hf0 hf1) hd.le
      _ < 1 / 2 := h
  obtain ⟨hlo, hhi⟩ := abs_lt.1 hnear
  exact (Nat.floor_eq_iff (by positivity)).2 ⟨by linarith, by linarith⟩

/-! ### The range of the forward transform, and the round trip -/

/-- The coefficients of each row: the positive ones sum to 1, 1/2 and 1/2, the negative ones to 0, -1/2 and -1/2. -/
theorem exactTriple_range {r g b : ℚ} (hr : 0 ≤ r ∧ r ≤ 1) (hg : 0 ≤ g ∧ g ≤ 1) (hb : 0 ≤ b ∧ b ≤ 1) :
    0 ≤ (exactTriple r g b).y ∧ (exactTriple r g b).y ≤ 1 ∧
      -1 / 2 ≤ (exactTriple r g b).pb ∧ (exactTriple r g b).pb ≤ 1 / 2 ∧
      -1 / 2 ≤ (exactTriple r g b).pr ∧ (exactTriple r g b).pr ≤ 1 / 2 := by
  simp only [exactTriple]
  refine ⟨?_, ?_, ?_, ?_, ?_, ?_⟩ <;> linarith

/-- A difference within the bound of R167 is below half a step for every denominator up to 434027. -/
theorem exactChannel_eq_of_close {x : ℚ} {n den : ℕ} (h0 : 0 < den) (hden : den ≤ 434027) (hn : n ≤ den)
    (h : |x - n / den| ≤ 1152 / 1000000000) : exactChannel x den = n := by
  refine exactChannel_eq h0 hn ?_
  have hd : (den : ℚ) ≤ 434027 := by exact_mod_cast hden
  calc |x - n / den| * den ≤ 1152 / 1000000000 * 434027 := by gcongr
    _ < 1 / 2 := by norm_num

/-- The product of the inverse matrix and the forward matrix is the identity, but for rows within that bound (R167). -/
theorem exactPixel_exactTriple {px : Pixel} {den : ℕ} (h0 : 0 < den) (hden : den ≤ 434027)
    (hr : px.red ≤ den) (hg : px.green ≤ den) (hb : px.blue ≤ den) :
    exactPixel (exactTriple (px.red / den) (px.green / den) (px.blue / den)) den = px := by
  obtain ⟨hr0, hr1⟩ := fraction_mem hr
  obtain ⟨hg0, hg1⟩ := fraction_mem hg
  obtain ⟨hb0, hb1⟩ := fraction_mem hb
  simp only [exactPixel, exactTriple]
  congr 1
  · exact exactChannel_eq_of_close h0 hden hr (abs_le.2 ⟨by linarith, by linarith⟩)
  · exact exactChannel_eq_of_close h0 hden hg (abs_le.2 ⟨by linarith, by linarith⟩)
  · exact exactChannel_eq_of_close h0 hden hb (abs_le.2 ⟨by linarith, by linarith⟩)

end ColorSpace

/-! ### The two operations under `EXACT` -/

section

variable {s : State} (hs : s.fault = 0#3)
include hs

theorem exec_cscFwd_outOfRange {px : Pixel} {den : ℕ} (h : den = 0 ∨ den < px.red ∨ den < px.green ∨ den < px.blue) :
    exec (.cscFwd px den) s = .refused .pixelOutsideRange := by
  rw [exec, execCscFwd, issue_running hs, if_neg (by rw [pixelInRange_iff]; omega)]

theorem exec_cscInv_zero (cp : ColorPixel) : exec (.cscInv cp 0) s = .refused .zeroDenominator := by
  rw [exec, execCscInv, issue_running hs, if_pos rfl]

variable (hnum : s.cfg.num = .exact) {den : ℕ} (h0 : 0 < den)
include hnum h0

theorem exec_cscFwd_exact {px : Pixel} (hr : px.red ≤ den) (hg : px.green ≤ den) (hb : px.blue ≤ den) :
    exec (.cscFwd px den) s =
      .next (s.delivering (.color (ColorSpace.exactTriple (px.red / den) (px.green / den) (px.blue / den)))) :=
  exec_cscFwd_of_forward hs (pixelInRange_iff.2 ⟨h0.ne', hr, hg, hb⟩) (hnum ▸ ColorSpace.forward_exact px den)

theorem exec_cscInv_exact (cp : ColorPixel) :
    exec (.cscInv cp den) s = .next (s.delivering (.pixel (ColorSpace.exactPixel cp den))) :=
  exec_cscInv_of_inverse hs h0.ne' (hnum ▸ ColorSpace.inverse_exact cp den)

end

/-! ### The statements -/

/-- Settles O27, by the formulas under `EXACT` and the bound of a channel. -/
theorem colorInverseDeliversThePixel : Obligations.ColorInverseDeliversThePixel := by
  intro s cp den hs
  refine ⟨fun hzero => hzero ▸ exec_cscInv_zero hs cp, fun h0 => ⟨fun px => exec_cscInv_of_inverse hs h0.ne',
    fun hnum => ⟨exec_cscInv_exact hs hnum h0 cp, ?_, ?_, ?_⟩⟩⟩ <;> exact ColorSpace.exactChannel_le _ den

/-- Settles O29: the product of the two matrices is near enough to the identity (R167). -/
theorem colorRoundTripIsExact : Obligations.ColorRoundTripIsExact := by
  intro s px den hs hnum h0 hden hr hg hb
  refine ⟨_, exec_cscFwd_exact hs hnum h0 hr hg hb, ?_⟩
  rw [exec_cscInv_exact hs hnum h0, ColorSpace.exactPixel_exactTriple h0 hden hr hg hb]

/-- Settles O26, by the formulas under `EXACT`. -/
theorem colorForwardDeliversTheTriple : Obligations.ColorForwardDeliversTheTriple := fun _ _ _ hs =>
  ⟨exec_cscFwd_outOfRange hs, fun h0 hr hg hb =>
    ⟨fun _ => exec_cscFwd_of_forward hs (pixelInRange_iff.2 ⟨h0.ne', hr, hg, hb⟩),
      fun hnum => exec_cscFwd_exact hs hnum h0 hr hg hb⟩⟩

/-- Settles O28: each range by the signs of its coefficients, the extremes and an inverse above the bound by example. -/
theorem transformsStayInTheirRanges : Obligations.TransformsStayInTheirRanges := by
  refine ⟨fun px den h0 hr hg hb => ⟨?_, ?_⟩, fun p1 p2 p3 p4 hy => ?_, fun bound => ?_⟩
  · exact ⟨_, ColorSpace.forward_exact px den, ColorSpace.exactTriple_range (ColorSpace.fraction_mem hr)
      (ColorSpace.fraction_mem hg) (ColorSpace.fraction_mem hb)⟩
  · have hone : (den : ℚ) / den = 1 := div_self (by exact_mod_cast h0.ne')
    refine ⟨_, _, _, _, _, ColorSpace.forward_exact _ _, ?_, ColorSpace.forward_exact _ _, ?_,
      ColorSpace.forward_exact _ _, ?_, ColorSpace.forward_exact _ _, ?_, ColorSpace.forward_exact _ _, ?_⟩ <;>
      norm_num [ColorSpace.exactTriple, hone]
  · refine ⟨_, BlockTransform.forward_exact p1 p2 p3 p4, ?_⟩
    simp only [List.forall_mem_cons, List.not_mem_nil, false_imp_iff, implies_true, and_true] at hy ⊢
    obtain ⟨⟨l1, u1⟩, ⟨l2, u2⟩, ⟨l3, u3⟩, l4, u4⟩ := hy
    refine ⟨by linarith, by linarith, ⟨⟨?_, ?_⟩, ⟨?_, ?_⟩, ?_, ?_⟩, fun hc => ?_⟩
    iterate 6 linarith
    obtain ⟨⟨lb1, ub1, lr1, ur1⟩, ⟨lb2, ub2, lr2, ur2⟩, ⟨lb3, ub3, lr3, ur3⟩, lb4, ub4, lr4, ur4⟩ := hc
    refine ⟨⟨?_, ?_⟩, ?_, ?_⟩ <;> linarith
  · exact ⟨⟨bound + 1, 0, 0, 0, 0, 0⟩, _, _, _, _, BlockTransform.inverse_exact _, by simp⟩

end Sys2Proof.Machine
end

section
/-! PROOFS. The block transform: its formulas (R180, R184), the inversion of its luma part under `EXACT` (R187), and the
detail of four equal pixels in every `NUM`. -/

namespace Sys2Proof.Machine

namespace BlockTransform

/-! ### The two transforms undo each other under `EXACT` (R187) -/

/-- The average of the four values of a chroma channel (R180). -/
def average (x1 x2 x3 x4 : ℚ) : ℚ := (x1 + x2 + x3 + x4) / 4

/-- An average equal to each of its values, said of the values alone. -/
theorem average_eq_each_iff {x1 x2 x3 x4 : ℚ} :
    (average x1 x2 x3 x4 = x1 ∧ average x1 x2 x3 x4 = x2 ∧ average x1 x2 x3 x4 = x3 ∧ average x1 x2 x3 x4 = x4) ↔
      x1 = x2 ∧ x2 = x3 ∧ x3 = x4 := by
  constructor
  · rintro ⟨h1, h2, h3, h4⟩
    exact ⟨h1.symm.trans h2, h2.symm.trans h3, h3.symm.trans h4⟩
  · rintro ⟨rfl, rfl, rfl⟩
    have h : average x1 x1 x1 x1 = x1 := by rw [average]; ring
    exact ⟨h, h, h, h⟩

/-- Four pixels with their own lumas, and with every chroma the average of the four. -/
def averageChroma (p1 p2 p3 p4 : ColorPixel) : ColorPixel × ColorPixel × ColorPixel × ColorPixel :=
  let pb := average p1.pb p2.pb p3.pb p4.pb
  let pr := average p1.pr p2.pr p3.pr p4.pr
  (⟨p1.y, pb, pr⟩, ⟨p2.y, pb, pr⟩, ⟨p3.y, pb, pr⟩, ⟨p4.y, pb, pr⟩)

theorem averageChroma_eq_self_iff {p1 p2 p3 p4 : ColorPixel} : averageChroma p1 p2 p3 p4 = (p1, p2, p3, p4) ↔
    (p1.pb = p2.pb ∧ p2.pb = p3.pb ∧ p3.pb = p4.pb) ∧ (p1.pr = p2.pr ∧ p2.pr = p3.pr ∧ p3.pr = p4.pr) := by
  have pixel {pb pr : ℚ} (p : ColorPixel) : (⟨p.y, pb, pr⟩ : ColorPixel) = p ↔ pb = p.pb ∧ pr = p.pr := by
    cases p
    simp
  simp only [averageChroma, Prod.mk.injEq, pixel, ← average_eq_each_iff]
  tauto

theorem inverse_forward_exact (p1 p2 p3 p4 : ColorPixel) :
    (forward .exact p1 p2 p3 p4 >>= inverse .exact) = some (averageChroma p1 p2 p3 p4) := by
  simp only [forward_exact, inverse_exact, Option.bind_eq_bind, Option.bind_some, averageChroma, average]
  congr <;> ring

theorem forward_inverse_exact (co : BlockCoefficients) :
    (inverse .exact co >>= fun q => forward .exact q.1 q.2.1 q.2.2.1 q.2.2.2) = some co := by
  simp only [forward_exact, inverse_exact, Option.bind_eq_bind, Option.bind_some]
  congr <;> ring

/-! ### Four equal lumas have no detail, in every `NUM` -/

section EqualLumas

variable {num : NumFormat} {y r : FVal}

theorem fsub_self (num : NumFormat) (x : FVal) : fsub num x x = some 0 := by rw [fsub, sub_self, roundF_zero]

/-- A quarter of a chain that can only come to 0 is 0. -/
theorem quarter_eq_zero {op₁ op₂ op₃ : FVal → FVal → Option FVal} {w x y z : FVal}
    (hchain : ∀ t, chain4 op₁ op₂ op₃ w x y z = some t → t = 0) (h : quarter num op₁ op₂ op₃ w x y z = some r) : r = 0 := by
  obtain ⟨t, ht, hr⟩ := Option.bind_eq_some_iff.1 h
  rw [hchain t ht, fdiv, zero_div, roundF_zero] at hr
  exact (Option.some.inj hr).symm

variable (hy : roundF num y = some y)
include hy

/-- The chain of `b`: the first sum is the double, which is not rounded, and the two differences take it back to 0. -/
theorem chain4_add_sub_sub_eq_zero {t : FVal} (h : chain4 (fadd num) (fsub num) (fsub num) y y y y = some t) : t = 0 := by
  obtain ⟨u, hu, ht⟩ := Option.bind_eq_some_iff.1 h
  obtain ⟨v, hv, hu⟩ := Option.bind_eq_some_iff.1 hu
  have hdouble : v = y + y := roundF_double hy hv
  have hback : u = y := by rwa [hdouble, fsub, add_sub_cancel_right, hy, Option.some.injEq, eq_comm] at hu
  rw [hback, fsub_self] at ht
  exact (Option.some.inj ht).symm

/-- The chain of `c`: down to 0, up to the value, down to 0. -/
theorem chain4_sub_add_sub : chain4 (fsub num) (fadd num) (fsub num) y y y y = some 0 := by
  have hup : fadd num 0 y = some y := by rw [fadd, zero_add, hy]
  simp [chain4, chain3, fsub_self, hup]

/-- The chain of `d`: down to 0, down to the negated value, up to 0. -/
theorem chain4_sub_sub_add : chain4 (fsub num) (fsub num) (fadd num) y y y y = some 0 := by
  have hdown : fsub num 0 y = some (-y) := by rw [fsub, zero_sub, roundF_neg, hy, Option.map_some]
  have hup : fadd num (-y) y = some 0 := by rw [fadd, neg_add_cancel, roundF_zero]
  simp [chain4, chain3, fsub_self, hdown, hup]

end EqualLumas

/-- The quarters that a completed forward transform delivers as its detail. -/
theorem detail_of_forward {num : NumFormat} {p1 p2 p3 p4 : ColorPixel} {co : BlockCoefficients}
    (h : forward num p1 p2 p3 p4 = some co) :
    quarter num (fadd num) (fsub num) (fsub num) p4.y p3.y p2.y p1.y = some co.b ∧
      quarter num (fsub num) (fadd num) (fsub num) p4.y p3.y p2.y p1.y = some co.c ∧
      quarter num (fsub num) (fsub num) (fadd num) p4.y p3.y p2.y p1.y = some co.d := by
  simp only [forward_eq, Option.bind_eq_bind, Option.bind_eq_some_iff, Option.pure_def, Option.some.injEq] at h
  obtain ⟨a, -, b, hb, c, hc, d, hd, pb, -, pr, -, rfl⟩ := h
  exact ⟨hb, hc, hd⟩

theorem forward_of_equal_lumas {num : NumFormat} {p : ColorPixel} {co : BlockCoefficients} (hy : roundF num p.y = some p.y)
    (h : forward num p p p p = some co) : co.b = 0 ∧ co.c = 0 ∧ co.d = 0 := by
  obtain ⟨hb, hc, hd⟩ := detail_of_forward h
  exact ⟨quarter_eq_zero (fun _ => chain4_add_sub_sub_eq_zero hy) hb,
    quarter_eq_zero (fun _ ht => by simpa [chain4_sub_add_sub hy, eq_comm] using ht) hc,
    quarter_eq_zero (fun _ ht => by simpa [chain4_sub_sub_add hy, eq_comm] using ht) hd⟩

end BlockTransform

/-! ### The forward operation -/

/-- A completed forward transform delivered what the rounded formulas give. -/
theorem forward_of_exec_btFwd {s t : State} {p1 p2 p3 p4 : ColorPixel} {co : BlockCoefficients} (hs : s.fault = 0#3)
    (h : exec (.btFwd p1 p2 p3 p4) s = .next t) (hco : t.response = some ⟨0#3, some (.coeffs co)⟩) :
    BlockTransform.forward s.cfg.num p1 p2 p3 p4 = some co := by
  rw [exec, execBtFwd, issue_running hs] at h
  obtain ⟨v, hv, rfl⟩ := finishF_next hs h
  obtain ⟨k, hk, rfl⟩ := Option.map_eq_some_iff.1 hv
  simp only [State.delivering_response, Option.some.injEq, Response.mk.injEq, Result.coeffs.injEq, true_and] at hco
  rw [hk, hco]

/-! ### The statements -/

/-- Settles O31: under `EXACT` each transform after the other comes to the identity, but for the averaged chromas. -/
theorem blockTransformIsInvertibleOnLuma : Obligations.BlockTransformIsInvertibleOnLuma := by
  intro p1 p2 p3 p4 co
  constructor
  · obtain ⟨k, hforward, hinverse⟩ := Option.bind_eq_some_iff.1 (BlockTransform.inverse_forward_exact p1 p2 p3 p4)
    refine ⟨k, _, _, _, _, hforward, hinverse, rfl, rfl, rfl, rfl, ?_, BlockTransform.averageChroma_eq_self_iff⟩
    simp [BlockTransform.average]
  · obtain ⟨⟨q1, q2, q3, q4⟩, hinverse, hforward⟩ := Option.bind_eq_some_iff.1 (BlockTransform.forward_inverse_exact co)
    exact ⟨q1, q2, q3, q4, co, hinverse, hforward, rfl⟩

/-- Settles O32: a presentable luma is a value of `F`, whose double is the only sum the detail could round. -/
theorem equalPixelsHaveNoDetail : Obligations.EqualPixelsHaveNoDetail := by
  intro s t p co hs hwf h hco
  simp only [Instr.wf, presentsColor, Bool.and_eq_true, isF_iff, and_self] at hwf
  obtain ⟨⟨hy, -⟩, -⟩ := hwf
  exact BlockTransform.forward_of_equal_lumas hy (forward_of_exec_btFwd hs h hco)

/-- Settles O30, by the formulas under `EXACT`. -/
theorem blockTransformDeliversItsFormulas : Obligations.BlockTransformDeliversItsFormulas := fun _ p1 p2 p3 p4 co hs =>
  ⟨fun _ => exec_btFwd_of_forward hs, fun _ => exec_btInv_of_inverse hs, fun hnum =>
    ⟨exec_btFwd_of_forward hs (hnum ▸ BlockTransform.forward_exact p1 p2 p3 p4),
      exec_btInv_of_inverse hs (hnum ▸ BlockTransform.inverse_exact co)⟩⟩

end Sys2Proof.Machine
end

section
/-! PROOFS. The quantizer and the dequantizer: completion and the declared ranges in every `NUM` (R203, R205), and under
`EXACT` the formulas of the two (R200, R205), the quantization error and the requantization of a block (R207). -/

namespace Sys2Proof.Machine

/-- An integer of either sign is a value of `F` under `EXACT`. -/
theorem i2f_exact_int (n : ℤ) : i2f .exact n = some (n : FVal) := rfl

namespace Quantizer

/-! ### The formulas under `EXACT` -/

/-- R200 for the luma mean: clamped to `[0, 1]`, scaled, rounded. -/
def exactA (a : ℚ) : ℤ := roundHaz (max 0 (min 1 a) * 511)

/-- R200 for a detail: clamped to `[-0.3, 0.3]`, scaled, rounded. -/
def exactBcd (x : ℚ) : ℤ := roundHaz (max (-3 / 10) (min (3 / 10) x) * 50)

/-- R200 for a block. -/
def exactBlock (c2i : FVal → Fin 16) (co : BlockCoefficients) : QuantizedBlock :=
  { a := BitVec.ofInt 64 (exactA co.a), b := BitVec.ofInt 64 (exactBcd co.b), c := BitVec.ofInt 64 (exactBcd co.c),
    d := BitVec.ofInt 64 (exactBcd co.d), indexPb := BitVec.ofNat 64 (c2i co.pbAvg),
    indexPr := BitVec.ofNat 64 (c2i co.prAvg) }

/-- R205 for a block. -/
def exactCoefficients (i2c : Fin 16 → FVal) (q : QuantizedBlock) (pb pr : Fin 16) : BlockCoefficients :=
  ⟨max 0 (min 1 (q.a.toNat / 511)), q.b.toInt / 50, q.c.toInt / 50, q.d.toInt / 50, i2c pb, i2c pr⟩

theorem quantA_exact (a : FVal) : quantA .exact a = some (exactA a) := by
  simp only [quantA, i2f_aScale, fmul_exact, Option.bind_eq_bind, Option.bind_some, Option.pure_def, exactA,
    clamp_eq zero_le_one]

theorem quantBcd_exact (x : FVal) : quantBcd .exact x = some (exactBcd x) := by
  have hbound : bcdClamp .exact = some (3 / 10) := by norm_num [bcdClamp]
  simp only [quantBcd, hbound, i2f_bcdScale, fmul_exact, Option.bind_eq_bind, Option.bind_some, Option.pure_def, exactBcd,
    clamp_eq (show -(3 / 10 : FVal) ≤ 3 / 10 by norm_num), neg_div]

theorem quantize_exact (c2i : FVal → Fin 16) (co : BlockCoefficients) :
    quantize .exact c2i co = some (exactBlock c2i co) := by
  simp only [quantize, quantA_exact, quantBcd_exact, Option.bind_eq_bind, Option.bind_some, Option.pure_def, exactBlock]

theorem dequantize_exact (i2c : Fin 16 → FVal) (q : QuantizedBlock) (pb pr : Fin 16) :
    dequantize .exact i2c q pb pr = some (exactCoefficients i2c q pb pr) := by
  simp only [dequantize, dequantA, dequantBcd, i2f_aScale, i2f_bcdScale, i2f_exact_int, fdiv_exact,
    Option.bind_eq_bind, Option.bind_some, Option.pure_def, exactCoefficients, clamp_eq zero_le_one, Int.cast_natCast]

/-! ### The fields of a quantized block -/

theorem exactA_mem (a : ℚ) : 0 ≤ exactA a ∧ exactA a ≤ 511 := by
  have hlo : 0 ≤ max 0 (min 1 a) := le_max_left 0 _
  have hhi : max 0 (min 1 a) ≤ 1 := max_le zero_le_one (min_le_left 1 a)
  exact roundHaz_mem (by push_cast; linarith) (by push_cast; linarith)

theorem exactBcd_mem (x : ℚ) : -15 ≤ exactBcd x ∧ exactBcd x ≤ 15 := by
  have hlo : -3 / 10 ≤ max (-3 / 10) (min (3 / 10) x) := le_max_left _ _
  have hhi : max (-3 / 10) (min (3 / 10) x) ≤ 3 / 10 := max_le (by norm_num) (min_le_left _ x)
  exact roundHaz_mem (by push_cast; linarith) (by push_cast; linarith)

theorem toInt_ofInt_exactA (a : ℚ) : (BitVec.ofInt 64 (exactA a)).toInt = exactA a := by
  obtain ⟨hlo, hhi⟩ := exactA_mem a
  exact toInt_ofInt_small (by omega) (by omega)

theorem toInt_ofInt_exactBcd (x : ℚ) : (BitVec.ofInt 64 (exactBcd x)).toInt = exactBcd x := by
  obtain ⟨hlo, hhi⟩ := exactBcd_mem x
  exact toInt_ofInt_small (by omega) (by omega)

/-! ### The quantization error (R207) -/

/-- Rounding at a scale is at most half a step of the scale away. -/
theorem abs_sub_roundHaz_div_le (x : ℚ) {k : ℚ} (hk : 0 < k) : |x - roundHaz (x * k) / k| ≤ 1 / (2 * k) := by
  calc |x - roundHaz (x * k) / k| = |x * k - roundHaz (x * k)| / k := by
        rw [← abs_of_pos hk, ← abs_div, abs_of_pos hk, sub_div, mul_div_cancel_right₀ _ hk.ne']
    _ ≤ 1 / 2 / k := div_le_div_of_nonneg_right (abs_sub_roundHaz_le _) hk.le
    _ = 1 / (2 * k) := div_div 1 2 k

theorem abs_sub_exactA_le {a : ℚ} (h0 : 0 ≤ a) (h1 : a ≤ 1) : |a - exactA a / 511| ≤ 1 / 1022 := by
  have herr := abs_sub_roundHaz_div_le a (k := 511) (by norm_num)
  rw [exactA, min_eq_right h1, max_eq_right h0]
  exact herr.trans_eq (by norm_num)

theorem abs_sub_exactBcd_le {x : ℚ} (h : |x| ≤ 3 / 10) : |x - exactBcd x / 50| ≤ 1 / 100 := by
  obtain ⟨hlo, hhi⟩ := abs_le.1 h
  have herr := abs_sub_roundHaz_div_le x (k := 50) (by norm_num)
  rw [exactBcd, min_eq_right hhi, max_eq_right (by linarith)]
  exact herr.trans_eq (by norm_num)

theorem exactBcd_of_ge {x : ℚ} (h : 3 / 10 ≤ x) : exactBcd x = 15 := by
  rw [exactBcd, min_eq_left h, max_eq_right (by norm_num), show (3 / 10 * 50 : ℚ) = (15 : ℤ) by norm_num,
    roundHaz_intCast]

theorem exactBcd_of_le {x : ℚ} (h : x ≤ -3 / 10) : exactBcd x = -15 := by
  rw [exactBcd, min_eq_right (by linarith), max_eq_left h, show (-3 / 10 * 50 : ℚ) = (-15 : ℤ) by norm_num,
    roundHaz_intCast]

/-- Outside the clamp the quantized value is its nearer end. -/
theorem abs_sub_exactBcd_of_lt {x : ℚ} (h : 3 / 10 < |x|) : |x - exactBcd x / 50| = |x| - 3 / 10 := by
  rcases lt_abs.1 h with hx | hx
  · rw [exactBcd_of_ge hx.le, abs_of_pos (by linarith : 0 < x), abs_of_pos (by push_cast; linarith)]
    norm_num
  · rw [exactBcd_of_le (by linarith), abs_of_neg (by linarith : x < 0), abs_of_neg (by push_cast; linarith)]
    push_cast
    ring

/-! ### Requantizing a dequantized block (R207) -/

/-- A fraction in `[0, 1]` of the scale is not clamped, and its product with the scale is an integer. -/
theorem exactA_dequantized {n : ℕ} (hn : n ≤ 511) : exactA (max 0 (min 1 (n / 511))) = n := by
  have h0 : (0 : ℚ) ≤ n / 511 := by positivity
  have h1 : (n : ℚ) / 511 ≤ 1 := div_le_one_of_le₀ (by exact_mod_cast hn) (by norm_num)
  rw [exactA, min_eq_right h1, max_eq_right h0, min_eq_right h1, max_eq_right h0, div_mul_cancel₀ _ (by norm_num)]
  exact roundHaz_intCast n

/-- The upper end of the clamp is 15 steps, the lower -15; -16, below it, is clamped. -/
theorem exactBcd_dequantized {n : ℤ} (hn : n ≤ 15) : exactBcd (n / 50) = max (-15) n := by
  have hhi : (n : ℚ) / 50 ≤ 3 / 10 := by
    have : (n : ℚ) ≤ 15 := by exact_mod_cast hn
    linarith
  have hscaled : max (-3 / 10) ((n : ℚ) / 50) * 50 = ((max (-15) n : ℤ) : ℚ) := by
    rw [max_mul_of_nonneg _ _ (by norm_num), div_mul_cancel₀ _ (by norm_num)]
    norm_num
  rw [exactBcd, min_eq_right hhi, hscaled, roundHaz_intCast]

end Quantizer

/-! ### The two operations -/

section

variable {s : State} (hs : s.fault = 0#3)
include hs

theorem exec_qQuant_of_quantize {co : BlockCoefficients} {q : QuantizedBlock}
    (h : Quantizer.quantize s.cfg.num s.cfg.c2i co = some q) :
    exec (.qQuant co) s = .next (s.delivering (.quantized q)) := by
  rw [exec, execQQuant, issue_running hs, finishF_delivers hs h]

theorem exec_qDequant_outOfDomain {q : QuantizedBlock} (h : 15 < q.indexPb.toNat ∨ 15 < q.indexPr.toNat) :
    exec (.qDequant q) s = .refused .indexOutsideDomain := by
  rw [exec, execQDequant, issue_running hs]
  split_ifs with hb hr
  · omega
  · rfl
  · rfl

theorem exec_qDequant_of_dequantize {q : QuantizedBlock} {co : BlockCoefficients} (hb : q.indexPb.toNat ≤ 15)
    (hr : q.indexPr.toNat ≤ 15)
    (h : Quantizer.dequantize s.cfg.num (indexToChroma s.cfg) q (Fin.ofNat 16 q.indexPb.toNat)
      (Fin.ofNat 16 q.indexPr.toNat) = some co) :
    exec (.qDequant q) s = .next (s.delivering (.coeffs co)) := by
  have index {n : ℕ} (hn : n < 16) : Fin.ofNat 16 n = ⟨n, hn⟩ := Fin.ext (Nat.mod_eq_of_lt hn)
  rw [index (Nat.lt_succ_of_le hb), index (Nat.lt_succ_of_le hr)] at h
  rw [exec, execQDequant, issue_running hs, dif_pos (Nat.lt_succ_of_le hb), dif_pos (Nat.lt_succ_of_le hr),
    finishF_delivers hs h]

end

/-! ### The statements -/

/-- Settles O37: half a step of each scale, and the clamp's ends and the integers of the scales rounding to themselves. -/
theorem quantizationErrorIsBounded : Obligations.QuantizationErrorIsBounded := by
  refine ⟨fun c2i co => ⟨_, Quantizer.quantize_exact c2i co, ?_, ?_⟩, fun c2i i2c q i j ha hbcd =>
    ⟨_, _, Quantizer.dequantize_exact i2c q i j, Quantizer.quantize_exact c2i _, ?_, ?_⟩⟩
  · rw [Quantizer.exactBlock, Quantizer.toInt_ofInt_exactA]
    exact Quantizer.abs_sub_exactA_le
  · simp only [List.forall_mem_cons, List.not_mem_nil, false_imp_iff, implies_true, and_true, Quantizer.exactBlock,
      Quantizer.toInt_ofInt_exactBcd]
    have herr (x : ℚ) : (|x| ≤ 3 / 10 → |x - Quantizer.exactBcd x / 50| ≤ 1 / 100) ∧
        (3 / 10 < |x| → |x - Quantizer.exactBcd x / 50| = |x| - 3 / 10) :=
      ⟨Quantizer.abs_sub_exactBcd_le, Quantizer.abs_sub_exactBcd_of_lt⟩
    exact ⟨herr co.b, herr co.c, herr co.d⟩
  · simp only [Quantizer.exactBlock, Quantizer.exactCoefficients]
    rw [Quantizer.exactA_dequantized ha, BitVec.ofInt_natCast, BitVec.ofNat_toNat, BitVec.setWidth_eq]
  · simp only [List.forall_mem_cons, List.not_mem_nil, false_imp_iff, implies_true, and_true, Quantizer.exactBlock,
      Quantizer.exactCoefficients, Quantizer.toInt_ofInt_exactBcd] at hbcd ⊢
    obtain ⟨⟨-, hb⟩, ⟨-, hc⟩, -, hd⟩ := hbcd
    exact ⟨Quantizer.exactBcd_dequantized hb, Quantizer.exactBcd_dequantized hc, Quantizer.exactBcd_dequantized hd⟩

/-- Settles O35, by the formulas under `EXACT` and the two sides of `round_haz`. -/
theorem quantizerRoundsTheClampedCoefficient : Obligations.QuantizerRoundsTheClampedCoefficient := by
  intro s co hs hnum near
  have hnear (x : ℚ) : near (roundHaz x) x := ⟨roundHaz_of_nonneg, roundHaz_of_neg⟩
  refine ⟨_, exec_qQuant_of_quantize hs (hnum ▸ Quantizer.quantize_exact _ co), ?_⟩
  simp only [Quantizer.exactBlock, Quantizer.toInt_ofInt_exactA, Quantizer.toInt_ofInt_exactBcd, Quantizer.index_toNat,
    and_true]
  exact ⟨hnear _, hnear _, hnear _, hnear _⟩

/-- Settles O36: the dequantizer meets no value that is not finite, and its formulas under `EXACT`. -/
theorem dequantizerDeliversItsFormulas : Obligations.DequantizerDeliversItsFormulas := by
  intro s q hs
  refine ⟨exec_qDequant_outOfDomain hs, fun hpb hpr => ?_⟩
  obtain ⟨a, b, c, d, -, -, -, -, h⟩ := Quantizer.dequantize_some s.cfg.num (indexToChroma s.cfg) q
    (Fin.ofNat 16 q.indexPb.toNat) (Fin.ofNat 16 q.indexPr.toNat)
  refine ⟨_, exec_qDequant_of_dequantize hs hpb hpr h, rfl, rfl, fun hnum => ?_⟩
  rw [hnum, Quantizer.dequantize_exact] at h
  rw [← Option.some.inj h]
  exact ⟨rfl, rfl, rfl, rfl⟩

/-- Settles O34: the clamps come before the rounding, which keeps the order in every `NUM`. -/
theorem quantizerOutputIsInTheDeclaredRange : Obligations.QuantizerOutputIsInTheDeclaredRange := by
  intro s co hs
  obtain ⟨q, hq, hrange⟩ := Quantizer.quantize_inRange s.cfg.num s.cfg.c2i co
  exact ⟨q, exec_qQuant_of_quantize hs hq, hrange⟩

end Sys2Proof.Machine
end

section
/-! PROOFS. The codec and the framer (45_codeword_framer.md): the layout of a codeword, what each operation answers in a
running block, and from that the count of a body's codewords. -/

namespace Sys2Proof.Machine

/-! ### The layout of a codeword (R220, R221) -/

namespace Codec

/-- The two's-complement pattern of a value is its remainder (R14). -/
theorem pattern_five_toNat (v : Word) : ((BitField.pattern v 5).toNat : Int) = v.toInt % 32 := by
  rw [BitField.pattern_toNat (by norm_num), ← BitField.tc_eq (by norm_num), tc,
    Int.toNat_of_nonneg (Int.emod_nonneg _ (by norm_num))]
  rfl

theorem encode_error_iff {q : QuantizedBlock} : encode q = .error .overflowError ↔ ¬ FitsCodeword q := by
  refine ⟨fun h hfits => ?_, encode_of_not_fits⟩
  rw [encode_of_fits hfits] at h
  cases h

theorem not_fitsCodeword_iff {q : QuantizedBlock} : ¬ FitsCodeword q ↔
    511 < q.a.toNat ∨ (q.b.toInt < -16 ∨ 15 < q.b.toInt) ∨ (q.c.toInt < -16 ∨ 15 < q.c.toInt) ∨
      (q.d.toInt < -16 ∨ 15 < q.d.toInt) ∨ 15 < q.indexPb.toNat ∨ 15 < q.indexPr.toNat := by
  simp only [FitsCodeword, not_and_or, not_le]

section

variable {q : QuantizedBlock} (h : FitsCodeword q)
include h

theorem packed_lt : (packed q).toNat < 2 ^ 32 := by
  obtain ⟨-, -, -, -, -, -, hupper⟩ := packed_fields h
  exact (word_of_fields hupper).1

/-- A packed word is the sum of the fields at their places. -/
theorem packed_sum : ((packed q).toNat : Int) =
    q.a.toNat * 2 ^ 23 + q.b.toInt % 32 * 2 ^ 18 + q.c.toInt % 32 * 2 ^ 13 + q.d.toInt % 32 * 2 ^ 8 +
      q.indexPb.toNat * 2 ^ 4 + q.indexPr.toNat := by
  obtain ⟨ha, hb, hc, hd, hpb, hpr, hupper⟩ := packed_fields h
  rw [(word_of_fields hupper).2, ha, hb, hc, hd, hpb, hpr]
  push_cast
  simp only [pattern_five_toNat]

end

end Codec

/-! ### What a running block answers -/

theorem modeAfter_eq_ite (running : FrMode) (rem : Nat) : modeAfter running rem = if rem = 0 then .done else running := by
  obtain ⟨hpos, hafter⟩ | ⟨hzero, hafter⟩ := modeAfter_cases running rem
  · rw [hafter, if_neg hpos.ne']
  · rw [hafter, if_pos hzero]

section

variable {s : State} (hs : s.fault = 0#3)
include hs

theorem exec_cwEnc (q : QuantizedBlock) : exec (.cwEnc q) s =
    finish ((Codec.encode q).map fun r => .codeword r.1 r.2) s := issue_running hs _

theorem exec_cwEnc_of_fits {q : QuantizedBlock} (h : FitsCodeword q) : exec (.cwEnc q) s =
    .next (s.delivering (.codeword (Codec.packed q) (Codec.toBytes (Codec.packed q)))) := by
  rw [exec_cwEnc hs, Codec.encode_of_fits h]
  exact deliver_running hs _

theorem exec_frHdrw_of_even {w h : Nat} (hmode : s.frMode = .idle) (hw : w % 2 = 0) (hh : h % 2 = 0) :
    exec (.frHdrw w h) s = .next (Framer.startBody .tx w h (streamPut (Framer.header w h) s)).completing := by
  rw [exec, execFrHdrw, issue_running hs, Framer.inMode_pos hmode, if_neg (by omega)]
  exact complete_running hs

theorem exec_frPut_of_fits {q : QuantizedBlock} (hmode : s.frMode = .tx) (h : FitsCodeword q) : exec (.frPut q) s =
    .next (Framer.countCodeword .tx (streamPut (Codec.toBytes (Codec.packed q)) s)).completing := by
  rw [exec, execFrPut, issue_running hs, Framer.inMode_pos hmode, Codec.encode_of_fits h]
  exact complete_running hs

theorem exec_frPut_of_not_fits {q : QuantizedBlock} (hmode : s.frMode = .tx) (h : ¬ FitsCodeword q) :
    exec (.frPut q) s = .next (s.faulting .overflowError) := by
  rw [exec, execFrPut, issue_running hs, Framer.inMode_pos hmode, Codec.encode_of_not_fits h]
  exact raise_running hs _

theorem exec_frHdrr_of_ok {w h : Nat} {rest : List Byte} (hmode : s.frMode = .idle)
    (hscan : Framer.scanHeader (2 ^ s.cfg.dimBits) (remaining s) = .ok (w, h) rest) : exec .frHdrr s = .next
      ((Framer.startBody .rx w h (s.setInPos (s.inPos + (Framer.header w h).length))).delivering (.dims w h)) := by
  rw [exec, execFrHdrr, issue_running hs, Framer.inMode_pos hmode, hscan, ← (inPos_of_scanHeader hscan).1]
  exact deliver_running (by exact hs) _

theorem exec_frGet_of_four {b0 b1 b2 b3 : Byte} {rest : List Byte} (hmode : s.frMode = .rx)
    (hin : remaining s = b0 :: b1 :: b2 :: b3 :: rest) : exec .frGet s = .next
      ((Framer.countCodeword .rx (s.setInPos (s.inPos + 4))).delivering
        (.quantized (Codec.unpacked (Codec.ofBytes b0 b1 b2 b3)))) := by
  have hget : streamGet 4 s = ([b0, b1, b2, b3], s.setInPos (s.inPos + 4)) := by simp [streamGet, hin]
  rw [exec, execFrGet, issue_running hs, Framer.inMode_pos hmode, hget, Codec.decode_four]
  exact deliver_running (by exact hs) _

theorem exec_frGet_of_short (hmode : s.frMode = .rx) (hin : (remaining s).length < 4) :
    exec .frGet s = raiseTruncated s := by
  have hshort : (streamGet 4 s).1.length < 4 := (List.length_take_le' ..).trans_lt hin
  rw [exec, execFrGet, issue_running hs, Framer.inMode_pos hmode, Codec.decode_short hshort]

end

/-! ### The codec's statements -/

/-- Settles O40: packing and unpacking undo each other, and so do the four bytes and their word. -/
theorem codecRoundTripsBothWays : Obligations.CodecRoundTripsBothWays := by
  intro s t hs ht
  refine ⟨fun q hq => ?_, fun bytes hlen => ?_⟩
  · obtain ⟨b0, b1, b2, b3, hbytes, hword⟩ := Codec.ofBytes_toBytes (Codec.packed_lt hq)
    refine ⟨_, _, exec_cwEnc_of_fits hs hq, ?_⟩
    rw [hbytes, exec_cwDec_four ht, hword, Codec.unpacked_packed hq]
  · obtain ⟨b0, b1, b2, b3, rfl⟩ := List.length_eq_four.1 hlen
    have hfits := Codec.unpacked_fits (Codec.ofBytes b0 b1 b2 b3)
    refine ⟨_, Codec.ofBytes b0 b1 b2 b3, exec_cwDec_four hs b0 b1 b2 b3, hfits, ?_⟩
    rw [exec_cwEnc_of_fits ht hfits, Codec.packed_unpacked (Codec.ofBytes_lt ..), Codec.toBytes_ofBytes]

/-- Settles O38: the packed word by its fields, and the setters' overflow. -/
theorem encodingFollowsTheLayoutOrOverflows : Obligations.EncodingFollowsTheLayoutOrOverflows := by
  intro s q hs
  refine ⟨fun hq => ?_, ?_⟩
  · obtain ⟨b0, b1, b2, b3, hbytes, hword⟩ := Codec.ofBytes_toBytes (Codec.packed_lt hq)
    refine ⟨Codec.packed q, b0, b1, b2, b3, hbytes ▸ exec_cwEnc_of_fits hs hq, Codec.packed_sum hq, ?_⟩
    exact (congrArg BitVec.toNat hword).symm.trans (Codec.ofBytes_toNat ..)
  · rw [exec_cwEnc hs, finish_map_faults_iff hs, Codec.encode_error_iff, Codec.not_fitsCodeword_iff]

/-! ### One operation of the framer -/

/-- Settles O44: the reader reads the header that the writer wrote. -/
theorem headerReadAcceptsWhatTheWriterWrites : Obligations.HeaderReadAcceptsWhatTheWriterWrites := by
  intro s w h rest hs hmode hw hh hwb hhb _ hin
  have hscan : Framer.scanHeader (2 ^ s.cfg.dimBits) (remaining s) = .ok (w, h) rest := by
    rw [remaining, hin, Framer.scanHeader_header hwb hhb, if_neg (by omega)]
  rw [exec_frHdrr_of_ok hs hmode hscan, Framer.startBody, modeAfter_eq_ite]
  rfl

/-- Settles O42: the header goes to `OUT`, and the registers start the body. -/
theorem headerWriteStartsTheBody : Obligations.HeaderWriteStartsTheBody := by
  intro s w h hs
  refine ⟨fun hmode hw hh => ?_, (refuses_exec_iff hs (.frHdrw w h)).2⟩
  rw [exec_frHdrw_of_even hs hmode hw hh, Framer.startBody, modeAfter_eq_ite, streamPut]
  simp only [Framer.header, ← List.append_assoc]
  rfl

/-- Settles O43: what `CW.ENC` delivers is appended and counted, and its overflow is `FR.PUT`'s. -/
theorem putAppendsOneCodeword : Obligations.PutAppendsOneCodeword := by
  intro s q hs
  refine ⟨fun hmode => ⟨fun hq => ?_, exec_frPut_of_not_fits hs hmode⟩, (refuses_frPut hs q).2⟩
  refine ⟨_, _, exec_cwEnc_of_fits hs hq, Codec.toBytes_length _, ?_⟩
  rw [exec_frPut_of_fits hs hmode hq, Framer.countCodeword, modeAfter_eq_ite]
  rfl

/-- Settles O48: four bytes are decoded and counted, fewer are a truncated read. -/
theorem getTakesOneCodeword : Obligations.GetTakesOneCodeword := by
  intro s hs
  refine ⟨fun hmode b0 b1 b2 b3 rest hin => ⟨_, exec_cwDec_four hs b0 b1 b2 b3, ?_⟩, fun hmode hin => ?_,
    (refuses_frGet hs).2⟩
  · rw [exec_frGet_of_four hs hmode hin, Framer.countCodeword, modeAfter_eq_ite]
    rfl
  · obtain ⟨pos, hraise⟩ := raiseTruncated_running hs
    exact ⟨_, (exec_frGet_of_short hs hmode hin).trans hraise, rfl, rfl, rfl, rfl, rfl⟩

/-! ### The codewords of a body (R241) -/

/-- Executing two lists of operations one after the other. -/
theorem execAll_append {l m : List Instr} {s t : State} (h : execAll l s = .next t) :
    execAll (l ++ m) s = execAll m t := by
  induction l generalizing s with
  | nil => cases h; rfl
  | cons i l ih =>
    rw [List.cons_append, execAll]
    rw [execAll] at h
    cases hi : exec i s with
    | next u => exact ih (by rwa [hi] at h)
    | fault r => nomatch r
    | refused r => rw [hi] at h; cases h

theorem execAll_cons_next {i : Instr} {l : List Instr} {s t : State} (h : exec i s = .next t) :
    execAll (i :: l) s = execAll l t := by
  rw [execAll, h]

theorem execAll_cons_refused {i : Instr} {l : List Instr} {s : State} (h : Refuses (exec i s)) :
    Refuses (execAll (i :: l) s) := by
  obtain ⟨r, h⟩ := h
  exact ⟨r, by rw [execAll, h]⟩

/-- The state `u` of a running block has counted `n` codewords since the state `s` (R242). -/
structure Counted (running : FrMode) (s : State) (n : Nat) (u : State) : Prop where
  fault : u.fault = 0#3
  rem : u.frRem = s.frRem - n
  mode : u.frMode = modeAfter running (s.frRem - n)

namespace Counted

variable {running : FrMode} {s u v : State} {n : Nat}

theorem zero (hs : s.fault = 0#3) (hrem : 0 < s.frRem) (hmode : s.frMode = running) : Counted running s 0 s :=
  ⟨hs, rfl, by rw [hmode, modeAfter_eq_ite, if_neg (by omega)]⟩

theorem mode_of_lt (h : Counted running s n u) (hn : n < s.frRem) : u.frMode = running := by
  rw [h.mode, modeAfter_eq_ite, if_neg (by omega)]

theorem mode_of_eq (h : Counted running s s.frRem u) : u.frMode = .done := by
  rw [h.mode, modeAfter_eq_ite, if_pos (by omega)]

theorem done_iff (h : Counted running s n u) (hrunning : running ≠ .done) (hn : n ≤ s.frRem) :
    u.frMode = .done ↔ n = s.frRem := by
  refine ⟨fun hdone => ?_, fun heq => mode_of_eq (heq ▸ h)⟩
  by_contra hne
  exact hrunning (h.mode_of_lt (by omega) ▸ hdone)

/-- A codeword that is counted is one more. -/
theorem succ (h : Counted running s n u) (hfault : v.fault = u.fault) (hrem : v.frRem = u.frRem - 1)
    (hmode : v.frMode = modeAfter running (u.frRem - 1)) : Counted running s (n + 1) v := by
  have hsub : u.frRem - 1 = s.frRem - (n + 1) := by rw [h.rem]; omega
  exact ⟨hfault.trans h.fault, hrem.trans hsub, hsub ▸ hmode⟩

end Counted

/-- Operations of which each one, while codewords are left, counts one and keeps an invariant, and which are refused in
`DONE`: they go to a next state up to the count, and are refused beyond it. -/
theorem execAll_counted {running : FrMode} {s : State} {l : List Instr} {Q : Nat → State → Prop}
    (hcount : ∀ n u, Q n u → Counted running s n u) (h0 : Q 0 s)
    (hstep : ∀ n (hn : n < l.length) u, n < s.frRem → Q n u → ∃ v, exec l[n] u = .next v ∧ Q (n + 1) v)
    (hdone : ∀ i ∈ l, ∀ u, u.fault = 0#3 → u.frMode = .done → Refuses (exec i u)) :
    (l.length ≤ s.frRem → ∃ t, execAll l s = .next t ∧ Q l.length t) ∧ (s.frRem < l.length → Refuses (execAll l s)) := by
  have run : ∀ n, n ≤ l.length → n ≤ s.frRem → ∃ t, execAll (l.take n) s = .next t ∧ Q n t := by
    intro n
    induction n with
    | zero => exact fun _ _ => ⟨s, rfl, h0⟩
    | succ n ih =>
      intro hlen hrem
      obtain ⟨u, hu, hQu⟩ := ih (by omega) (by omega)
      obtain ⟨v, hv, hQv⟩ := hstep n hlen u hrem hQu
      refine ⟨v, ?_, hQv⟩
      rw [List.take_succ_eq_append_getElem hlen, execAll_append hu, execAll_cons_next hv]
      rfl
  refine ⟨fun hlen => by simpa using run l.length le_rfl hlen, fun hlen => ?_⟩
  obtain ⟨t, ht, hQt⟩ := run s.frRem hlen.le le_rfl
  rw [← List.take_append_drop s.frRem l, execAll_append ht, List.drop_eq_getElem_cons hlen]
  exact execAll_cons_refused (hdone _ (List.getElem_mem hlen) t (hcount _ _ hQt).fault (hcount _ _ hQt).mode_of_eq)

/-- `n` codewords have been appended to `OUT` since the state `s`. -/
structure Sent (s : State) (n : Nat) (u : State) : Prop extends Counted .tx s n u where
  out : ∃ body, u.out = s.out ++ body ∧ body.length = 4 * n

/-- `n` codewords have been taken from `IN` since the state `s`. -/
structure Received (s : State) (n : Nat) (u : State) : Prop extends Counted .rx s n u where
  input : u.input = s.input
  inPos : u.inPos = s.inPos + 4 * n

section

variable {s u : State} {n : Nat}

theorem Sent.put (h : Sent s n u) (hn : n < s.frRem) {q : QuantizedBlock} (hq : FitsCodeword q) :
    ∃ v, exec (.frPut q) u = .next v ∧ Sent s (n + 1) v := by
  obtain ⟨body, hout, hlen⟩ := h.out
  refine ⟨_, exec_frPut_of_fits h.fault (h.mode_of_lt hn) hq, h.succ rfl rfl rfl,
    body ++ Codec.toBytes (Codec.packed q), ?_, ?_⟩
  · rw [← List.append_assoc, ← hout]
    rfl
  · rw [List.length_append, hlen, Codec.toBytes_length, Nat.mul_succ]

theorem Received.get (h : Received s n u) (hn : n < s.frRem) (hin : 4 * (n + 1) ≤ (remaining s).length) :
    ∃ v, exec .frGet u = .next v ∧ Received s (n + 1) v := by
  have hleft : remaining u = (remaining s).drop (4 * n) := by
    rw [remaining, h.input, h.inPos, remaining, List.drop_drop]
  obtain ⟨b0, b1, b2, b3, rest, hfour⟩ := Codec.four_of_length (bs := remaining u)
    (by rw [hleft, List.length_drop]; omega)
  refine ⟨_, exec_frGet_of_four h.fault (h.mode_of_lt hn) hfour, h.succ rfl rfl rfl, h.input, ?_⟩
  rw [Nat.mul_succ, ← Nat.add_assoc, ← h.inPos]
  rfl

end

/-- Settles O49: in both directions a codeword counts one down, and `DONE` refuses the next. -/
theorem framerAcceptsExactlyTheCount : Obligations.FramerAcceptsExactlyTheCount := by
  intro s hs hrem
  refine ⟨fun hmode qs hfits => ?_, fun hmode n hin => ?_⟩
  · obtain ⟨upTo, beyond⟩ := execAll_counted (l := qs.map .frPut) (Q := Sent s) (fun _ _ h => h.toCounted)
      ⟨.zero hs hrem hmode, [], by simp⟩
      (fun k hk u hkrem h => by
        rw [List.length_map] at hk
        rw [List.getElem_map]
        exact h.put hkrem (hfits _ (List.mem_take_iff_getElem.2 ⟨k, by omega, rfl⟩)))
      (fun i hi u hu hdone => by
        obtain ⟨q, -, rfl⟩ := List.mem_map.1 hi
        exact (refuses_frPut hu q).2 (by simp [hdone]))
    rw [List.length_map] at upTo beyond
    refine ⟨fun hlen => ?_, beyond⟩
    obtain ⟨t, hexec, ht⟩ := upTo hlen
    obtain ⟨body, hout, hbody⟩ := ht.out
    exact ⟨t, body, hexec, ht.fault, ht.rem, ht.done_iff (by decide) hlen, hout, hbody⟩
  · obtain ⟨upTo, beyond⟩ := execAll_counted (l := List.replicate n .frGet) (Q := Received s) (fun _ _ h => h.toCounted)
      ⟨.zero hs hrem hmode, rfl, rfl⟩
      (fun k hk u hkrem h => by
        rw [List.length_replicate] at hk
        rw [List.getElem_replicate]
        exact h.get hkrem (by rw [remaining]; omega))
      (fun i hi u hu hdone => by
        rw [List.eq_of_mem_replicate hi]
        exact (refuses_frGet hu).2 (by simp [hdone]))
    rw [List.length_replicate] at upTo beyond
    refine ⟨fun hlen => ?_, beyond⟩
    obtain ⟨t, hexec, ht⟩ := upTo hlen
    exact ⟨t, hexec, ht.fault, ht.rem, ht.done_iff (by decide) hlen, ht.inPos⟩

end Sys2Proof.Machine
end

section
/-! PROOFS. The judgement in which the host's programs are followed (rule R272): a run completes with a value in a state
known up to the result ports. And the containers the programs pass on: plain grids, the store, the body of a stream. -/

namespace Sys2Proof.Machine

/-! ### Runs that complete -/

namespace HostRun

/-- A run completes with the value `a`, in the state `t` but for what stands on the result ports. -/
def Yields {α : Type} (m : HostRun α) (a : α) (t : State) : Prop := ∃ r, m = .done a (t.setResponse r)

variable {α β : Type}

theorem yields_done (a : α) (t : State) {r : Option Response} : (done a (t.setResponse r)).Yields a t := ⟨r, rfl⟩

theorem Yields.andThen {m : HostRun α} {k : α → State → HostRun β} {a : α} {b : β} {t u : State} (h : m.Yields a t)
    (hk : ∀ r, (k a (t.setResponse r)).Yields b u) : (m.andThen k).Yields b u := by
  obtain ⟨r, rfl⟩ := h
  exact hk r

/-- A loop of which each round delivers `g` of its item, `T` being the state by the items that are done. -/
theorem forEach_yields {f : α → State → HostRun β} {l : List α} (g : α → β) (T : List α → State)
    (hstep : ∀ before a after, before ++ a :: after = l →
      ∀ r, (f a ((T before).setResponse r)).Yields (g a) (T (before ++ [a])))
    {s : State} (hs : T [] = s) {r : Option Response} : (forEach f l (s.setResponse r)).Yields (l.map g) (T l) := by
  have run : ∀ after before, before ++ after = l → ∀ r,
      (forEach f after ((T before).setResponse r)).Yields (after.map g) (T l) := by
    intro after
    induction after with
    | nil =>
      rintro before rfl r
      rw [List.append_nil]
      exact yields_done [] (T before)
    | cons a after ih =>
      intro before hl r
      exact (hstep before a after hl r).andThen fun r =>
        (ih (before ++ [a]) (by rw [← hl, List.append_assoc]; rfl) r).andThen fun _ => yields_done _ (T l)
  exact hs ▸ run l [] rfl r

/-- A loop over the images of items is a loop over the items. -/
theorem forEach_map {γ : Type} (f : α → State → HostRun β) (c : γ → α) (l : List γ) (s : State) :
    forEach f (l.map c) s = forEach (fun x => f (c x)) l s := by
  induction l generalizing s with
  | nil => rfl
  | cons x l ih =>
    simp only [List.map_cons, forEach]
    exact congrArg _ (funext fun b => funext fun t => congrArg (andThen · _) (ih t))

end HostRun

/-! ### Calls -/

theorem call_yields {i : Instr} {s t : State} (hw : i.wf s.cfg = true) (ht : t.fault = 0#3)
    (h : exec i s = .next t.completing) : (call i s).Yields none t := ⟨_, call_complete hw ht h⟩

theorem call_yields_result {i : Instr} {s t : State} {r : Result} (hw : i.wf s.cfg = true) (ht : t.fault = 0#3)
    (h : exec i s = .next (t.delivering r)) : (call i s).Yields (some r) t := ⟨_, call_deliver hw ht h⟩

theorem callFor_yields {α : Type} {i : Instr} {s t : State} {r : Result} {kind : Result → Option α} {a : α}
    (hw : i.wf s.cfg = true) (ht : t.fault = 0#3) (h : exec i s = .next (t.delivering r)) (hk : kind r = some a) :
    (callFor i kind s).Yields a t := ⟨_, callFor_deliver hw ht h hk⟩

/-- A call of an operation that only delivers a result. -/
theorem callFor_yields_same {α : Type} {i : Instr} {s : State} {r : Option Response} {v : Result}
    {kind : Result → Option α} {a : α} (hs : s.fault = 0#3) (hw : i.wf s.cfg = true)
    (h : exec i (s.setResponse r) = .next ((s.setResponse r).delivering v)) (hk : kind v = some a) :
    (callFor i kind (s.setResponse r)).Yields a s := callFor_yields (t := s.setResponse r) hw hs h hk

/-! ### Plain grids (R57) -/

/-- Where a loop over the positions of a plain grid stands: inside the grid, after fewer positions than there are. -/
theorem rowMajor_split {w h : Nat} {before after : List (Nat × Nat)} {p : Nat × Nat}
    (hl : before ++ p :: after = rowMajor w h) : (p.1 < w ∧ p.2 < h) ∧ before.length < w * h := by
  refine ⟨mem_rowMajor.1 (hl ▸ List.mem_append_right before List.mem_cons_self), ?_⟩
  rw [← rowMajor_length, ← hl]
  simp

/-- The plain grid with the element `f p` at the position `p`. -/
def PlainGrid.tabulate {α : Type} (w h : Nat) (f : Nat × Nat → α) : PlainGrid α := ⟨w, h, (rowMajor w h).map f⟩

theorem PlainGrid.at?_tabulate {α : Type} {w h : Nat} (f : Nat × Nat → α) {col row : Nat} (hc : col < w) (hr : row < h) :
    (PlainGrid.tabulate w h f).at? col row = some (f (col, row)) := by
  have hk : row * w + col < w * h := by
    calc row * w + col < row * w + w := Nat.add_lt_add_left hc _
      _ = (row + 1) * w := (Nat.add_one_mul row w).symm
      _ ≤ w * h := by rw [Nat.mul_comm w h]; exact Nat.mul_le_mul_right w hr
  rw [PlainGrid.at?, PlainGrid.tabulate, List.getElem?_map, rowMajor_get hk, Grid.mixed_div hc, Nat.mul_add_mod_of_lt hc]
  rfl

/-- A list with one element per position is the list of a function's values in row-major order. -/
theorem exists_eq_map_rowMajor {α : Type} (a : α) {w h : Nat} {l : List α} (hl : l.length = w * h) :
    ∃ f, l = (rowMajor w h).map f := by
  refine ⟨fun p => l.getD (p.2 * w + p.1) a, List.ext_getElem? fun k => ?_⟩
  rcases Nat.lt_or_ge k (w * h) with hk | hk
  · rw [List.getElem?_map, rowMajor_get hk, Option.map_some, Nat.div_add_mod', List.getD_eq_getElem _ _ (hl ▸ hk),
      List.getElem?_eq_getElem]
  · rw [List.getElem?_eq_none (hl ▸ hk), List.getElem?_eq_none (by rwa [List.length_map, rowMajor_length])]

/-- The elements of the transform block `b`, in the order of its pixels (R181). -/
def corners {α : Type} (f : Nat × Nat → α) (b : Nat × Nat) : α × α × α × α :=
  (f (2 * b.1, 2 * b.2), f (2 * b.1 + 1, 2 * b.2), f (2 * b.1, 2 * b.2 + 1), f (2 * b.1 + 1, 2 * b.2 + 1))

/-- The element at a position, by the elements of the transform blocks. -/
def ofCorners {α : Type} (quads : Nat × Nat → α × α × α × α) (p : Nat × Nat) : α :=
  let quad := quads (p.1 / 2, p.2 / 2)
  if p.2 % 2 = 0 then if p.1 % 2 = 0 then quad.1 else quad.2.1 else if p.1 % 2 = 0 then quad.2.2.1 else quad.2.2.2

theorem corners_ofCorners {α : Type} (quads : Nat × Nat → α × α × α × α) : corners (ofCorners quads) = quads := by
  funext b
  have half (n : Nat) : (2 * n + 1) / 2 = n := by omega
  simp [corners, ofCorners, half]

/-- The positions of the transform block `b`, in the order of its pixels (R181). -/
def blockPixels (b : Nat × Nat) : List (Nat × Nat) :=
  [(2 * b.1, 2 * b.2), (2 * b.1 + 1, 2 * b.2), (2 * b.1, 2 * b.2 + 1), (2 * b.1 + 1, 2 * b.2 + 1)]

theorem mem_blockPixels {b p : Nat × Nat} : p ∈ blockPixels b ↔ p.1 / 2 = b.1 ∧ p.2 / 2 = b.2 := by
  simp only [blockPixels, List.mem_cons, List.not_mem_nil, or_false, Prod.ext_iff]
  omega

/-- The transform blocks of an image of even dimensions cover its positions. -/
theorem mem_flatMap_blockPixels {w h : Nat} {p : Nat × Nat} :
    p ∈ (rowMajor w h).flatMap blockPixels ↔ p.1 < 2 * w ∧ p.2 < 2 * h := by
  simp only [List.mem_flatMap, mem_rowMajor, mem_blockPixels]
  constructor
  · rintro ⟨b, ⟨hc, hr⟩, hcol, hrow⟩
    omega
  · rintro ⟨hc, hr⟩
    exact ⟨(p.1 / 2, p.2 / 2), ⟨by dsimp only; omega, by dsimp only; omega⟩, rfl, rfl⟩

/-! ### The store of grids -/

namespace Store

variable {α : Type}

/-- The later of two writes of one key is the one that counts. -/
theorem insert_insert (k : Nat) (v w : α) (m : List (Nat × α)) : insert k v (insert k w m) = insert k v m := by
  induction m with
  | nil => simp [insert]
  | cons e l ih =>
    rcases lt_trichotomy k e.1 with hlt | heq | hgt
    · simp [insert, hlt]
    · simp [insert, heq]
    · simp [insert, hgt.not_gt, hgt.ne, ih]

theorem erase_eq_self {k : Nat} {m : List (Nat × α)} (h : find k m = none) : erase k m = m := by
  refine List.filter_eq_self.2 fun e he => ?_
  induction m with
  | nil => cases he
  | cons x l ih =>
    rw [find_cons] at h
    split_ifs at h with hx
    rcases List.mem_cons.1 he with rfl | he
    · simpa using hx
    · exact ih h he

/-- Erasing a key that was fresh when it was written gives the storage back. -/
theorem erase_insert_of_fresh {k : Nat} {m : List (Nat × α)} (h : find k m = none) (v : α) : erase k (insert k v m) = m := by
  induction m with
  | nil => simp [insert, erase]
  | cons e l ih =>
    have hl := erase_eq_self h
    rw [find_cons] at h
    split_ifs at h with hne
    simp only [insert, if_neg hne]
    split_ifs
    · exact (List.filter_cons_of_neg (by simp)).trans hl
    · exact (List.filter_cons_of_pos (by simpa using hne)).trans (congrArg (e :: ·) (ih h))

end Store

/-! ### The body of a stream (R89) -/

namespace Codec

/-- The bytes of the codewords of quantized blocks, one after the other. -/
def bodyOf (qs : List QuantizedBlock) : List Byte := qs.flatMap fun q => toBytes (packed q)

theorem bodyOf_cons (q : QuantizedBlock) (qs : List QuantizedBlock) :
    bodyOf (q :: qs) = toBytes (packed q) ++ bodyOf qs := rfl

theorem bodyOf_append (qs rs : List QuantizedBlock) : bodyOf (qs ++ rs) = bodyOf qs ++ bodyOf rs := List.flatMap_append

theorem bodyOf_length (qs : List QuantizedBlock) : (bodyOf qs).length = 4 * qs.length := by
  induction qs with
  | nil => rfl
  | cons q qs ih => rw [bodyOf_cons, List.length_append, toBytes_length, ih, List.length_cons, Nat.mul_succ, Nat.add_comm]

theorem drop_bodyOf_append (qs rs : List QuantizedBlock) (rest : List Byte) :
    (bodyOf (qs ++ rs) ++ rest).drop (4 * qs.length) = bodyOf rs ++ rest := by
  rw [bodyOf_append, List.append_assoc, ← bodyOf_length, List.drop_left]

/-- The four bytes at the place of a codeword in the body. -/
theorem codeword_bodyOf {qs : List QuantizedBlock} {k : Nat} {q : QuantizedBlock} (h : qs[k]? = some q) :
    ((bodyOf qs).drop (4 * k)).take 4 = toBytes (packed q) := by
  obtain ⟨hk, rfl⟩ := List.getElem?_eq_some_iff.1 h
  have hlen : (qs.take k).length = k := List.length_take_of_le hk.le
  have hsplit := drop_bodyOf_append (qs.take k) (qs.drop k) []
  rw [List.take_append_drop, List.append_nil, List.append_nil, hlen, List.drop_eq_getElem_cons hk, bodyOf_cons] at hsplit
  rw [hsplit]
  rfl

theorem decode_toBytes_packed {q : QuantizedBlock} (h : FitsCodeword q) : decode (toBytes (packed q)) = .ok q := by
  obtain ⟨b0, b1, b2, b3, hbytes, hword⟩ := ofBytes_toBytes (packed_lt h)
  rw [hbytes, decode_four, hword, unpacked_packed h]

/-- Any bytes of the length of whole codewords are the body of some blocks (R85, R226). -/
theorem exists_bodyOf {n : Nat} {body : List Byte} (h : body.length = 4 * n) :
    ∃ qs, body = bodyOf qs ∧ qs.length = n ∧ ∀ q ∈ qs, FitsCodeword q := by
  induction n generalizing body with
  | zero => exact ⟨[], List.length_eq_zero_iff.1 h, rfl, by simp⟩
  | succ n ih =>
    obtain ⟨b0, b1, b2, b3, body, rfl⟩ := four_of_length (bs := body) (by omega)
    obtain ⟨qs, rfl, rfl, hfits⟩ := ih (body := body) (by simp only [List.length_cons] at h; omega)
    refine ⟨unpacked (ofBytes b0 b1 b2 b3) :: qs, ?_, rfl, List.forall_mem_cons.2 ⟨unpacked_fits _, hfits⟩⟩
    rw [bodyOf_cons, packed_unpacked (ofBytes_lt ..), toBytes_ofBytes]
    rfl

end Codec

end Sys2Proof.Machine
end

section
/-! PROOFS. What a call of each operation of the pipelines yields, in terms of the units' own functions under `EXACT` and of
the state it is issued in: the pure units, the color grid a host creates, and the framer. -/

namespace Sys2Proof.Machine

/-! ### Operations of the pure units -/

section Units

variable {s : State} {r : Option Response} (hs : s.fault = 0#3) (hnum : s.cfg.num = .exact)
include hnum

theorem presentsColor_exact (cp : ColorPixel) : presentsColor s.cfg cp = true := by
  simp [presentsColor, hnum, isF, roundF]

theorem presentsCoeffs_exact (co : BlockCoefficients) : presentsCoeffs s.cfg co = true := by
  simp [presentsCoeffs, hnum, isF, roundF]

include hs

theorem cscFwd_yields {px : Pixel} {den : Nat} {cp : ColorPixel} (hpx : ColorSpace.pixelInRange px den = true)
    (hden : den < 2 ^ s.cfg.chBits) (h : ColorSpace.forward .exact px den = some cp) :
    (callFor (.cscFwd px den) Result.color? (s.setResponse r)).Yields cp s := by
  obtain ⟨-, hr, hg, hb⟩ := pixelInRange_iff.1 hpx
  refine callFor_yields_same hs ?_ (exec_cscFwd_of_forward (by exact hs) hpx (hnum ▸ h)) rfl
  simp [Instr.wf, presentsPixel, presentsChan, hden, hr.trans_lt hden, hg.trans_lt hden, hb.trans_lt hden]

theorem cscInv_yields {cp : ColorPixel} {den : Nat} {px : Pixel} (h0 : 0 < den) (hden : den < 2 ^ s.cfg.chBits)
    (h : ColorSpace.inverse .exact cp den = some px) :
    (callFor (.cscInv cp den) Result.pixel? (s.setResponse r)).Yields px s :=
  callFor_yields_same hs (by simp [Instr.wf, presentsChan, hden, presentsColor_exact hnum])
    (exec_cscInv_of_inverse (by exact hs) h0.ne' (hnum ▸ h)) rfl

theorem btFwd_yields {p1 p2 p3 p4 : ColorPixel} {co : BlockCoefficients}
    (h : BlockTransform.forward .exact p1 p2 p3 p4 = some co) :
    (callFor (.btFwd p1 p2 p3 p4) Result.coeffs? (s.setResponse r)).Yields co s :=
  callFor_yields_same hs (by simp [Instr.wf, presentsColor_exact hnum])
    (exec_btFwd_of_forward (by exact hs) (hnum ▸ h)) rfl

theorem btInv_yields {co : BlockCoefficients} {p : ColorPixel × ColorPixel × ColorPixel × ColorPixel}
    (h : BlockTransform.inverse .exact co = some p) :
    (callFor (.btInv co) Result.block? (s.setResponse r)).Yields p s :=
  callFor_yields_same hs (by simp [Instr.wf, presentsCoeffs_exact hnum])
    (exec_btInv_of_inverse (by exact hs) (hnum ▸ h)) rfl

theorem qQuant_yields {co : BlockCoefficients} {q : QuantizedBlock}
    (h : Quantizer.quantize .exact s.cfg.c2i co = some q) :
    (callFor (.qQuant co) Result.quantized? (s.setResponse r)).Yields q s :=
  callFor_yields_same hs (by simp [Instr.wf, presentsCoeffs_exact hnum])
    (exec_qQuant_of_quantize (by exact hs) (hnum ▸ h)) rfl

theorem qDequant_yields {q : QuantizedBlock} {co : BlockCoefficients} (hq : FitsCodeword q)
    (h : Quantizer.dequantize .exact (indexToChroma s.cfg) q (Fin.ofNat 16 q.indexPb.toNat)
      (Fin.ofNat 16 q.indexPr.toNat) = some co) :
    (callFor (.qDequant q) Result.coeffs? (s.setResponse r)).Yields co s := by
  obtain ⟨-, -, -, -, hpb, hpr⟩ := hq
  exact callFor_yields_same hs rfl (exec_qDequant_of_dequantize (by exact hs) hpb hpr (hnum ▸ h)) rfl

end Units

/-! ### A color grid that the host creates, fills, reads and releases -/

/-- The state with the grid `d` created last, at the handle that was fresh. -/
def State.withGrid (s : State) (d : Grid) : State :=
  (s.setGrids (Store.insert s.nextHandle d s.grids)).setNextHandle (s.nextHandle + 1)

/-- The grid that `GRID.NEWDEF` creates (R142). -/
def Grid.blank (w h es : Nat) : Grid := ⟨w, h, es, defaultBlocking es, []⟩

/-- The grid after the color pixels of `f` have been written at positions, in their order. -/
def Grid.paint (f : Nat × Nat → ColorPixel) (ps : List (Nat × Nat)) (d : Grid) : Grid :=
  ps.foldl (fun d p => d.memWrite p.1 p.2 (.color (f p))) d

/-- The grid is `w` by `h` and holds the color pixels of `f`. -/
structure Grid.Shows (d : Grid) (w h : Nat) (f : Nat × Nat → ColorPixel) : Prop where
  width : d.width = w
  height : d.height = h
  read : ∀ p : Nat × Nat, p.1 < w → p.2 < h → d.memRead p.1 p.2 = some (.color (f p))

namespace Grid

variable {f : Nat × Nat → ColorPixel}

theorem paint_append (ps qs : List (Nat × Nat)) (d : Grid) : paint f (ps ++ qs) d = paint f qs (paint f ps d) :=
  List.foldl_append

/-- Painting keeps the descriptor. -/
theorem paint_descriptor (ps : List (Nat × Nat)) (d : Grid) : (paint f ps d).width = d.width ∧
    (paint f ps d).height = d.height ∧ (paint f ps d).blockSize = d.blockSize := by
  induction ps generalizing d with
  | nil => exact ⟨rfl, rfl, rfl⟩
  | cons p ps ih => exact ih (d.memWrite p.1 p.2 (.color (f p)))

/-- A painted position holds its pixel: another write goes to another slot or writes the same pixel. -/
theorem memRead_paint {d : Grid} (hb : 0 < d.blockSize) {ps : List (Nat × Nat)} (hps : ∀ p ∈ ps, p.1 < d.width)
    {p : Nat × Nat} (hp : p ∈ ps) : (paint f ps d).memRead p.1 p.2 = some (.color (f p)) := by
  induction ps using List.reverseRecOn with
  | nil => cases hp
  | append_singleton ps q ih =>
    rw [paint_append]
    obtain ⟨hwidth, -, hblock⟩ := paint_descriptor (f := f) ps d
    rcases eq_or_ne p q with rfl | hne
    · exact memRead_memWrite_self ..
    · have hslot : (paint f ps d).slotIndex p.1 p.2 ≠ (paint f ps d).slotIndex q.1 q.2 := fun heq =>
        hne (slotIndex_injective (hblock ▸ hb) (hwidth ▸ hps p hp) (hwidth ▸ hps q (by simp)) heq)
      have hmem : p ∈ ps := (List.mem_append.1 hp).resolve_right (by simpa using hne)
      rw [← ih (fun x hx => hps x (List.mem_append_left _ hx)) hmem]
      exact memRead_memWrite_of_ne _ _ _ _ hslot

/-- A grid painted at every position shows the picture. -/
theorem shows_paint {d : Grid} (hb : 0 < d.blockSize) {ps : List (Nat × Nat)}
    (hps : ∀ p, p ∈ ps ↔ p.1 < d.width ∧ p.2 < d.height) : (paint f ps d).Shows d.width d.height f := by
  obtain ⟨hwidth, hheight, -⟩ := paint_descriptor (f := f) ps d
  exact ⟨hwidth, hheight, fun p hc hr => memRead_paint hb (fun x hx => ((hps x).1 hx).1) ((hps p).2 ⟨hc, hr⟩)⟩

end Grid

section ColorGrid

variable {s : State} {d : Grid} {r : Option Response}

theorem find_withGrid : Store.find s.nextHandle ((s.withGrid d).setResponse r).grids = some d :=
  Store.find_insert_self ..

variable (hs : s.fault = 0#3)
include hs

theorem fault_withGrid : ((s.withGrid d).setResponse r).fault = 0#3 := hs

theorem gridNewdef_yields {w h es : Nat} (hw : w < 2 ^ s.cfg.argBits) (hh : h < 2 ^ s.cfg.argBits) (h0 : 0 < es)
    (hes : es < 2 ^ s.cfg.argBits) : (callFor (.gridNewdef w h es) Result.grid? (s.setResponse r)).Yields s.nextHandle
      (s.withGrid (Grid.blank w h es)) := by
  have hfault : (s.setResponse r).fault = 0#3 := hs
  refine callFor_yields (t := s.withGrid (Grid.blank w h es)) (r := .grid s.nextHandle) ?_ hs ?_ rfl
  · simp [Instr.wf, presentsArg, hw, hh, hes]
  · rw [exec_gridNewdef hfault, if_neg h0.ne', newGrid_running hfault]
    rfl

theorem gridForeach_yields : (callFor (.gridForeach s.nextHandle) Result.seq? ((s.withGrid d).setResponse r)).Yields
    d.traversal (s.withGrid d) :=
  callFor_yields_same (s := s.withGrid d) hs rfl (exec_gridForeach (fault_withGrid hs) find_withGrid) rfl

theorem gridWidth_yields : (callFor (.gridWidth s.nextHandle) Result.n? ((s.withGrid d).setResponse r)).Yields
    d.width (s.withGrid d) :=
  callFor_yields_same (s := s.withGrid d) (v := .n d.width) hs rfl
    (issue_queryGrid (fault_withGrid hs) find_withGrid Grid.width) rfl

theorem gridHeight_yields : (callFor (.gridHeight s.nextHandle) Result.n? ((s.withGrid d).setResponse r)).Yields
    d.height (s.withGrid d) :=
  callFor_yields_same (s := s.withGrid d) (v := .n d.height) hs rfl
    (issue_queryGrid (fault_withGrid hs) find_withGrid Grid.height) rfl

/-- Releasing the grid gives buffer memory back as it was. -/
theorem gridFree_yields (hi : GridsInv s) : (call (.gridFree s.nextHandle) ((s.withGrid d).setResponse r)).Yields none
    (s.setNextHandle (s.nextHandle + 1)) := by
  refine call_yields rfl hs ?_
  rw [exec_gridFree (fault_withGrid hs) find_withGrid]
  have hback : Store.erase s.nextHandle ((s.withGrid d).setResponse r).grids = s.grids :=
    Store.erase_insert_of_fresh (find_nextHandle hi) d
  rw [hback]
  rfl

variable {col row : Nat} (hcol : col < 2 ^ s.cfg.argBits) (hrow : row < 2 ^ s.cfg.argBits)
include hcol hrow

theorem gridAtRd_yields {w h : Nat} {f : Nat × Nat → ColorPixel} (hd : d.Shows w h f) (hc : col < w) (hr : row < h) :
    (callFor (.gridAtRd s.nextHandle col row) Result.color? ((s.withGrid d).setResponse r)).Yields (f (col, row))
      (s.withGrid d) := by
  have hwf : (presentsArg s.cfg col && presentsArg s.cfg row) = true := by simp [presentsArg, hcol, hrow]
  exact callFor_yields_same (s := s.withGrid d) hs hwf (exec_gridAtRd_written (fault_withGrid hs) find_withGrid
    (Grid.inBounds_iff.2 ⟨hd.width ▸ hc, hd.height ▸ hr⟩) (hd.read (col, row) hc hr)) rfl

theorem gridAtWr_yields (hnum : s.cfg.num = .exact) (hc : col < d.width) (hr : row < d.height) (cp : ColorPixel) :
    (call (.gridAtWr s.nextHandle col row (.color cp)) ((s.withGrid d).setResponse r)).Yields
      (some (.grid s.nextHandle)) (s.withGrid (d.memWrite col row (.color cp))) := by
  refine call_yields_result ?_ hs ?_
  · change (presentsArg s.cfg col && presentsArg s.cfg row && presentsColor s.cfg cp) = true
    simp [presentsArg, hcol, hrow, presentsColor_exact hnum]
  · rw [exec_gridAtWr (fault_withGrid hs) find_withGrid (Grid.inBounds_iff.2 ⟨hc, hr⟩)]
    have hwrite : Store.insert s.nextHandle (d.memWrite col row (.color cp)) ((s.withGrid d).setResponse r).grids =
        (s.withGrid (d.memWrite col row (.color cp))).grids := Store.insert_insert ..
    rw [hwrite]
    rfl

end ColorGrid

/-! ### The framer (R242) -/

/-- The state after `FR.HDRW` (R230, R242). -/
def State.headed (s : State) (w h : Nat) : State := Framer.startBody .tx w h (streamPut (Framer.header w h) s)

/-- The state after `FR.HDRR` (R236, R242). -/
def State.opened (s : State) (w h : Nat) : State :=
  Framer.startBody .rx w h (s.setInPos (s.inPos + (Framer.header w h).length))

/-- The state with the codewords of `qs` written and counted. -/
def State.sent (s : State) (qs : List QuantizedBlock) : State :=
  (s.setOut (s.out ++ Codec.bodyOf qs)).setFramer (modeAfter .tx (s.frRem - qs.length)) s.frW s.frH (s.frRem - qs.length)

/-- The state with `n` codewords taken and counted. -/
def State.received (s : State) (n : Nat) : State :=
  (s.setInPos (s.inPos + 4 * n)).setFramer (modeAfter .rx (s.frRem - n)) s.frW s.frH (s.frRem - n)

theorem State.sent_nil {s : State} (hmode : s.frMode = modeAfter .tx s.frRem) : s.sent [] = s := by
  rw [sent, show s.out ++ Codec.bodyOf [] = s.out from List.append_nil _, List.length_nil, Nat.sub_zero, ← hmode]
  rfl

theorem State.received_zero {s : State} (hmode : s.frMode = modeAfter .rx s.frRem) : s.received 0 = s := by
  rw [received, Nat.sub_zero, ← hmode]
  rfl

section Framer

variable {s : State} {r : Option Response} (hs : s.fault = 0#3)
include hs

theorem frHdrw_yields {w h : Nat} (hmode : s.frMode = .idle) (evenW : w % 2 = 0) (evenH : h % 2 = 0)
    (hw : w < 2 ^ s.cfg.dimBits) (hh : h < 2 ^ s.cfg.dimBits) :
    (call (.frHdrw w h) (s.setResponse r)).Yields none (s.headed w h) :=
  call_yields (t := (s.setResponse r).headed w h) (by simp [Instr.wf, presentsDim, hw, hh]) hs
    (exec_frHdrw_of_even (s := s.setResponse r) hs hmode evenW evenH)

theorem frPut_yields {qs : List QuantizedBlock} {q : QuantizedBlock} (hlt : qs.length < s.frRem) (hq : FitsCodeword q) :
    (call (.frPut q) ((s.sent qs).setResponse r)).Yields none (s.sent (qs ++ [q])) := by
  have hfault : ((s.sent qs).setResponse r).fault = 0#3 := hs
  have hmode : ((s.sent qs).setResponse r).frMode = .tx := if_pos (by omega)
  have hput : Framer.countCodeword .tx (streamPut (Codec.toBytes (Codec.packed q)) (s.sent qs)) = s.sent (qs ++ [q]) := by
    rw [State.sent, State.sent, Codec.bodyOf_append, ← List.append_assoc, List.length_append]
    rfl
  rw [← hput]
  exact call_yields (t := Framer.countCodeword .tx (streamPut (Codec.toBytes (Codec.packed q))
    ((s.sent qs).setResponse r))) rfl hs (exec_frPut_of_fits hfault hmode hq)

theorem frHdrr_yields {w h : Nat} {rest : List Byte} (hmode : s.frMode = .idle) (evenW : w % 2 = 0) (evenH : h % 2 = 0)
    (hw : w < 2 ^ s.cfg.dimBits) (hh : h < 2 ^ s.cfg.dimBits)
    (hin : remaining s = Framer.header w h ++ rest) :
    (callFor .frHdrr Result.dims? (s.setResponse r)).Yields (w, h) (s.opened w h) := by
  have hscan : Framer.scanHeader (2 ^ s.cfg.dimBits) (remaining s) = .ok (w, h) rest := by
    rw [hin, Framer.scanHeader_header hw hh, if_neg (by omega)]
  exact callFor_yields (t := (s.setResponse r).opened w h) rfl hs
    (exec_frHdrr_of_ok (s := s.setResponse r) hs hmode hscan) rfl

theorem frGet_yields {n : Nat} {q : QuantizedBlock} {rest : List Byte} (hlt : n < s.frRem) (hq : FitsCodeword q)
    (hin : (remaining s).drop (4 * n) = Codec.toBytes (Codec.packed q) ++ rest) :
    (callFor .frGet Result.quantized? ((s.received n).setResponse r)).Yields q (s.received (n + 1)) := by
  have hfault : ((s.received n).setResponse r).fault = 0#3 := hs
  have hmode : ((s.received n).setResponse r).frMode = .rx := if_pos (by omega)
  obtain ⟨b0, b1, b2, b3, hbytes, hword⟩ := Codec.ofBytes_toBytes (Codec.packed_lt hq)
  have hfour : remaining ((s.received n).setResponse r) = b0 :: b1 :: b2 :: b3 :: rest := by
    rw [hbytes, remaining, List.drop_drop] at hin
    exact hin
  refine callFor_yields (t := Framer.countCodeword .rx (((s.received n).setResponse r).setInPos
    (((s.received n).setResponse r).inPos + 4))) rfl hs (exec_frGet_of_four hfault hmode hfour) ?_
  rw [hword, Codec.unpacked_packed hq]
  rfl

end Framer

end Sys2Proof.Machine
end

section
/-! PROOFS. The grid forms of the units, which are the stages of `COMPRESS` and `DECOMPRESS` (rules R161, R163, R181 to R185
and R208): what each of them yields under `EXACT`. -/

namespace Sys2Proof.Machine

open HostRun Pipeline

/-- What the units make of the pixels `px` under `EXACT`: the color pixels, and of each transform block the coefficients and
the quantized block. -/
structure ForwardStages (c2i : FVal → Fin 16) (px : Nat × Nat → Pixel) (den : Nat) (f : Nat × Nat → ColorPixel)
    (co : Nat × Nat → BlockCoefficients) (q : Nat × Nat → QuantizedBlock) : Prop where
  color : ∀ p, ColorSpace.forward .exact (px p) den = some (f p)
  coeffs : ∀ b : Nat × Nat, BlockTransform.forward .exact (f (2 * b.1, 2 * b.2)) (f (2 * b.1 + 1, 2 * b.2))
    (f (2 * b.1, 2 * b.2 + 1)) (f (2 * b.1 + 1, 2 * b.2 + 1)) = some (co b)
  quantized : ∀ b, Quantizer.quantize .exact c2i (co b) = some (q b)

/-- What the units make of the quantized blocks `q` under `EXACT`: the coefficients of each transform block, the color pixels
and the pixels. -/
structure InverseStages (cfg : Config) (q : Nat × Nat → QuantizedBlock) (co : Nat × Nat → BlockCoefficients)
    (f : Nat × Nat → ColorPixel) (px : Nat × Nat → Pixel) : Prop where
  coeffs : ∀ b, Quantizer.dequantize .exact (indexToChroma cfg) (q b) (Fin.ofNat 16 (q b).indexPb.toNat)
    (Fin.ofNat 16 (q b).indexPr.toNat) = some (co b)
  color : ∀ b, BlockTransform.inverse .exact (co b) = some (corners f b)
  pixel : ∀ p, ColorSpace.inverse .exact (f p) cfg.decompDenom = some (px p)

theorem exists_forwardStages (c2i : FVal → Fin 16) (px : Nat × Nat → Pixel) (den : Nat) :
    ∃ f co q, ForwardStages c2i px den f co q :=
  ⟨_, _, _, fun p => ColorSpace.forward_exact (px p) den, fun _ => BlockTransform.forward_exact .., fun _ =>
    Quantizer.quantize_exact c2i _⟩

theorem exists_inverseStages (cfg : Config) (q : Nat × Nat → QuantizedBlock) : ∃ co f px, InverseStages cfg q co f px := by
  have ⟨co, hco⟩ : ∃ co : Nat × Nat → BlockCoefficients, ∀ b, Quantizer.dequantize .exact (indexToChroma cfg) (q b)
      (Fin.ofNat 16 (q b).indexPb.toNat) (Fin.ofNat 16 (q b).indexPr.toNat) = some (co b) :=
    ⟨_, fun _ => Quantizer.dequantize_exact ..⟩
  have ⟨quads, hquads⟩ : ∃ quads : Nat × Nat → _, ∀ b, BlockTransform.inverse .exact (co b) = some (quads b) :=
    ⟨_, fun _ => BlockTransform.inverse_exact _⟩
  exact ⟨co, ofCorners quads, _, hco, fun b => by rw [corners_ofCorners, hquads], fun _ => ColorSpace.inverse_exact ..⟩

/-- The quantizer's blocks fit their codewords (R203, R221). -/
theorem ForwardStages.fits {c2i : FVal → Fin 16} {px : Nat × Nat → Pixel} {den : Nat} {f : Nat × Nat → ColorPixel}
    {co : Nat × Nat → BlockCoefficients} {q : Nat × Nat → QuantizedBlock} (hst : ForwardStages c2i px den f co q)
    (b : Nat × Nat) : FitsCodeword (q b) := by
  obtain ⟨q', hq', hrange⟩ := Quantizer.quantize_inRange .exact c2i (co b)
  rw [hst.quantized b, Option.some.injEq] at hq'
  exact hq' ▸ Codec.inDeclaredRange_fits hrange

/-! ### The stages that leave the state alone -/

theorem cell_yields {α : Type} {w h : Nat} (f : Nat × Nat → α) {col row : Nat} (hc : col < w) (hr : row < h)
    {s : State} {r : Option Response} :
    (cell (PlainGrid.tabulate w h f) col row (s.setResponse r)).Yields (f (col, row)) s := by
  rw [cell, PlainGrid.at?_tabulate f hc hr]
  exact yields_done _ s

section Stages

variable {s : State} {r : Option Response} (hs : s.fault = 0#3) (hnum : s.cfg.num = .exact) {w h : Nat}
  {f : Nat × Nat → ColorPixel} {co : Nat × Nat → BlockCoefficients} {q : Nat × Nat → QuantizedBlock}
include hs hnum

/-- `Q.QUANT.GRID` (R208). -/
theorem quantGrid_yields (hq : ∀ b, Quantizer.quantize .exact s.cfg.c2i (co b) = some (q b)) :
    (quantGrid (PlainGrid.tabulate w h co) (s.setResponse r)).Yields (PlainGrid.tabulate w h q) s := by
  rw [quantGrid, PlainGrid.tabulate, forEach_map]
  exact (forEach_yields q (fun _ => s) (fun _ b _ _ _ => qQuant_yields hs hnum (hq b)) rfl).andThen fun _ => yields_done _ _

/-- `Q.DEQUANT.GRID` (R208). -/
theorem dequantGrid_yields (hfits : ∀ b : Nat × Nat, b.1 < w → b.2 < h → FitsCodeword (q b))
    (hco : ∀ b, Quantizer.dequantize .exact (indexToChroma s.cfg) (q b) (Fin.ofNat 16 (q b).indexPb.toNat)
      (Fin.ofNat 16 (q b).indexPr.toNat) = some (co b)) :
    (dequantGrid (PlainGrid.tabulate w h q) (s.setResponse r)).Yields (PlainGrid.tabulate w h co) s := by
  rw [dequantGrid, PlainGrid.tabulate, forEach_map]
  refine (forEach_yields co (fun _ => s) (fun before b after hl _ => ?_) rfl).andThen fun _ => yields_done _ _
  obtain ⟨⟨hc, hr⟩, -⟩ := rowMajor_split hl
  exact qDequant_yields hs hnum (hfits b hc hr) (hco b)

section Reading

variable {d : Grid} (hd : d.Shows w h f) (hw : w < 2 ^ s.cfg.argBits) (hh : h < 2 ^ s.cfg.argBits)
include hd hw hh

/-- `BT.FWD` of one transform block of a color grid (R181). -/
theorem btFwdBlock_yields {b : Nat × Nat} (hc : 2 * b.1 + 1 < w) (hr : 2 * b.2 + 1 < h)
    (hco : BlockTransform.forward .exact (f (2 * b.1, 2 * b.2)) (f (2 * b.1 + 1, 2 * b.2))
      (f (2 * b.1, 2 * b.2 + 1)) (f (2 * b.1 + 1, 2 * b.2 + 1)) = some (co b)) :
    (btFwdBlock s.nextHandle b.1 b.2 ((s.withGrid d).setResponse r)).Yields (co b) (s.withGrid d) := by
  have read {col row : Nat} (hcol : col < w) (hrow : row < h) {r : Option Response} :=
    gridAtRd_yields (r := r) hs (hcol.trans hw) (hrow.trans hh) hd hcol hrow
  have hc' : 2 * b.1 < w := by omega
  have hr' : 2 * b.2 < h := by omega
  exact (read hc' hr').andThen fun _ => (read hc hr').andThen fun _ => (read hc' hr).andThen fun _ =>
    (read hc hr).andThen fun _ => btFwd_yields (s := s.withGrid d) hs hnum hco

/-- `BT.FWD.GRID` (R182). -/
theorem btFwdGrid_yields (evenW : w % 2 = 0) (evenH : h % 2 = 0)
    (hco : ∀ b : Nat × Nat, BlockTransform.forward .exact (f (2 * b.1, 2 * b.2)) (f (2 * b.1 + 1, 2 * b.2))
      (f (2 * b.1, 2 * b.2 + 1)) (f (2 * b.1 + 1, 2 * b.2 + 1)) = some (co b)) :
    (btFwdGrid s.nextHandle ((s.withGrid d).setResponse r)).Yields (PlainGrid.tabulate (w / 2) (h / 2) co)
      (s.withGrid d) := by
  refine (gridWidth_yields hs).andThen fun _ => (gridHeight_yields hs).andThen fun _ => ?_
  rw [hd.width, hd.height, if_neg (by omega)]
  refine (forEach_yields co (fun _ => s.withGrid d) (fun before b after hl _ => ?_) rfl).andThen fun _ =>
    yields_done _ _
  obtain ⟨⟨hc, hr⟩, -⟩ := rowMajor_split hl
  exact btFwdBlock_yields hs hnum hd hw hh (by omega) (by omega) (hco b)

/-- `CSC.INV.GRID` (R163). -/
theorem cscInvGrid_yields {px : Nat × Nat → Pixel} {den : Nat} (h0 : 0 < den) (hden : den < 2 ^ s.cfg.chBits)
    (hpx : ∀ p, ColorSpace.inverse .exact (f p) den = some (px p)) :
    (cscInvGrid s.nextHandle den ((s.withGrid d).setResponse r)).Yields ⟨PlainGrid.tabulate w h px, den⟩
      (s.withGrid d) := by
  refine (gridWidth_yields hs).andThen fun _ => (gridHeight_yields hs).andThen fun _ => ?_
  rw [hd.width, hd.height]
  refine (forEach_yields px (fun _ => s.withGrid d) (fun before p after hl _ => ?_) rfl).andThen fun _ =>
    yields_done _ _
  obtain ⟨⟨hc, hr⟩, -⟩ := rowMajor_split hl
  exact (gridAtRd_yields hs (hc.trans hw) (hr.trans hh) hd hc hr).andThen fun _ =>
    cscInv_yields (s := s.withGrid d) hs hnum h0 hden (hpx p)

end Reading

/-! ### The stages that create a color grid -/

section Writing

variable (hw : w < 2 ^ s.cfg.argBits) (hh : h < 2 ^ s.cfg.argBits) (h0 : 0 < s.cfg.sizeofColorPixel)
  (hes : s.cfg.sizeofColorPixel < 2 ^ s.cfg.argBits)
include hw hh

/-- One more position of a grid that is being painted. -/
theorem paint_yields {d : Grid} (hdw : d.width = w) (hdh : d.height = h) (ps : List (Nat × Nat)) {col row : Nat}
    (hc : col < w) (hr : row < h) :
    (call (.gridAtWr s.nextHandle col row (.color (f (col, row))))
      ((s.withGrid (Grid.paint f ps d)).setResponse r)).Yields (some (.grid s.nextHandle))
      (s.withGrid (Grid.paint f (ps ++ [(col, row)]) d)) := by
  obtain ⟨hwidth, hheight, -⟩ := Grid.paint_descriptor (f := f) ps d
  rw [Grid.paint_append]
  exact gridAtWr_yields hs (hc.trans hw) (hr.trans hh) hnum (by omega) (by omega) _

include h0 hes

/-- `CSC.FWD.GRID` (R161): the traversal paints every position. -/
theorem cscFwdGrid_yields {px : Nat × Nat → Pixel} {den : Nat}
    (hpx : ∀ p : Nat × Nat, p.1 < w → p.2 < h → ColorSpace.pixelInRange (px p) den = true) (hden : den < 2 ^ s.cfg.chBits)
    (hf : ∀ p, ColorSpace.forward .exact (px p) den = some (f p)) :
    ∃ d : Grid, d.Shows w h f ∧
      (cscFwdGrid ⟨PlainGrid.tabulate w h px, den⟩ (s.setResponse r)).Yields s.nextHandle (s.withGrid d) := by
  have hshows := Grid.shows_paint (f := f) (d := Grid.blank w h s.cfg.sizeofColorPixel) (defaultBlocking_pos _)
    (fun _ => Grid.mem_traversal (defaultBlocking_pos _))
  refine ⟨_, hshows, (gridNewdef_yields hs hw hh h0 hes).andThen fun _ => (gridForeach_yields hs).andThen fun _ => ?_⟩
  refine (forEach_yields (fun _ => some (.grid s.nextHandle))
    (fun ps => s.withGrid (Grid.paint f ps (Grid.blank w h s.cfg.sizeofColorPixel))) (fun ps p after hl _ => ?_)
    rfl).andThen fun _ => yields_done _ _
  obtain ⟨hc, hr⟩ := (Grid.mem_traversal (defaultBlocking_pos _)).1 (hl ▸ List.mem_append_right ps List.mem_cons_self)
  exact (cell_yields px hc hr).andThen fun _ =>
    (cscFwd_yields (s := s.withGrid _) hs hnum (hpx p hc hr) hden (hf p)).andThen fun _ =>
      paint_yields hs hnum hw hh rfl rfl ps hc hr

end Writing

/-- `BT.INV` of one transform block, its four pixels written (R185). -/
theorem btInvBlock_yields {d : Grid} {b : Nat × Nat} (hwidth : d.width < 2 ^ s.cfg.argBits)
    (hheight : d.height < 2 ^ s.cfg.argBits) (hc : 2 * b.1 + 1 < d.width) (hr : 2 * b.2 + 1 < d.height)
    (hf : BlockTransform.inverse .exact (co b) = some (corners f b)) (ps : List (Nat × Nat)) :
    (btInvBlock s.nextHandle (co b) b.1 b.2 ((s.withGrid (Grid.paint f ps d)).setResponse r)).Yields
      (some (.grid s.nextHandle)) (s.withGrid (Grid.paint f (ps ++ blockPixels b) d)) := by
  have write {col row : Nat} (ps : List (Nat × Nat)) (hcol : col < d.width) (hrow : row < d.height)
      {r : Option Response} := paint_yields (f := f) hs hnum hwidth hheight rfl (r := r) rfl ps hcol hrow
  have hc' : 2 * b.1 < d.width := by omega
  have hr' : 2 * b.2 < d.height := by omega
  have hfour : ps ++ blockPixels b = ps ++ [(2 * b.1, 2 * b.2)] ++ [(2 * b.1 + 1, 2 * b.2)] ++
      [(2 * b.1, 2 * b.2 + 1)] ++ [(2 * b.1 + 1, 2 * b.2 + 1)] := by simp [blockPixels]
  rw [hfour]
  exact (btInv_yields (s := s.withGrid (Grid.paint f ps d)) hs hnum hf).andThen fun _ =>
    (write ps hc' hr').andThen fun _ => (write _ hc hr').andThen fun _ => (write _ hc' hr).andThen fun _ =>
      write _ hc hr

/-- `BT.INV.GRID` (R185): the transform blocks cover the positions. -/
theorem btInvGrid_yields (hw : 2 * w < 2 ^ s.cfg.argBits) (hh : 2 * h < 2 ^ s.cfg.argBits) (h0 : 0 < s.cfg.sizeofColorPixel)
    (hes : s.cfg.sizeofColorPixel < 2 ^ s.cfg.argBits)
    (hf : ∀ b, BlockTransform.inverse .exact (co b) = some (corners f b)) :
    ∃ d : Grid, d.Shows (2 * w) (2 * h) f ∧
      (btInvGrid (PlainGrid.tabulate w h co) (s.setResponse r)).Yields s.nextHandle (s.withGrid d) := by
  have hshows := Grid.shows_paint (f := f) (d := Grid.blank (2 * w) (2 * h) s.cfg.sizeofColorPixel)
    (defaultBlocking_pos _) (fun _ => mem_flatMap_blockPixels)
  refine ⟨_, hshows, (gridNewdef_yields hs hw hh h0 hes).andThen fun _ => ?_⟩
  refine (forEach_yields (fun _ => some (.grid s.nextHandle))
    (fun bs => s.withGrid (Grid.paint f (bs.flatMap blockPixels) (Grid.blank (2 * w) (2 * h) s.cfg.sizeofColorPixel)))
    (fun bs b after hl _ => ?_) rfl).andThen fun _ => yields_done _ _
  have ⟨⟨hc, hr⟩, _⟩ := rowMajor_split (w := w) (h := h) hl
  rw [List.flatMap_append, List.flatMap_singleton]
  exact (cell_yields co hc hr).andThen fun _ => btInvBlock_yields hs hnum (d := Grid.blank (2 * w) (2 * h) _) hw hh
    (show 2 * b.1 + 1 < 2 * w by omega) (show 2 * b.2 + 1 < 2 * h by omega) (hf b) _

end Stages

end Sys2Proof.Machine
end

section
/-! PROOFS. `COMPRESS` in both forms and `DECOMPRESS` under `EXACT` (rules R261 to R263): the state each of them ends in, and
what their statements say of it. -/

namespace Sys2Proof.Machine

open HostRun Pipeline

/-- A body has one codeword for each transform block of the image (R34, R89). -/
theorem length_map_rowMajor {α : Type} (w h : Nat) (g : Nat × Nat → α) :
    ((rowMajor (w / 2) (h / 2)).map g).length = Framer.blockCount w h := by
  rw [List.length_map, rowMajor_length]
  rfl

/-- When the body is written whole, the output is committed (R35, R242). -/
theorem committed_sent {s : State} (hs : s.fault = 0#3) (w h : Nat) (q : Nat × Nat → QuantizedBlock)
    (r : Option Response) : Committed (((s.headed w h).sent ((rowMajor (w / 2) (h / 2)).map q)).setResponse r) := by
  refine ⟨?_, hs⟩
  change modeAfter .tx (Framer.blockCount w h - _) = .done
  rw [length_map_rowMajor, Nat.sub_self]
  rfl

/-- When the body is read whole, the framer is done (R242). -/
theorem frMode_received (s : State) (w h : Nat) :
    ((s.opened w h).received (rowMajor (w / 2) (h / 2)).length).frMode = .done := by
  change modeAfter .rx (Framer.blockCount w h - _) = .done
  rw [← List.length_map (f := id), length_map_rowMajor, Nat.sub_self]
  rfl

/-- An image a host may compress is the tabulation of pixels in the range of its denominator. -/
theorem Image.valid.exists_tabulate {img : Image} (hv : img.valid) : ∃ w h den px,
    img = ⟨PlainGrid.tabulate w h px, den⟩ ∧ w % 2 = 0 ∧ h % 2 = 0 ∧
      ∀ p : Nat × Nat, p.1 < w → p.2 < h → ColorSpace.pixelInRange (px p) den = true := by
  obtain ⟨⟨w, h, cells⟩, den⟩ := img
  obtain ⟨evenW, evenH, hlen, h0, hrange⟩ := hv
  obtain ⟨px, hcells⟩ : ∃ px, cells = (rowMajor w h).map px := exists_eq_map_rowMajor ⟨0, 0, 0⟩ hlen
  subst hcells
  exact ⟨w, h, den, px, rfl, evenW, evenH, fun p hc hr =>
    pixelInRange_iff.2 ⟨h0.ne', hrange _ (List.mem_map_of_mem (mem_rowMajor.2 ⟨hc, hr⟩))⟩⟩

section Compress

variable {s : State} {r : Option Response} (hs : s.fault = 0#3) (hnum : s.cfg.num = .exact)
  {w h den : Nat} {px : Nat × Nat → Pixel} {f : Nat × Nat → ColorPixel}
  {co : Nat × Nat → BlockCoefficients} {q : Nat × Nat → QuantizedBlock} (hst : ForwardStages s.cfg.c2i px den f co q)
  (hpx : ∀ p : Nat × Nat, p.1 < w → p.2 < h → ColorSpace.pixelInRange (px p) den = true)
include hst

/-- The composition of the units on a transform block (R262). -/
theorem blockOf_eq {b : Nat × Nat} (hc : 2 * b.1 + 1 < w) (hr : 2 * b.2 + 1 < h) :
    blockOf .exact s.cfg.c2i ⟨PlainGrid.tabulate w h px, den⟩ b.1 b.2 = some (q b) := by
  have at? {col row : Nat} (hcol : col < w) (hrow : row < h) := PlainGrid.at?_tabulate px hcol hrow
  have hc' : 2 * b.1 < w := by omega
  have hr' : 2 * b.2 < h := by omega
  simp only [blockOf, at? hc' hr', at? hc hr', at? hc' hr, at? hc hr, hst.color, hst.coeffs, hst.quantized,
    Option.bind_eq_bind, Option.bind_some]

include hs hnum hpx

/-- The fused form's work on one transform block (R262). -/
theorem quantizedBlock_yields (hden : den < 2 ^ s.cfg.chBits) {b : Nat × Nat} (hc : 2 * b.1 + 1 < w) (hr : 2 * b.2 + 1 < h) :
    (quantizedBlock ⟨PlainGrid.tabulate w h px, den⟩ b.1 b.2 (s.setResponse r)).Yields (q b) s := by
  have color {col row : Nat} (hcol : col < w) (hrow : row < h) {r : Option Response} :
      ((cell (PlainGrid.tabulate w h px) col row (s.setResponse r)).andThen fun px s =>
        callFor (.cscFwd px den) Result.color? s).Yields (f (col, row)) s :=
    (cell_yields px hcol hrow).andThen fun _ =>
      cscFwd_yields hs hnum (hpx (col, row) hcol hrow) hden (hst.color _)
  have hc' : 2 * b.1 < w := by omega
  have hr' : 2 * b.2 < h := by omega
  exact (color hc' hr').andThen fun _ => (color hc hr').andThen fun _ => (color hc' hr).andThen fun _ =>
    (color hc hr).andThen fun _ => (btFwd_yields hs hnum (hst.coeffs b)).andThen fun _ =>
      qQuant_yields hs hnum (hst.quantized b)

variable (hmode : s.frMode = .idle) (evenW : w % 2 = 0) (evenH : h % 2 = 0)
  (hw : w < 2 ^ s.cfg.dimBits) (hh : h < 2 ^ s.cfg.dimBits) (hden : den < 2 ^ s.cfg.chBits)
include hmode evenW evenH hw hh hden

/-- `COMPRESS` in the fused form (R262). -/
theorem compressFused_yields : (compressFused ⟨PlainGrid.tabulate w h px, den⟩ s).Yields ()
    ((s.headed w h).sent ((rowMajor (w / 2) (h / 2)).map q)) := by
  refine (frHdrw_yields (r := s.response) hs hmode evenW evenH hw hh).andThen fun _ => ?_
  refine (forEach_yields (fun _ => none) (fun bs => (s.headed w h).sent (bs.map q)) (fun bs b after hl _ => ?_)
    (State.sent_nil rfl)).andThen fun _ => yields_done _ _
  have ⟨⟨hc, hr⟩, hlt⟩ := rowMajor_split (w := w / 2) (h := h / 2) hl
  rw [List.map_append]
  exact (quantizedBlock_yields (s := (s.headed w h).sent (bs.map q)) (b := b) hs hnum hst hpx hden (by omega)
    (by omega)).andThen fun _ =>
      frPut_yields (s := s.headed w h) hs ((List.length_map _).trans_lt hlt) (hst.fits b)

/-- `COMPRESS` in the staged form (R261): the color grid is released before the header is written. -/
theorem compress_yields (hi : GridsInv s) (hwa : w < 2 ^ s.cfg.argBits) (hha : h < 2 ^ s.cfg.argBits)
    (h0 : 0 < s.cfg.sizeofColorPixel) (hes : s.cfg.sizeofColorPixel < 2 ^ s.cfg.argBits) :
    (compress ⟨PlainGrid.tabulate w h px, den⟩ s).Yields ()
      (((s.setNextHandle (s.nextHandle + 1)).headed w h).sent ((rowMajor (w / 2) (h / 2)).map q)) := by
  obtain ⟨d, hd, hcsc⟩ := cscFwdGrid_yields hs hnum hwa hha h0 hes hpx hden hst.color
  refine hcsc.andThen fun _ => (btFwdGrid_yields hs hnum hd hwa hha evenW evenH hst.coeffs).andThen fun _ => ?_
  refine (gridFree_yields hs hi).andThen fun _ => ?_
  refine (quantGrid_yields (s := s.setNextHandle (s.nextHandle + 1)) hs hnum hst.quantized).andThen fun _ => ?_
  refine (frHdrw_yields (s := s.setNextHandle (s.nextHandle + 1)) hs hmode evenW evenH hw hh).andThen fun _ => ?_
  simp only [PlainGrid.tabulate, forEach_map]
  refine (forEach_yields (fun _ => none) (fun bs => ((s.setNextHandle (s.nextHandle + 1)).headed w h).sent (bs.map q))
    (fun bs b after hl _ => ?_) (State.sent_nil rfl)).andThen fun _ => yields_done _ _
  obtain ⟨-, hlt⟩ := rowMajor_split hl
  rw [List.map_append]
  exact frPut_yields (s := (s.setNextHandle (s.nextHandle + 1)).headed w h) hs ((List.length_map _).trans_lt hlt)
    (hst.fits b)

end Compress

/-- After the header the body is what is left. -/
theorem remaining_opened {s : State} {w h : Nat} {bs : List Byte} (hin : remaining s = Framer.header w h ++ bs) :
    remaining (s.opened w h) = bs := by
  have hdrop : remaining (s.opened w h) = (remaining s).drop (Framer.header w h).length := (List.drop_drop ..).symm
  rw [hdrop, hin, List.drop_left]

/-- The codewords of the body, one after the other. -/
theorem readBody_yields {s : State} {r : Option Response} (hs : s.fault = 0#3) {w h : Nat}
    {q : Nat × Nat → QuantizedBlock} (hfits : ∀ b : Nat × Nat, b.1 < w / 2 → b.2 < h / 2 → FitsCodeword (q b))
    {rest : List Byte}
    (hin : remaining (s.opened w h) = Codec.bodyOf ((rowMajor (w / 2) (h / 2)).map q) ++ rest) :
    (forEach (fun (_ : Nat × Nat) s => callFor .frGet Result.quantized? s) (rowMajor (w / 2) (h / 2))
      ((s.opened w h).setResponse r)).Yields ((rowMajor (w / 2) (h / 2)).map q)
      ((s.opened w h).received (rowMajor (w / 2) (h / 2)).length) := by
  refine forEach_yields q (fun bs => (s.opened w h).received bs.length) (fun bs b after hl _ => ?_)
    (State.received_zero rfl)
  obtain ⟨⟨hc, hr⟩, hlt⟩ := rowMajor_split hl
  rw [List.length_append]
  refine frGet_yields (s := s.opened w h) (rest := Codec.bodyOf (after.map q) ++ rest) hs hlt (hfits b hc hr) ?_
  rw [hin, ← hl, List.map_append, ← List.length_map (f := q), Codec.drop_bodyOf_append, List.map_cons,
    Codec.bodyOf_cons, List.append_assoc]

section Decompress

variable {s : State} {r : Option Response} (hs : s.fault = 0#3) (hnum : s.cfg.num = .exact) {w h : Nat}
  {px : Nat × Nat → Pixel} {f : Nat × Nat → ColorPixel} {co : Nat × Nat → BlockCoefficients}
  {q : Nat × Nat → QuantizedBlock} (hst : InverseStages s.cfg q co f px)
include hnum hst

/-- The composition of the units on a codeword (R263, R264). -/
theorem pixelsOf_eq {b : Nat × Nat} (hq : FitsCodeword (q b)) :
    pixelsOf s.cfg (Codec.toBytes (Codec.packed (q b))) = some (corners px b) := by
  simp only [pixelsOf, Codec.decode_toBytes_packed hq, Except.toOption, hnum, hst.coeffs, hst.color, corners, hst.pixel,
    Option.bind_eq_bind, Option.bind_some, Option.pure_def]

include hs

variable (hi : GridsInv s) (evenW : w % 2 = 0) (evenH : h % 2 = 0) (hwa : w < 2 ^ s.cfg.argBits)
  (hha : h < 2 ^ s.cfg.argBits) (h0 : 0 < s.cfg.sizeofColorPixel) (hes : s.cfg.sizeofColorPixel < 2 ^ s.cfg.argBits)
  (hd0 : 0 < s.cfg.decompDenom) (hden : s.cfg.decompDenom < 2 ^ s.cfg.chBits)
  (hfits : ∀ b : Nat × Nat, b.1 < w / 2 → b.2 < h / 2 → FitsCodeword (q b))
include hi evenW evenH hwa hha h0 hes hd0 hden hfits

/-- The stages of `DECOMPRESS` after the body is read. -/
theorem rebuild_yields : ((dequantGrid (PlainGrid.tabulate (w / 2) (h / 2) q) (s.setResponse r)).andThen fun kg s =>
    (btInvGrid kg s).andThen fun cg s => (cscInvGrid cg s.cfg.decompDenom s).andThen fun img s =>
      (call (.gridFree cg) s).andThen fun _ s => .done img s).Yields
    ⟨PlainGrid.tabulate w h px, s.cfg.decompDenom⟩ (s.setNextHandle (s.nextHandle + 1)) := by
  have hW : 2 * (w / 2) = w := by omega
  have hH : 2 * (h / 2) = h := by omega
  refine (dequantGrid_yields hs hnum hfits hst.coeffs).andThen fun _ => ?_
  obtain ⟨d, hd, hinv⟩ := btInvGrid_yields hs hnum (hW.symm ▸ hwa) (hH.symm ▸ hha) h0 hes hst.color
  rw [hW, hH] at hd
  exact hinv.andThen fun _ => (cscInvGrid_yields hs hnum hd hwa hha hd0 hden hst.pixel).andThen fun _ =>
    (gridFree_yields hs hi).andThen fun _ => yields_done _ _

/-- `DECOMPRESS` (R263). -/
theorem decompress_yields (hmode : s.frMode = .idle) (hw : w < 2 ^ s.cfg.dimBits) (hh : h < 2 ^ s.cfg.dimBits)
    {rest : List Byte}
    (hin : remaining s = Framer.header w h ++ (Codec.bodyOf ((rowMajor (w / 2) (h / 2)).map q) ++ rest)) :
    (decompress s).Yields ⟨PlainGrid.tabulate w h px, s.cfg.decompDenom⟩
      (((s.opened w h).received (rowMajor (w / 2) (h / 2)).length).setNextHandle (s.nextHandle + 1)) :=
  (frHdrr_yields (r := s.response) hs hmode evenW evenH hw hh hin).andThen fun _ =>
    (readBody_yields hs hfits (remaining_opened hin)).andThen fun _ =>
      rebuild_yields (s := (s.opened w h).received (rowMajor (w / 2) (h / 2)).length) hs hnum hst hi evenW evenH hwa hha
        h0 hes hd0 hden hfits

end Decompress

/-! ### The statements -/

/-- Settles O58: the fused form sends the blocks of the image in row-major order. -/
theorem compressionWritesTheStreamOfTheImage : Obligations.CompressionWritesTheStreamOfTheImage := by
  intro s img hs hmode hnum hv hw hh hden
  obtain ⟨w, h, den, px, rfl, evenW, evenH, hpx⟩ := hv.exists_tabulate
  obtain ⟨f, co, q, hst⟩ := exists_forwardStages s.cfg.c2i px den
  obtain ⟨r, hrun⟩ := compressFused_yields hs hnum hst hpx hmode evenW evenH hw hh hden
  refine ⟨_, Codec.bodyOf ((rowMajor (w / 2) (h / 2)).map q), hrun, committed_sent hs w h q r, rfl,
    (Codec.bodyOf_length _).trans (congrArg (4 * ·) (length_map_rowMajor w h q)), fun k hk => ?_⟩
  have hget : (rowMajor (w / 2) (h / 2))[k]? = some (k % (w / 2), k / (w / 2)) := rowMajor_get hk
  have ⟨hc, hr⟩ : k % (w / 2) < w / 2 ∧ k / (w / 2) < h / 2 := mem_rowMajor.1 (List.mem_of_getElem? hget)
  have hword : ((rowMajor (w / 2) (h / 2)).map q)[k]? = some (q (k % (w / 2), k / (w / 2))) := by
    rw [List.getElem?_map, hget, Option.map_some]
  refine ⟨_, Codec.packed (q (k % (w / 2), k / (w / 2))), blockOf_eq (b := (k % (w / 2), k / (w / 2))) hst (by omega)
    (by omega), (Codec.encode_of_fits (hst.fits _)).trans ?_⟩
  rw [Codec.codeword_bodyOf hword]

/-- Settles O59: both forms send the same blocks after the same header, and the staged form's grid is released before. -/
theorem stagedCompressionEqualsTheFusedForm : Obligations.StagedCompressionEqualsTheFusedForm := by
  intro s img hs hmode hnum hi hv hw hh hwa hha hden h0 hes
  obtain ⟨w, h, den, px, rfl, evenW, evenH, hpx⟩ := hv.exists_tabulate
  obtain ⟨f, co, q, hst⟩ := exists_forwardStages s.cfg.c2i px den
  obtain ⟨r, hstaged⟩ := compress_yields hs hnum hst hpx hmode evenW evenH hw hh hden hi hwa hha h0 hes
  obtain ⟨r', hfused⟩ := compressFused_yields hs hnum hst hpx hmode evenW evenH hw hh hden
  exact ⟨_, _, hstaged, hfused,
    committed_sent (s := s.setNextHandle (s.nextHandle + 1)) hs w h q r, rfl, fun _ => rfl⟩

/-- Settles O60: the body is the codewords of some blocks, which the stages of `DECOMPRESS` carry to pixels one by one. -/
theorem decompressionRebuildsTheImage : Obligations.DecompressionRebuildsTheImage := by
  intro s w h body rest hs hmode hnum hi evenW evenH hw hh hwa hha h0 hes hd0 hden _ hin hlen
  obtain ⟨qs, rfl, hqs, hfits⟩ := Codec.exists_bodyOf hlen
  obtain ⟨q, rfl⟩ := exists_eq_map_rowMajor ⟨0, 0, 0, 0, 0, 0⟩ hqs
  have hfit (b : Nat × Nat) (hc : b.1 < w / 2) (hr : b.2 < h / 2) : FitsCodeword (q b) :=
    hfits _ (List.mem_map_of_mem (mem_rowMajor.2 ⟨hc, hr⟩))
  obtain ⟨co, f, px, hst⟩ := exists_inverseStages s.cfg q
  rw [List.append_assoc] at hin
  obtain ⟨r, hrun⟩ := decompress_yields hs hnum hst hi evenW evenH hwa hha h0 hes hd0 hden hfit hmode hw hh hin
  refine ⟨_, _, hrun, ⟨frMode_received s w h, hs⟩, rfl, ?_, fun _ => rfl, rfl, rfl, ?_, rfl, fun bc br hbc hbr => ?_⟩
  · change s.inPos + _ + 4 * _ = s.inPos + _ + _
    rw [Codec.bodyOf_length, List.length_map]
  · exact (List.length_map _).trans (rowMajor_length w h)
  · have at? {col row : Nat} (hc : col < w) (hr : row < h) := PlainGrid.at?_tabulate px hc hr
    have hc : 2 * bc < w := by omega
    have hr : 2 * br < h := by omega
    have hc' : 2 * bc + 1 < w := by omega
    have hr' : 2 * br + 1 < h := by omega
    refine ⟨_, _, _, _, ?_, at? hc hr, at? hc' hr, at? hc hr', at? hc' hr'⟩
    have hword : ((rowMajor (w / 2) (h / 2)).map q)[br * (w / 2) + bc]? = some (q (bc, br)) :=
      PlainGrid.at?_tabulate q hbc hbr
    rw [Codec.codeword_bodyOf hword]
    exact pixelsOf_eq hnum hst (hfit (bc, br) hbc hbr)

end Sys2Proof.Machine
end

section
/-! PROOFS. Faults and the halt (60_exceptions.md): what a halted block answers, what a fault leaves alone, and when an
operation faults, once for each shared operation and from that for every instruction. -/

namespace Sys2Proof.Machine

/-! ### The halt (R283) -/

/-- Settles O2: every operation gets the one answer of the halt, and a step that is no reset is a wait or that answer. -/
theorem haltedBlockOnlyAnswersItsCode : Obligations.HaltedBlockOnlyAnswersItsCode := by
  intro s hs
  have answered (rest : List HostAction) (i : Instr) : exec i ((s.setHost rest).setResponse none) =
      .next ((s.setHost rest).setResponse (some ⟨s.fault, none⟩)) := exec_halted (by exact hs) i
  refine ⟨exec_halted hs, fun c rest i hhost hdecode hwf => ?_, fun hcommitted => hs hcommitted.2, fun t h => ?_⟩
  · exact (stepExecutesTheDecodedInstruction s c rest i hhost hdecode hwf).trans (answered rest i)
  · obtain ⟨-, rfl⟩ | ⟨input, rest, hhost, -⟩ | ⟨c, rest, i, -, -, -, hexec⟩ := step_cases h
    · exact .inl rfl
    · exact .inr ⟨input, rest, hhost⟩
    · rw [answered] at hexec
      cases hexec
      exact .inl rfl

/-! ### What a fault leaves alone (R280) -/

/-- An operation of a running block leaves `FAULT` at 0, or takes a fault and does nothing else, or takes the fault of a
truncated read. -/
theorem Effect.fault_cases {i : Instr} {s t : State} (hs : s.fault = 0#3) (he : Effect i s t) :
    t.fault = 0#3 ∨ (∃ e, t = s.faulting e) ∨ ((i = .frHdrr ∨ i = .frGet) ∧
      t = ((s.setInPos (s.inPos + Config.truncatedTake s.freeCount % ((remaining s).length + 1))).setFreeCount
        (s.freeCount + 1)).faulting .truncatedStreamError) := by
  cases he with
  | faulted e => exact .inr (.inl ⟨e, rfl⟩)
  | truncated reads => exact .inr (.inr ⟨reads, rfl⟩)
  | _ => exact .inl hs

/-- Settles O5: a fault writes the code and the response, and a truncated read `IN.pos` and the counter besides. -/
theorem faultsArePrecise : Obligations.FaultsArePrecise := by
  intro i s t hs hexec ht
  obtain hzero | ⟨e, rfl⟩ | ⟨reads, rfl⟩ := (exec_effect hs hexec).fault_cases hs
  · exact absurd hzero ht
  · exact ⟨⟨e, rfl⟩, rfl, fun _ _ => rfl, le_rfl, id⟩
  · refine ⟨⟨.truncatedStreamError, rfl⟩, rfl, fun hHdrr hGet => ?_, Nat.le_add_right _ _, fun hin => inPos_add_truncatedTake_le hin _⟩
    exact absurd reads (not_or.2 ⟨hHdrr, hGet⟩)

/-! ### The errors of the units' functions (R281) -/

namespace BitField

/-- Where nothing but the parameter check can fail, the error is that of a field that leaves the word (R110). -/
theorem checked_ok_error {α : Type} {a : α} {width lsb : Nat} {e : ErrorKind} :
    checked width lsb (.ok a) = .error e ↔ e = .rangeError ∧ 64 < width + lsb := by
  obtain h | h := le_or_gt (width + lsb) 64
  · simp [checked_pos h, h]
  · simp [checked_neg h, h, eq_comm]

end BitField

namespace Codec

theorem encode_error {q : QuantizedBlock} {e : ErrorKind} :
    encode q = .error e ↔ e = .overflowError ∧ ¬ FitsCodeword q := by
  by_cases h : FitsCodeword q
  · simp [encode_of_fits h, h]
  · simp [encode_of_not_fits h, h, eq_comm]

theorem decode_error {bs : List Byte} {e : ErrorKind} :
    decode bs = .error e ↔ e = .truncatedStreamError ∧ bs.length < 4 := by
  obtain h | h := lt_or_ge bs.length 4
  · simp [decode_short h, h, eq_comm]
  · obtain ⟨b0, b1, b2, b3, rest, rfl⟩ := four_of_length h
    simp [decode_four]

end Codec

/-! ### When an operation faults: answers -/

/-- The step goes to a state with the code of `e` in `FAULT` (R280). -/
def Faults (e : ErrorKind) (x : StepResult) : Prop := ∃ t, x = .next t ∧ t.fault = e.code

section

variable {e : ErrorKind} {s : State}

@[simp] theorem not_faults_refused (r : Refusal) : ¬ Faults e (.refused r) := fun ⟨_, h, _⟩ => nomatch h

theorem faults_next {t : State} : Faults e (.next t) ↔ t.fault = e.code :=
  ⟨fun ⟨_, h, hcode⟩ => Host.Outcome.next.inj h ▸ hcode, fun hcode => ⟨t, rfl, hcode⟩⟩

@[simp] theorem not_faults_deliver (hs : s.fault = 0#3) (r : Result) : ¬ Faults e (deliver r s) := fun h =>
  e.code_ne_zero ((faults_next.1 h).symm.trans hs)

@[simp] theorem not_faults_complete (hs : s.fault = 0#3) : ¬ Faults e (complete s) := fun h =>
  e.code_ne_zero ((faults_next.1 h).symm.trans hs)

@[simp] theorem faults_raise (hs : s.fault = 0#3) (e' : ErrorKind) : Faults e (raise e' s) ↔ e = e' := by
  rw [raise_running hs, faults_next]
  exact ⟨fun h => (ErrorKind.code_injective h).symm, fun h => h ▸ rfl⟩

@[simp] theorem faults_raiseTruncated (hs : s.fault = 0#3) : Faults e (raiseTruncated s) ↔ e = .truncatedStreamError :=
  faults_raise (by exact hs) _

@[simp] theorem not_faults_newGrid (hs : s.fault = 0#3) (w h es bs : Nat) : ¬ Faults e (newGrid w h es bs s) :=
  not_faults_deliver (by exact hs) _

/-- An operation that computes its result or an error faults exactly with the error. -/
theorem faults_finish (hs : s.fault = 0#3) {r : Except ErrorKind Result} : Faults e (finish r s) ↔ r = .error e := by
  cases r with
  | ok v => simp [finish_ok, hs]
  | error e' => simp [finish_error, hs, eq_comm]

theorem faults_finish_map (hs : s.fault = 0#3) {α : Type} {r : Except ErrorKind α} {result : α → Result} :
    Faults e (finish (r.map result) s) ↔ r = .error e := by
  rw [faults_finish hs]
  cases r <;> simp [Except.map]

/-- An operation on values of `F` never faults: it completes or is refused. -/
@[simp] theorem not_faults_finishF (hs : s.fault = 0#3) (r : Option Result) : ¬ Faults e (finishF r s) := by
  cases r with
  | none => exact not_faults_refused _
  | some v => exact not_faults_deliver hs v

/-! ### When an operation faults: guards -/

@[simp] theorem faults_withLive (g : Handle) (k : Grid → StepResult) :
    Faults e (withLive g s k) ↔ ∃ d, Store.find g s.grids = some d ∧ Faults e (k d) := by
  cases hd : Store.find g s.grids with
  | none => simp [withLive_none hd]
  | some d => simp [withLive_some hd]

@[simp] theorem faults_inMode (m : FrMode) (x : StepResult) :
    Faults e (Framer.inMode m s x) ↔ s.frMode = m ∧ Faults e x := by
  by_cases hm : s.frMode = m
  · simp [Framer.inMode_pos hm, hm]
  · simp [Framer.inMode_neg hm, hm]

@[simp] theorem faults_ite (c : Prop) [Decidable c] (x y : StepResult) :
    Faults e (if c then x else y) ↔ (c ∧ Faults e x) ∨ (¬ c ∧ Faults e y) := by
  by_cases hc : c <;> simp [hc]

@[simp] theorem not_faults_queryGrid (hs : s.fault = 0#3) (g : Handle) (f : Grid → Nat) : ¬ Faults e (queryGrid g f s) := by
  simp [queryGrid, hs]

/-! ### Instructions that look at what an accessor gave -/

variable (hs : s.fault = 0#3)
include hs

theorem faults_gridAtRd (g : Handle) (col row : Nat) :
    Faults e (exec (.gridAtRd g col row) s) ↔ e = .rangeError ∧ OutOfBounds s g col row := by
  rw [exec, execGridAtRd, issue_running hs, faults_withLive, OutOfBounds, ← exists_and_left]
  refine exists_congr fun d => ?_
  cases hin : d.inBounds col row with
  | false => simp [hs, ← Grid.inBounds_eq_false, hin, and_comm]
  | true => cases hread : d.memRead col row <;> simp [hs, ← Grid.inBounds_eq_false, hin]

theorem faults_gridAtWr (g : Handle) (col row : Nat) (elem : Elem) :
    Faults e (exec (.gridAtWr g col row elem) s) ↔ e = .rangeError ∧ OutOfBounds s g col row := by
  rw [exec, execGridAtWr, issue_running hs, faults_withLive, OutOfBounds, ← exists_and_left]
  refine exists_congr fun d => ?_
  cases hin : d.inBounds col row <;> simp [hs, ← Grid.inBounds_eq_false, hin, and_comm]

theorem not_faults_qDequant (q : QuantizedBlock) : ¬ Faults e (exec (.qDequant q) s) := by
  rw [exec, execQDequant, issue_running hs]
  split_ifs <;> simp [hs]

theorem faults_frPut (q : QuantizedBlock) :
    Faults e (exec (.frPut q) s) ↔ e = .overflowError ∧ s.frMode = .tx ∧ ¬ FitsCodeword q := by
  rw [exec, execFrPut, issue_running hs, faults_inMode, and_left_comm, ← Codec.encode_error]
  refine and_congr_right fun _ => ?_
  cases Codec.encode q with
  | ok r => exact iff_of_false (not_faults_complete hs) (nomatch ·)
  | error e' => simp [hs, eq_comm]

theorem faults_frHdrr : Faults e (exec .frHdrr s) ↔ s.frMode = .idle ∧
    ((e = .truncatedStreamError ∧ Framer.scanHeader (2 ^ s.cfg.dimBits) (remaining s) = .truncated) ∨
      (e = .formatError ∧ Framer.scanHeader (2 ^ s.cfg.dimBits) (remaining s) = .format)) := by
  rw [exec, execFrHdrr, issue_running hs, faults_inMode]
  refine and_congr_right fun _ => ?_
  cases Framer.scanHeader (2 ^ s.cfg.dimBits) (remaining s) with
  | ok d rest => simpa using not_faults_deliver (by exact hs) _
  | truncated => simp [hs]
  | format => simp [hs]
  | refused r => simp

theorem faults_frGet :
    Faults e (exec .frGet s) ↔ e = .truncatedStreamError ∧ s.frMode = .rx ∧ (remaining s).length < 4 := by
  have hshort : (streamGet 4 s).1.length < 4 ↔ (remaining s).length < 4 := by simp [streamGet]
  rw [exec, execFrGet, issue_running hs, faults_inMode, and_left_comm, ← hshort, ← Codec.decode_error]
  refine and_congr_right fun _ => ?_
  cases hdecode : Codec.decode (streamGet 4 s).1 with
  | ok q => exact iff_of_false (not_faults_deliver (by exact hs) _) (nomatch ·)
  | error e' => simp [hs, (Codec.decode_error.1 hdecode).1, eq_comm]

end

/-- A running block faults in an instruction exactly for its cause. -/
theorem faults_exec_iff {s : State} (hs : s.fault = 0#3) (i : Instr) (e : ErrorKind) :
    Faults e (exec i s) ↔ FaultCause i s e := by
  have issued := issue_running hs
  cases i with
  | bfFitsu v w => rw [exec_bfFitsu hs, faults_finish hs]; exact BitField.checked_ok_error
  | bfFitss v w => rw [exec_bfFitss hs, faults_finish hs]; exact BitField.checked_ok_error
  | bfGetu a w l => rw [exec_bfGetu hs, faults_finish_map hs]; exact BitField.checked_ok_error
  | bfGets a w l => rw [exec_bfGets hs, faults_finish_map hs]; exact BitField.checked_ok_error
  | bfNewu a w l v => rw [exec_bfNewu hs, faults_finish_map hs]; exact BitField.setUnsigned_error
  | bfNews a w l v => rw [exec_bfNews hs, faults_finish_map hs]; exact BitField.setSigned_error
  | gridNew w h es bs => simp [exec_gridNew hs, hs, FaultCause, and_comm]
  | gridNewdef w h es => simp [exec_gridNewdef hs, hs, FaultCause, and_comm]
  | gridAtRd g c r => exact faults_gridAtRd hs g c r
  | gridAtWr g c r el => exact faults_gridAtWr hs g c r el
  | gridForeach g => simp [exec, execGridForeach, issued, hs, FaultCause]
  | gridWidth g => simp [exec, execGridWidth, issued, hs, FaultCause]
  | gridHeight g => simp [exec, execGridHeight, issued, hs, FaultCause]
  | gridEsize g => simp [exec, execGridEsize, issued, hs, FaultCause]
  | gridBsize g => simp [exec, execGridBsize, issued, hs, FaultCause]
  | gridFree g => simp [exec, execGridFree, issued, hs, FaultCause]
  | cscFwd px den => simp [exec, execCscFwd, issued, hs, FaultCause]
  | cscInv cp den => simp [exec, execCscInv, issued, hs, FaultCause]
  | btFwd p1 p2 p3 p4 => simp [exec, execBtFwd, issued, hs, FaultCause]
  | btInv co => simp [exec, execBtInv, issued, hs, FaultCause]
  | qQuant co => simp [exec, execQQuant, issued, hs, FaultCause]
  | qDequant q => exact iff_of_false (not_faults_qDequant hs q) id
  | cwEnc q => rw [exec_cwEnc hs, faults_finish_map hs]; exact Codec.encode_error
  | cwDec bs => rw [exec, execCwDec, issued, faults_finish_map hs]; exact Codec.decode_error
  | frHdrw w h => simp [exec, execFrHdrw, issued, hs, FaultCause, Framer.startBody, streamPut]
  | frPut q => exact faults_frPut hs q
  | frHdrr => exact faults_frHdrr hs
  | frGet => exact faults_frGet hs

/-- Settles O6, instruction by instruction. -/
theorem faultsAreRaisedExactlyForTheirCauses : Obligations.FaultsAreRaisedExactlyForTheirCauses :=
  ⟨fun i _ e hs => faults_exec_iff hs i e, rfl, rfl, rfl, rfl, rfl⟩

end Sys2Proof.Machine
end

section
/-! PROOFS. The invariants at reset: the state after reset is what an assertion of reset comes to (R43, R320). -/

namespace Sys2Proof.Machine

/-- The state after reset is the one an assertion of reset with the same input puts back. -/
theorem assertReset_resetWith (cfg : Config) (input : List Byte) :
    assertReset (State.resetWith cfg input) input = State.resetWith cfg input := rfl

/-- Settles O55: an assertion of reset, which leaves the state after reset as it is, establishes the invariants. -/
theorem invariantsHoldAfterReset : Obligations.InvariantsHoldAfterReset := by
  intro cfg input
  rw [← assertReset_resetWith]
  exact assertReset_machineInv _ input

end Sys2Proof.Machine
end
